-- ==== Sys2Proof/Word.lean ====
section
/-! DEFINITION. The word types of the engine (spec/00_scope.md R9, R10): widths only. Every computation of the
rules is exact on naturals; a value is a bit vector where a register or a field of that width holds it. -/

namespace Sys2Proof

/-- A byte, unsigned (R9). -/
abbrev Byte := BitVec 8

/-- A window position, a length or a count: 12 bits (R9). -/
abbrev Pos := BitVec 12

/-- A tree index: a position, `NIL` or a root, 13 bits (R9, R47). -/
abbrev Idx := BitVec 13

/-- A host register: 32 bits (R9, R30). -/
abbrev Word := BitVec 32

end Sys2Proof
end

