-- ==== Sys2Proof/Config.lean ====
section
/-! DEFINITION. What the engine fixes once for all sessions (spec/00_scope.md R8, spec/10_state.md R47,
spec/20_memory.md R88), and the one parameter the spec leaves open. -/

namespace Sys2Proof.Config

/-- The largest window (R8): the reference token carries 12 bits of position. -/
def nMax : Nat := 4096

/-- The largest match length (R8). -/
def fMax : Nat := 2048

/-- The number of tree roots, one for each byte value (R47, R160). -/
def rootCount : Nat := 256

/-- The number of cells of the group buffer `CB[0..16]` (R51). -/
def groupCells : Nat := 17

/-- `REG_BASE` (R88, D36, I19): where the platform places the register file on a system bus. The spec leaves it
open and no rule reads it, so nothing in the model does; it has no body, so no proof can rest on a value of it
(log 13). -/
opaque regBase : Nat

end Sys2Proof.Config
end

