-- ==== Sys2Proof/Syntax.lean ====
section
/-! DEFINITION. The instructions, one constructor for each row of spec/opcode_table.json: the three wire tokens
that the decoder executes (spec/00_scope.md R2, spec/30_encoding.md R111 to R113) and the three host commands
(R122). -/

namespace Sys2Proof

/-- One row of the opcode table each. -/
inductive Instr where
  /-- CTRL (W-CTRL, R111): bit `i` of `flags` is the flag of token `i` of the group, 1 literal, 0 reference. -/
  | ctrl (flags : Byte)
  /-- LIT (W-LIT, R112): the literal byte. -/
  | lit (byte : Byte)
  /-- REF (W-REF, R113): `pos` is POS_HI, POS_LO, an absolute window position (R116); `ln` is LN. -/
  | ref (pos : BitVec 12) (ln : BitVec 4)
  /-- NOP (H-CMD, OP = 0, R262). -/
  | nop
  /-- COMPRESS (H-CMD, OP = 1, R263). -/
  | compress
  /-- DECOMPRESS (H-CMD, OP = 2, R264). -/
  | decompress
  deriving DecidableEq, Repr

end Sys2Proof
end

