-- ==== Sys2Proof/Machine/State.lean ====
section
/-! DEFINITION. The state of the machine (spec/10_state.md), with the host beside the engine as plain data, the
reasons a step can stop, and the state after hardware reset (R65). -/

namespace Sys2Proof.Machine

/-- A session's mode (R38, R32 SMODE): 0 compress, 1 decompress. -/
inductive Mode where
  | compress
  | decompress
  deriving DecidableEq, Repr

/-- STATUS.ERR (R32, R281). The codes 4 to 15 are never produced (I14): they have no constructor (log 16). -/
inductive ErrCode where
  | none
  | illegalCmd
  | configInvalid
  | modeMismatch
  deriving DecidableEq, Repr

/-- STATUS.END_REASON (R32, R237). The codes 6 and 7 are never produced (I14): they have no constructor (log 16). -/
inductive EndReason where
  | none
  | eofAtCtrl
  | eofAtB1
  | eofAtLit
  | eofAtB2
  | encComplete
  deriving DecidableEq, Repr

/-- The sequencer labels (R63), the engine's equivalent of a program counter. -/
inductive Seq where
  | idle
  | eStart
  | eLoad
  | ePrime
  | eToken
  | eFlush
  | eAdv
  | eDrain
  | eLoop
  | eFinal
  | dStart
  | dNext
  | dCtrl
  | dLit
  | dRef
  | dCopy
  deriving DecidableEq, Repr

/-- An item of the input port (R90): a byte or the end marker. -/
inductive Item where
  | byte (b : Byte)
  | eof
  deriving DecidableEq, Repr

/-- One turn of the host (R271), or the word that the engine takes its next step first. A list of turns is the
host's whole future and so the interleaving of the two agents (log 1). -/
inductive Turn where
  /-- `HostRead(n)` (R267). -/
  | read (n : BitVec 4)
  /-- `HostWrite(n, v)` (R261, R268). -/
  | write (n : BitVec 4) (v : Word)
  /-- The host offers an input item (R90, R92). -/
  | offer (x : Item)
  /-- The host accepts one output byte (R91). -/
  | accept
  /-- Hardware reset (R310). -/
  | reset
  /-- The engine takes a step before the host's next turn. -/
  | engine
  deriving DecidableEq, Repr

/-- STATUS (R32), field by field; `Flags.lean` assembles the word the host reads (log 16). -/
structure Status where
  busy : Bool
  done : Bool
  err : ErrCode
  ign : Bool
  smode : Mode
  endReason : EndReason
  trunc : Bool
  deriving DecidableEq, Repr

/-- The configuration registers (R33 to R38), each at the width it stores. -/
structure Cfg where
  frameSize : BitVec 13
  fill : Byte
  initPos : Pos
  maxLen : Pos
  minLen : Pos
  mode : Mode
  deriving DecidableEq, Repr

/-- The session parameters `N`, `FILL`, `R0`, `F`, `T` (R43, R6), latched when a session starts. -/
structure Session where
  n : BitVec 13
  fill : Byte
  r0 : Pos
  f : Pos
  t : Pos
  deriving DecidableEq, Repr

/-- The match state `MLEN`, `MPOS` (R48). -/
structure MatchState where
  mlen : Pos
  mpos : Pos
  deriving DecidableEq, Repr

/-- The encoder datapath (R49 to R53). -/
structure Encoder where
  /-- `R`, the encode cursor (R49). -/
  r : Pos
  /-- `S`, the trailing-edge cursor (R49). -/
  s : Pos
  /-- `LEN`, the lookahead bytes not yet encoded (R50). -/
  len : Pos
  /-- `CB[0..16]`, the group buffer (R51). -/
  cb : Vector Byte 17
  /-- `CBPTR`, the next free payload index (R51). -/
  cbptr : BitVec 5
  /-- `CMASK`, the current token's bit in `CB[0]` (R52). -/
  cmask : Byte
  /-- `LASTLEN`, the positions to advance after the token (R53). -/
  lastlen : Pos
  /-- `I`, the positions advanced so far (R53). -/
  i : Pos
  deriving DecidableEq, Repr

/-- The walk temporaries of the match finder (R54). -/
structure Walk where
  p : Idx
  q : Idx
  /-- `CMP`, the exact signed difference of two bytes, -255 to 255 (R13). -/
  cmp : Int
  j : Pos
  deriving DecidableEq, Repr

/-- The decoder datapath (R55 to R57). -/
structure Decoder where
  /-- `FLAGS`, the 16-bit flag register (R55). -/
  flags : BitVec 16
  /-- `WR`, the circular write cursor (R56). -/
  wr : Pos
  b1 : Byte
  b2 : Byte
  /-- `DIST`, the decoded window position (R57). -/
  dist : Pos
  /-- `L`, the decoded length field plus `T` (R57). -/
  l : Pos
  /-- `K`, the copy counter (R57). -/
  k : Pos
  deriving DecidableEq, Repr

/-- The host's side (R62: not state of the engine; R271): its future turns, the items it has offered and the engine
has not taken (R92), the output bytes it has accepted in advance (R91), and what it has received: the output bytes
and the values of its register reads, oldest first (log 1, log 12). -/
structure HostSide where
  script : List Turn
  input : List Item
  credit : Nat
  output : List Byte
  reads : List (BitVec 4 × Word)
  deriving DecidableEq, Repr

/-- The machine's state. A RAM is a list of cells, addresses strictly rising, that lists the cells written in the
current session and nothing else, but that until MF_INIT the links of an earlier compression session still stand (R66,
log 7, log 8). -/
structure State where
  /-- STATUS (R32). -/
  status : Status
  /-- The configuration registers (R33 to R38). -/
  cfg : Cfg
  /-- IN_COUNT (R39). -/
  inCount : Word
  /-- OUT_COUNT (R40). -/
  outCount : Word
  /-- The session parameters (R43). -/
  par : Session
  /-- `WIN`, the window RAM (R44, R45). -/
  win : List Host.Cell
  /-- `LEFT` (R46, R47). -/
  left : List (Nat × Idx)
  /-- `RIGHT` (R46, R47). -/
  right : List (Nat × Idx)
  /-- `PARENT` (R46, R47). -/
  parent : List (Nat × Idx)
  /-- `MLEN`, `MPOS` (R48). -/
  found : MatchState
  /-- The encoder datapath (R49 to R53). -/
  enc : Encoder
  /-- The walk temporaries (R54). -/
  walk : Walk
  /-- The decoder datapath (R55 to R57). -/
  dec : Decoder
  /-- `IN_EOF` (R58). -/
  inEof : Bool
  /-- `SEQ` (R63). -/
  seq : Seq
  /-- The model's own: the bytes of the wire segment taken by `InRead` and not yet executed (log 5). -/
  seg : List Byte
  /-- The model's own: the loop variable `j` of R198 and R202, a loop counter of 12 bits (R9, log 21). -/
  outIdx : BitVec 12
  /-- The host's side. -/
  host : HostSide
  deriving DecidableEq, Repr

/-- Why a step stops. Every one is a FAULT OF THE MODEL (R287, R323), not an engine error, and none is reachable from
reset by the rules of the spec; each is SAFE: the model stops where the spec says a model should. -/
inductive Fault where
  /-- A window index outside `0..N+F-2` (R323). Raised by every window access. Safe. -/
  | windowIndex
  /-- A read of a window cell not written in the session (R66, R323). Raised by every window read. Safe. -/
  | windowUnwritten
  /-- A tree index outside `0..N+256` (R82). Raised by every link access. Safe. -/
  | treeIndex
  /-- A read of a link not written in the session (R66, R323). Raised by every link read. Safe. -/
  | treeUnwritten
  /-- MF_INSERT of a position already in a tree, or not a window position (R164, R173). Safe. -/
  | insertPresent
  /-- MF_INSERT or MF_REMOVE while the tail is not a copy of the window's start (R173, R146). Safe. -/
  | tailBroken
  /-- A window write in compression to a byte of the key of a node that is in a tree (R173, R175). Raised by
  WIN_SET_MIRROR. Safe. -/
  | keyStability
  /-- A walk over more links than a tree without cycles can have (R172, R160). Raised by MF_INSERT and MF_REMOVE.
  Safe. -/
  | treeCycle
  /-- An index outside `CB[0..16]` (R51, R80). Raised by the token packer and the flush. Safe. -/
  | groupIndex
  /-- The segment latch holds more bytes than the segment has (R118); no step fills it so (log 17). Safe. -/
  | segmentMalformed
  deriving DecidableEq, Repr

/-- Why a step has no meaning. -/
inductive Refusal where
  /-- Raised only by an arm of `exec` for an instruction that has no meaning yet; every instruction has one. Safe. -/
  | notModelled (mnemonic : String)
  deriving DecidableEq, Repr

/-- The machine right after hardware reset (R65, R310): every field at the value R65 states; the temporaries, which
R65 leaves unspecified, at 0 (log 6); the RAMs with nothing listed (R66, log 7); the host has done nothing yet
(log 1). -/
def State.reset : State where
  status := { busy := false, done := false, err := .none, ign := false, smode := .compress, endReason := .none, trunc := false }
  cfg := { frameSize := 0x1000, fill := 0x00, initPos := 0xFEE, maxLen := 0x012, minLen := 0x002, mode := .compress }
  inCount := 0
  outCount := 0
  par := { n := 0x1000, fill := 0x00, r0 := 0xFEE, f := 0x012, t := 0x002 }
  win := []
  left := []
  right := []
  parent := []
  found := { mlen := 0, mpos := 0 }
  enc := { r := 0, s := 0, len := 0, cb := Vector.replicate 17 0, cbptr := 1, cmask := 0x01, lastlen := 0, i := 0 }
  walk := { p := 0, q := 0, cmp := 0, j := 0 }
  dec := { flags := 0x0000, wr := 0, b1 := 0, b2 := 0, dist := 0, l := 0, k := 0 }
  inEof := false
  seq := .idle
  seg := []
  outIdx := 0
  host := { script := [], input := [], credit := 0, output := [], reads := [] }

end Sys2Proof.Machine
end

