-- ==== Sys2Proof/Machine/Operands.lean ====
section
/-! DEFINITION. The session's derived constants (spec/00_scope.md R7), the validity predicate (spec/60_exceptions.md
R283), and the assembly and packing of a reference's operands (spec/30_encoding.md R114, R115). Every computation is
exact on naturals (R9); a value is narrowed where a register takes it. -/

namespace Sys2Proof.Machine

/-- `MASK = N - 1` (R7). -/
def Session.mask (p : Session) : Nat :=
  p.n.toNat - 1

/-- `x & MASK` (R7, R10). -/
def Session.wrap (p : Session) (x : Nat) : Nat :=
  x &&& p.mask

/-- `NIL = N` (R7). -/
def Session.nil (p : Session) : Nat :=
  p.n.toNat

/-- `ROOT(c) = N + 1 + c` (R7). -/
def Session.root (p : Session) (c : Byte) : Nat :=
  p.n.toNat + 1 + c.toNat

/-- `WIN_SIZE = N + F - 1` (R7, R44); written `N + (F - 1)`, the same for every `F ≥ 1`. -/
def Session.winSize (p : Session) : Nat :=
  p.n.toNat + (p.f.toNat - 1)

/-- `TREE_SIZE = N + 257` (R7, R46). -/
def Session.treeSize (p : Session) : Nat :=
  p.n.toNat + 1 + Config.rootCount

/-- `VALID(N, R0, F, T)` (R283), clause by clause. -/
def validConfig (n r0 f t : Nat) : Bool :=
  decide (4 ≤ n) && decide (n ≤ Config.nMax) && decide (n &&& (n - 1) = 0)
    && decide (r0 < n)
    && decide (1 ≤ t) && decide (t < f)
    && decide (f ≤ t + 16)
    && decide (2 * f ≤ n)

/-- `VALID` of the configuration registers, as R261 checks it. -/
def Cfg.valid (c : Cfg) : Bool :=
  validConfig c.frameSize.toNat c.initPos.toNat c.maxLen.toNat c.minLen.toNat

/-- `VALID` of the latched session parameters. -/
def Session.valid (p : Session) : Bool :=
  validConfig p.n.toNat p.r0.toNat p.f.toNat p.t.toNat

/-- The parameters a session takes from the configuration registers at its start (R43, R261). -/
def Cfg.latch (c : Cfg) : Session :=
  { n := c.frameSize, fill := c.fill, r0 := c.initPos, f := c.maxLen, t := c.minLen }

/-- `L = (B2 & 0x0F) + T` (R114, R235): the copy takes `L + 1` bytes. -/
def copyLast (ln : BitVec 4) (t : Pos) : Pos :=
  BitVec.ofNat 12 (ln.toNat + t.toNat)

/-- `MPOS & 0xFF` (R115, R197). -/
def packByte1 (mpos : Pos) : Byte :=
  BitVec.ofNat 8 (mpos.toNat &&& 0xFF)

/-- `((MPOS >> 4) & 0xF0) | (MLEN - T - 1)` (R115, R197). -/
def packByte2 (mpos mlen t : Pos) : Byte :=
  BitVec.ofNat 8 ((mpos.toNat >>> 4 &&& 0xF0) ||| (mlen.toNat - t.toNat - 1))

/-- The exact difference `WIN[a] - WIN[b]` of two unsigned bytes (R13). -/
def byteDifference (a b : Byte) : Int :=
  (a.toNat : Int) - (b.toNat : Int)

end Sys2Proof.Machine
end

