-- ==== Sys2Proof/Machine/Flags.lean ====
section
/-! DEFINITION. The engine's flags (spec/10_state.md R60): the decoder's FLAGS register (R55, R232, R233), the flag
bits of the control byte being built (R52, R196, R198), and the STATUS word (R32, R267). -/

namespace Sys2Proof.Machine

/-! FLAGS. -/

/-- `FLAGS >> 1`, a logical shift of 16 bits (R232). -/
def shiftFlags (flags : BitVec 16) : BitVec 16 :=
  flags >>> 1

/-- `FLAGS[8] == 0`: the flags of the last control byte are used up (R232). -/
def flagsUsedUp (flags : BitVec 16) : Bool :=
  !flags.getLsbD 8

/-- `0xFF00 | c`: a control byte with the marker bits 15:8 all ones (R233, R55). -/
def loadFlags (c : Byte) : BitVec 16 :=
  0xFF00#16 ||| c.setWidth 16

/-- The label for the current token: `D_LIT` if `FLAGS[0]` is 1, else `D_REF` (R232, R233). -/
def tokenLabel (flags : BitVec 16) : Seq :=
  if flags.getLsbD 0 then .dLit else .dRef

/-- Where D_NEXT goes with the shifted flags (R232). -/
def nextLabel (flags : BitVec 16) : Seq :=
  if flagsUsedUp flags then .dCtrl else tokenLabel flags

/-! The control byte being built. -/

/-- `CB[0] | CMASK`: set the token's flag, 1 = literal (R196). -/
def setLiteralFlag (control cmask : Byte) : Byte :=
  control ||| cmask

/-- `(CMASK << 1) & 0xFF` (R198). -/
def shiftMask (cmask : Byte) : Byte :=
  cmask <<< 1

/-! STATUS. -/

/-- TRUNC: 1 exactly when the stream ended inside a token (R32, R63, R238). -/
def EndReason.truncates : EndReason → Bool
  | .eofAtLit | .eofAtB2 => true
  | .none | .eofAtCtrl | .eofAtB1 | .encComplete => false

/-- The code of END_REASON (R32, R237). -/
def EndReason.code : EndReason → Nat
  | .none => 0
  | .eofAtCtrl => 1
  | .eofAtB1 => 2
  | .eofAtLit => 3
  | .eofAtB2 => 4
  | .encComplete => 5

/-- The code of ERR (R32, R281). -/
def ErrCode.code : ErrCode → Nat
  | .none => 0
  | .illegalCmd => 1
  | .configInvalid => 2
  | .modeMismatch => 3

/-- The code of a mode (R32 SMODE, R38). -/
def Mode.code : Mode → Nat
  | .compress => 0
  | .decompress => 1

/-- The STATUS word (R267): `BUSY | DONE<<1 | ERR<<2 | IGN<<6 | SMODE<<7 | END_REASON<<8 | TRUNC<<11`; bits 31:12
read 0 (R32). -/
def Status.word (st : Status) : Word :=
  BitVec.ofNat 32
    (st.busy.toNat ||| st.done.toNat <<< 1 ||| st.err.code <<< 2 ||| st.ign.toNat <<< 6 ||| st.smode.code <<< 7
      ||| st.endReason.code <<< 8 ||| st.trunc.toNat <<< 11)

/-- The clears of a nonzero command written while idle (R261, R290, D23): DONE, ERR, IGN, END_REASON, TRUNC. -/
def Status.cleared (st : Status) : Status :=
  { st with done := false, err := .none, ign := false, endReason := .none, trunc := false }

/-- STATUS after a session ends with `reason` (R63). -/
def Status.finished (st : Status) (reason : EndReason) : Status :=
  { st with endReason := reason, trunc := reason.truncates, done := true, busy := false }

/-- The mode bit of a value written to CFG_MODE (R38, R42). -/
def modeOfBit (b : Bool) : Mode :=
  if b then .decompress else .compress

end Sys2Proof.Machine
end

