-- ==== Sys2Proof/Machine/Ops.lean ====
section
/-! DEFINITION. The named operations over the state: field updates, the RAMs as canonical lists of cells
(spec/20_memory.md R80 to R86, R89), the group buffer (spec/10_state.md R51), the ports (R90, R91), and what ends a
command or a session: the error (spec/60_exceptions.md R280, R289), which is this engine's form of taking an
exception, the clears that leave it (R290), the end of a session (R63), its start (R261), and hardware reset
(spec/70_reset_and_hazards.md R310). -/

namespace Sys2Proof.Machine

/-! Field updates, one for each field; `Laws/State.lean` holds their lemmas. -/

def State.withStatus (s : State) (v : Status) : State :=
  { s with status := v }

def State.withCfg (s : State) (v : Cfg) : State :=
  { s with cfg := v }

def State.withInCount (s : State) (v : Word) : State :=
  { s with inCount := v }

def State.withOutCount (s : State) (v : Word) : State :=
  { s with outCount := v }

def State.withPar (s : State) (v : Session) : State :=
  { s with par := v }

def State.withWin (s : State) (v : List Host.Cell) : State :=
  { s with win := v }

def State.withLeft (s : State) (v : List (Nat × Idx)) : State :=
  { s with left := v }

def State.withRight (s : State) (v : List (Nat × Idx)) : State :=
  { s with right := v }

def State.withParent (s : State) (v : List (Nat × Idx)) : State :=
  { s with parent := v }

def State.withFound (s : State) (v : MatchState) : State :=
  { s with found := v }

def State.withEnc (s : State) (v : Encoder) : State :=
  { s with enc := v }

def State.withWalk (s : State) (v : Walk) : State :=
  { s with walk := v }

def State.withDec (s : State) (v : Decoder) : State :=
  { s with dec := v }

def State.withInEof (s : State) (v : Bool) : State :=
  { s with inEof := v }

def State.goto (s : State) (v : Seq) : State :=
  { s with seq := v }

def State.withSeg (s : State) (v : List Byte) : State :=
  { s with seg := v }

def State.withOutIdx (s : State) (v : BitVec 12) : State :=
  { s with outIdx := v }

def State.withHost (s : State) (v : HostSide) : State :=
  { s with host := v }

/-! A RAM: cells `(address, value)`, addresses strictly rising. An address that is not listed has not been written in
the session and holds no value (R66). -/

/-- The canonical form: addresses strictly rising. -/
abbrev Memory.wf {w : Nat} (m : List (Nat × BitVec w)) : Prop :=
  m.Pairwise (fun x y => x.1 < y.1)

/-- The value of a cell; none where the session has not written it. -/
def Memory.read {w : Nat} : List (Nat × BitVec w) → Nat → Option (BitVec w)
  | [], _ => none
  | (b, x) :: m, a => if a = b then some x else Memory.read m a

/-- Write a cell, keeping the canonical form. -/
def Memory.write {w : Nat} : List (Nat × BitVec w) → Nat → BitVec w → List (Nat × BitVec w)
  | [], a, v => [(a, v)]
  | (b, x) :: m, a, v =>
    if a < b then (a, v) :: (b, x) :: m
    else if a = b then (a, v) :: m
    else (b, x) :: Memory.write m a v

/-- The RAM that holds `v` in the `len` cells from `start` and nothing else. -/
def Memory.fill {w : Nat} (start len : Nat) (v : BitVec w) : List (Nat × BitVec w) :=
  (List.range' start len).map (fun a => (a, v))

/-! The window RAM. -/

/-- `WIN[i]` (R11, R44): an index outside `0..N+F-2` and a cell not written in the session are faults of the model
(R323). -/
def winRead (s : State) (i : Nat) : Except Fault Byte :=
  if i < s.par.winSize then
    match Memory.read s.win i with
    | some v => .ok v
    | none => .error .windowUnwritten
  else .error .windowIndex

/-- `WIN[i] <- v` (R11, R44). -/
def winWrite (s : State) (i : Nat) (v : Byte) : Except Fault State :=
  if i < s.par.winSize then .ok (s.withWin (Memory.write s.win i v)) else .error .windowIndex

/-! The link RAMs. -/

/-- Which link array (R46). -/
inductive Link where
  | left
  | right
  | parent
  deriving DecidableEq, Repr

/-- The cells of a link array. -/
def State.links (s : State) : Link → List (Nat × Idx)
  | .left => s.left
  | .right => s.right
  | .parent => s.parent

/-- Replace the cells of a link array. -/
def State.withLinks (s : State) : Link → List (Nat × Idx) → State
  | .left, m => s.withLeft m
  | .right, m => s.withRight m
  | .parent, m => s.withParent m

/-- `LEFT[i]`, `RIGHT[i]`, `PARENT[i]` (R11, R82) as a natural; faults as R323. -/
def linkRead (k : Link) (s : State) (i : Nat) : Except Fault Nat :=
  if i < s.par.treeSize then
    match Memory.read (s.links k) i with
    | some v => .ok v.toNat
    | none => .error .treeUnwritten
  else .error .treeIndex

/-- `LEFT[i] <- v`, `RIGHT[i] <- v`, `PARENT[i] <- v` (R11, R82). -/
def linkWrite (k : Link) (s : State) (i v : Nat) : Except Fault State :=
  if i < s.par.treeSize then .ok (s.withLinks k (Memory.write (s.links k) i (BitVec.ofNat 13 v)))
  else .error .treeIndex

/-! The group buffer. -/

/-- `CB[i]` (R51, R80). -/
def groupRead (s : State) (i : Nat) : Except Fault Byte :=
  if h : i < Config.groupCells then .ok (s.enc.cb.get ⟨i, h⟩) else .error .groupIndex

/-- `CB[i] <- v` (R51, R80). -/
def groupWrite (s : State) (i : Nat) (v : Byte) : Except Fault State :=
  if h : i < Config.groupCells then .ok (s.withEnc { s.enc with cb := s.enc.cb.set i v h }) else .error .groupIndex

/-- `CB[0] <- 0x00; CBPTR <- 1; CMASK <- 0x01` (R191, R198): an empty group. -/
def emptyGroup (s : State) : State :=
  s.withEnc { s.enc with cb := s.enc.cb.set 0 0x00, cbptr := 1, cmask := 0x01 }

/-! The ports. -/

/-- What `InRead()` gives (R90). -/
inductive Taken where
  /-- No item is offered: the engine waits, nothing changes. -/
  | wait
  /-- `EOF`. -/
  | eof (s : State)
  /-- A byte. -/
  | byte (b : Byte) (s : State)
  deriving Repr

/-- `InRead()` (R90): `EOF` at once while IN_EOF is 1; else the first item offered, if there is one; IN_COUNT counts
the bytes (R39). -/
def inRead (s : State) : Taken :=
  if s.inEof then .eof s
  else
    match s.host.input with
    | [] => .wait
    | .eof :: rest => .eof ((s.withHost { s.host with input := rest }).withInEof true)
    | .byte b :: rest => .byte b ((s.withHost { s.host with input := rest }).withInCount (s.inCount + 1))

/-- `OutWrite(b)` (R91): none while the host accepts no byte; OUT_COUNT counts the bytes (R40). -/
def outWrite (b : Byte) (s : State) : Option State :=
  match s.host.credit with
  | 0 => none
  | n + 1 =>
    some ((s.withHost { s.host with credit := n, output := s.host.output ++ [b] }).withOutCount (s.outCount + 1))

/-! The ends of a session and of a command. -/

/-- `finish(reason)` (R63). The segment latch is emptied with the session (log 5). -/
def finish (reason : EndReason) (s : State) : State :=
  ((s.withStatus (s.status.finished reason)).goto .idle).withSeg []

/-- The clears that every nonzero command written while idle makes first (R261); they are also the only way out of
an error (R290). -/
def clearResult (s : State) : State :=
  s.withStatus s.status.cleared

/-- A rejected command: `STATUS.ERR <- code; return` (R11, R280, R289), after the clears of `clearResult`. It is the
one operation for all three errors, and nothing else changes. -/
def raiseError (code : ErrCode) (s : State) : State :=
  s.withStatus { s.status with err := code }

/-- WIN_FILL (R140): `N` window cells and the `F - 1` cells of the tail hold `FILL`. The window is created anew: a cell
an earlier session wrote holds no value in this one (R44, R66, log 8). -/
def winFill (s : State) : State :=
  s.withWin (Memory.fill 0 s.par.winSize s.par.fill)

/-- The start label of a mode (R261, R88). -/
def Mode.start : Mode → Seq
  | .compress => .eStart
  | .decompress => .dStart

/-- The accepted part of R261: latch the parameters, clear the counters and IN_EOF, fill the window, set BUSY, go to
the start label. -/
def startSession (mode : Mode) (s : State) : State :=
  let s := (s.withPar s.cfg.latch).withStatus { s.status with smode := mode }
  let s := ((s.withInCount 0).withOutCount 0).withInEof false
  let s := winFill s
  let s := s.withStatus { s.status with busy := true }
  (s.goto mode.start).withSeg []

/-- Hardware reset (R310 to R312): every piece of the engine's state at its reset value and the RAMs unspecified; what
the host has offered, accepted and received stays with it. -/
def hardwareReset (s : State) : State :=
  State.reset.withHost s.host

/-- Carry an operation's fault to the step's outcome. -/
def outcomeOf : Except Fault State → Host.Outcome State Fault Refusal
  | .ok s => .next s
  | .error e => .fault e

end Sys2Proof.Machine
end

