-- ==== Sys2Proof/Machine/Commands.lean ====
section
/-! DEFINITION. A write to CMD (spec/44_host_commands.md R261 to R266) and the meanings of the three commands, one
definition each; and the other host accesses (R267, R268). -/

namespace Sys2Proof.Machine

/-- The mode a start command asks for (R261: `v == 1` is compress). -/
def commandMode (v : Word) : Mode :=
  if v = 1 then .compress else .decompress

/-- `HostWrite(0, v)` (R261): the whole command path, including rejection, in the order of R288. -/
def commandWrite (v : Word) (s : State) : State :=
  if s.status.busy then
    if v ≠ 0 then s.withStatus { s.status with ign := true } else s
  else if v = 0 then s
  else
    let s := clearResult s
    if v ≠ 1 ∧ v ≠ 2 then raiseError .illegalCmd s
    else if s.cfg.valid = false then raiseError .configInvalid s
    else if s.cfg.mode ≠ commandMode v then raiseError .modeMismatch s
    else startSession (commandMode v) s

/-- NOP (R262): CMD word 0. -/
def execNop (s : State) : Host.Outcome State Fault Refusal :=
  .next (commandWrite 0x00000000#32 s)

/-- COMPRESS (R263): CMD word 1. -/
def execCompress (s : State) : Host.Outcome State Fault Refusal :=
  .next (commandWrite 0x00000001#32 s)

/-- DECOMPRESS (R264): CMD word 2. -/
def execDecompress (s : State) : Host.Outcome State Fault Refusal :=
  .next (commandWrite 0x00000002#32 s)

/-- An illegal command word (R265, R282): no instruction of the table; the command path rejects it. -/
def illegalCommand (v : Word) (s : State) : State :=
  commandWrite v s

/-- `HostRead(n)` (R267, R30 to R41): the value read. -/
def readRegister (s : State) (n : BitVec 4) : Word :=
  match n.toNat with
  | 1 => s.status.word
  | 2 => s.cfg.frameSize.setWidth 32
  | 3 => s.cfg.fill.setWidth 32
  | 4 => s.cfg.initPos.setWidth 32
  | 5 => s.cfg.maxLen.setWidth 32
  | 6 => s.cfg.minLen.setWidth 32
  | 7 => BitVec.ofNat 32 s.cfg.mode.code
  | 8 => s.inCount
  | 9 => s.outCount
  | _ => 0

/-- A register read: the host receives the value, and nothing else changes (R86, R267). -/
def hostRead (n : BitVec 4) (s : State) : State :=
  s.withHost { s.host with reads := s.host.reads ++ [(n, readRegister s n)] }

/-- `HostWrite(n, v)` for `n ≠ 0` (R268, R42): a configuration register stores the bits it has; every other register
ignores the write. -/
def hostWrite (n : BitVec 4) (v : Word) (s : State) : State :=
  match n.toNat with
  | 2 => s.withCfg { s.cfg with frameSize := v.setWidth 13 }
  | 3 => s.withCfg { s.cfg with fill := v.setWidth 8 }
  | 4 => s.withCfg { s.cfg with initPos := v.setWidth 12 }
  | 5 => s.withCfg { s.cfg with maxLen := v.setWidth 12 }
  | 6 => s.withCfg { s.cfg with minLen := v.setWidth 12 }
  | 7 => s.withCfg { s.cfg with mode := modeOfBit (v.getLsbD 0) }
  | _ => s

/-- The host offers an item; it waits at the port's end (R92). -/
def hostOffer (x : Item) (s : State) : State :=
  s.withHost { s.host with input := s.host.input ++ [x] }

/-- The host accepts one more output byte (R91, log 12). -/
def hostAccept (s : State) : State :=
  s.withHost { s.host with credit := s.host.credit + 1 }

/-- The host's script goes on after its first turn. -/
def nextTurn (ts : List Turn) (s : State) : State :=
  s.withHost { s.host with script := ts }

end Sys2Proof.Machine
end

