-- ==== Sys2Proof/WellFormed.lean ====
section
/-! DEFINITION. Well-formedness. A single instruction is well-formed whatever its operands hold: the wire format has
no reserved or illegal encoding (spec/30_encoding.md R120) and the commands carry no operand (R122); each operand's
type has exactly the width of its field. What CAN be ill-formed is a group of tokens: R111, R118 and R125 say which
control byte goes with which tokens and how many tokens there may be. -/

namespace Sys2Proof

/-- Every instruction's operands fill their fields exactly (R120, R122): no operand value is refused. -/
def Instr.wellFormed : Instr → Bool
  | .ctrl _ => true
  | .lit _ => true
  | .ref _ _ => true
  | .nop => true
  | .compress => true
  | .decompress => true

/-- A literal token, flag 1 (R111). -/
def Instr.isLiteral : Instr → Bool
  | .lit _ => true
  | .ctrl _ | .ref _ _ | .nop | .compress | .decompress => false

/-- A token of a group: a literal or a reference (spec/00_scope.md, Glossary "token"). -/
def Instr.isToken : Instr → Bool
  | .lit _ | .ref _ _ => true
  | .ctrl _ | .nop | .compress | .decompress => false

/-- A group (R110, R118): one control byte and its tokens in order. -/
structure Group where
  control : Byte
  tokens : List Instr
  deriving DecidableEq, Repr

/-- The flag that token number `i` of the list must have: 1 exactly for a literal; a missing token of a partial
group has flag 0 (R111, R119). -/
def Group.flagOf (tokens : List Instr) (i : Nat) : Bool :=
  match tokens[i]? with
  | some t => t.isLiteral
  | none => false

/-- Well-formedness of a group as R118 and R125 give it: 1 to 8 tokens, each a literal or a reference, and bit `i`
of the control byte is 1 exactly when token `i` is a literal. -/
def Group.wellFormed (g : Group) : Bool :=
  decide (1 ≤ g.tokens.length) && decide (g.tokens.length ≤ 8)
    && g.tokens.all Instr.isToken
    && (List.range 8).all (fun i => g.control.getLsbD i == Group.flagOf g.tokens i)

end Sys2Proof
end

