-- ==== Sys2Proof/Decode.lean ====
section
/-! DEFINITION. The decoder, total on any bytes and any command word, and after it the encoder, both written from
the encodings of spec/30_encoding.md (R111 to R115, R121, R122). The formats' selectors (R126) are not bits of the
segment: the sequencer chooses the format from FLAGS and hands it to the decoder beside the bytes. -/

namespace Sys2Proof

/-- The three segment formats of the wire (R111 to R113). -/
inductive Format where
  /-- W-CTRL: one byte, read when `FLAGS[8]` is 0 (R126). -/
  | wCtrl
  /-- W-LIT: one byte, read when `FLAGS[0]` is 1 (R126). -/
  | wLit
  /-- W-REF: two bytes, read when `FLAGS[0]` is 0 (R126). -/
  | wRef
  deriving DecidableEq, Repr

/-- What the decoder is given: a wire segment's bytes in stream order with its format, or a word written to CMD
(H-CMD, R121). -/
inductive Fetch where
  | segment (f : Format) (bytes : List Byte)
  | command (v : Word)
  deriving DecidableEq, Repr

/-- Why the decoder gives no instruction. -/
inductive Reject where
  /-- The bytes end before the segment does (R118): the stream's end, met by `InRead` (R237). -/
  | tooShort (f : Format)
  /-- More bytes than the segment has (R118). -/
  | tooLong (f : Format)
  /-- A CMD word other than 0, 1 or 2 (R122, R265): ILLEGAL_CMD. -/
  | illegalCommand (v : Word)
  deriving DecidableEq, Repr

/-- POS: `b1` is bits 7:0 and the upper nibble of `b2` is bits 11:8 (R113, R114:
`DIST = B1 | ((B2 & 0xF0) << 4)`). -/
def posOf (b1 b2 : Byte) : BitVec 12 :=
  b1.setWidth 12 ||| ((b2 &&& 0xF0#8).setWidth 12 <<< 4)

/-- LN: the lower nibble of `b2` (R113). -/
def lnOf (b2 : Byte) : BitVec 4 :=
  b2.setWidth 4

/-- How many bytes a segment has: decided by its format alone (R118). -/
def Format.length : Format → Nat
  | .wCtrl => 1
  | .wLit => 1
  | .wRef => 2

/-- Read one segment of the given format from the front of a byte list; answer it with the rest (R111 to R113). -/
def takeSegment : Format → List Byte → Except Reject (Instr × List Byte)
  | .wCtrl, c :: rest => .ok (.ctrl c, rest)
  | .wLit, c :: rest => .ok (.lit c, rest)
  | .wRef, b1 :: b2 :: rest => .ok (.ref (posOf b1 b2) (lnOf b2), rest)
  | f, _ => .error (.tooShort f)

/-- The command word (R121, R122): the whole 32-bit value decides; it is not reduced to OP (R265). -/
def decodeCommand (v : Word) : Except Reject Instr :=
  if v = 0x00000000#32 then .ok .nop
  else if v = 0x00000001#32 then .ok .compress
  else if v = 0x00000002#32 then .ok .decompress
  else .error (.illegalCommand v)

/-- The decoder. A segment's bytes must be exactly the segment. -/
def decode : Fetch → Except Reject Instr
  | .segment f bytes =>
    match takeSegment f bytes with
    | .ok (i, []) => .ok i
    | .ok (_, _ :: _) => .error (.tooLong f)
    | .error e => .error e
  | .command v => decodeCommand v

/-! The encoder, from the same tables. -/

/-- `b1` of a reference: position bits 7:0 (R113). -/
def refByte1 (pos : BitVec 12) : Byte :=
  pos.setWidth 8

/-- `b2` of a reference: position bits 11:8 in the upper nibble, LN in the lower (R113). -/
def refByte2 (pos : BitVec 12) (ln : BitVec 4) : Byte :=
  ((pos >>> 4).setWidth 8 &&& 0xF0#8) ||| ln.setWidth 8

/-- The instruction's segment with its format, or its command word (R111 to R113, R122). -/
def encode : Instr → Fetch
  | .ctrl c => .segment .wCtrl [c]
  | .lit b => .segment .wLit [b]
  | .ref pos ln => .segment .wRef [refByte1 pos, refByte2 pos ln]
  | .nop => .command 0x00000000#32
  | .compress => .command 0x00000001#32
  | .decompress => .command 0x00000002#32

/-- The bytes of a token on the wire, in stream order; a command has none. -/
def wireBytes (i : Instr) : List Byte :=
  match encode i with
  | .segment _ bytes => bytes
  | .command _ => []

/-- A group on the wire: the control byte, then the tokens' segments in order (R110, R111). -/
def groupBytes (g : Group) : List Byte :=
  g.control :: g.tokens.flatMap wireBytes

/-- The format of a token whose flag bit is `flag` (R111: 1 a literal byte, 0 a pair). -/
def tokenFormat (flag : Bool) : Format :=
  if flag then .wLit else .wRef

/-- Read the tokens of a group's flags `i` to `i + n - 1` from the bytes, in order (R111, R118); stop, with no
error, where the bytes end (R119, R237). -/
def takeTokens (control : Byte) : Nat → Nat → List Byte → List Instr × List Byte
  | 0, _, bytes => ([], bytes)
  | n + 1, i, bytes =>
    match takeSegment (tokenFormat (control.getLsbD i)) bytes with
    | .ok (t, rest) => (t :: (takeTokens control n (i + 1) rest).1, (takeTokens control n (i + 1) rest).2)
    | .error _ => ([], [])

/-- The tokens of a whole stream (R110, R111, R119, R242), reading at most `fuel` groups. -/
def streamTokens : Nat → List Byte → List Instr
  | 0, _ => []
  | _ + 1, [] => []
  | fuel + 1, c :: rest =>
    (takeTokens c 8 0 rest).1 ++ streamTokens fuel (takeTokens c 8 0 rest).2

/-! Pseudo-instructions (R125). -/

/-- The control byte of a group of tokens: bit `i` is 1 exactly when token `i` is a literal (R125). -/
def controlOf (tokens : List Instr) : Byte :=
  BitVec.ofBoolListLE ((List.range 8).map (Group.flagOf tokens))

/-- `GROUP { t0; ...; tk }` (R125): the control byte computed from the tokens. -/
def expandGroup (tokens : List Instr) : Group :=
  ⟨controlOf tokens, tokens⟩

/-- `COPY pos, n` under the threshold `t` (R125): `REF pos=pos, ln=n-T-1`, for `T+1 ≤ n ≤ T+16`. -/
def expandCopy (t : Nat) (pos : BitVec 12) (n : Nat) : Option Instr :=
  if t + 1 ≤ n ∧ n ≤ t + 16 then some (.ref pos (BitVec.ofNat 4 (n - t - 1))) else none

/-- `START_COMPRESS` (R125): the word written to CMD. -/
def startCompressWord : Word := 0x1#32

/-- `START_DECOMPRESS` (R125): the word written to CMD. -/
def startDecompressWord : Word := 0x2#32

/-! The opcode table's numbering of an instruction's bits. -/

/-- Byte number `k` of a word numbered as the opcode table numbers it: byte 0 is bits 7:0 and comes first. -/
def tableByte (w k : Nat) : Byte :=
  BitVec.ofNat 8 (w / 2 ^ (8 * k))

/-- What the decoder is given for a table row of `nbits` bits (log 14): up to 8 bits a one-byte segment, whose
selector the table puts at bit 0 (0 W-CTRL, 1 W-LIT); up to 16 bits a reference; above that a command word. -/
def tableFetch (nbits w : Nat) : Fetch :=
  if nbits ≤ 8 then
    if w % 2 = 0 then .segment .wCtrl [tableByte w 0] else .segment .wLit [tableByte w 0]
  else if nbits ≤ 16 then .segment .wRef [tableByte w 0, tableByte w 1]
  else .command (BitVec.ofNat 32 w)

/-- The instruction the decoder reads from a row's bits; none where it refuses. -/
def decodeTableWord (nbits w : Nat) : Option Instr :=
  match decode (tableFetch nbits w) with
  | .ok i => some i
  | .error _ => none

end Sys2Proof
end

