-- ==== Sys2Proof/Machine/Window.lean ====
section
/-! DEFINITION. The window operations of spec/40_window.md (R141 to R144; WIN_FILL, R140, is `winFill` of Ops.lean) and
the two conditions the match finder's preconditions put on the window (spec/41_match_finder.md R173): the tail
invariant (R146) and key stability (R175). -/

namespace Sys2Proof.Machine

/-- WIN_GET_LIN (R141): a linear read. -/
def winGetLin (s : State) (i : Nat) : Except Fault Byte :=
  winRead s i

/-- Position `p` is in no tree (R47: it is in one exactly when `PARENT[p] != NIL`). DESIGN CHOICE (log 23): a position
whose PARENT holds no value counts as in no tree. The spec leaves an unwritten cell's content open (R66); a position
enters a tree only by a write of its PARENT, so before MF_INIT none has. DESIGN CHOICE (log 23): between WIN_FILL and
MF_INIT the cells that an earlier compression session left still stand, for the links are dropped by MF_INIT and not by the
start (log 8), and they count as they read. -/
def absentFromTrees (s : State) (p : Nat) : Bool :=
  match Memory.read s.parent p with
  | some up => up == BitVec.ofNat 13 s.par.nil
  | none => true

/-- Key stability for a write to window position `a` (R175): no position whose key holds `a`, that is none of
`a, a-1, ..., a-F+1` modulo `N`, is in a tree. -/
def keyFree (s : State) (a : Nat) : Bool :=
  (List.range s.par.f.toNat).all (fun k => absentFromTrees s (s.par.wrap (a + s.par.n.toNat - k)))

/-- WIN_SET_MIRROR (R142): write a position of the window and, for `a < F - 1`, its copy in the tail. An operand
outside `0..N-1` is a window index out of range (R323); a write into the key of a node that is in a tree breaks the
precondition of R173. -/
def winSetMirror (s : State) (a : Nat) (c : Byte) : Except Fault State :=
  if s.par.n.toNat ≤ a then .error .windowIndex
  else if keyFree s a then do
    let s ← winWrite s a c
    if a < s.par.f.toNat - 1 then winWrite s (a + s.par.n.toNat) c else .ok s
  else .error .keyStability

/-- WIN_GET_CIRC (R143): a read reduced by the mask. -/
def winGetCirc (s : State) (i : Nat) : Except Fault Byte :=
  winRead s (s.par.wrap i)

/-- WIN_SET_CIRC (R144): a write reduced by the mask; the tail is not written. -/
def winSetCirc (s : State) (a : Nat) (c : Byte) : Except Fault State :=
  winWrite s (s.par.wrap a) c

/-- The tail invariant (R146, R45): `WIN[N + j] = WIN[j]` for every `j` in `0..F-2`, the cells being written. -/
def tailMirrored (s : State) : Bool :=
  (List.range (s.par.f.toNat - 1)).all (fun j =>
    (Memory.read s.win j).isSome && Memory.read s.win (s.par.n.toNat + j) == Memory.read s.win j)

end Sys2Proof.Machine
end

