-- ==== Sys2Proof/Machine/Decoder.lean ====
section
/-! DEFINITION. The decompression session (spec/43_decoder.md): the meanings of the three wire tokens, one definition
each (R233 to R235), the micro-operations D_START, D_NEXT and D_COPY (R231, R232, R236), and the fetch of a segment's
bytes from the input port (R233 to R235, R237). A token's bytes are taken one by one into the latch `seg`; the token
runs when its segment is whole (log 5). -/

namespace Sys2Proof.Machine

/-- `WR <- (WR + 1) & MASK` (R234, R236). -/
def advanceWrite (s : State) : State :=
  s.withDec { s.dec with wr := BitVec.ofNat 12 (s.par.wrap (s.dec.wr.toNat + 1)) }

/-- `OutWrite(c); WIN_SET_CIRC(WR, c); WR <- (WR + 1) & MASK` (R234, R236), with `after` once the byte is out; while the
host accepts no byte nothing changes. -/
def emitByte (c : Byte) (after : State → State) (s : State) : Except Fault State :=
  match outWrite c s with
  | none => .ok s
  | some s => do
    let s ← winSetCirc s s.dec.wr.toNat c
    .ok (after (advanceWrite s))

/-- CTRL (R233), the control byte having been read: load FLAGS and go to the first token. -/
def execCtrl (c : Byte) (s : State) : Host.Outcome State Fault Refusal :=
  .next (((s.withDec { s.dec with flags := loadFlags c }).withSeg []).goto (tokenLabel (loadFlags c)))

/-- LIT (R234), the literal byte having been read: out, into the window, and on; while the host accepts no byte the
engine waits (R64). -/
def execLit (b : Byte) (s : State) : Host.Outcome State Fault Refusal :=
  outcomeOf (emitByte b (fun s => (s.withSeg []).goto .dNext) s)

/-- REF (R235), both bytes having been read: `B1`, `B2`, `DIST`, `L`, `K`, and on to D_COPY (R236). -/
def execRef (pos : BitVec 12) (ln : BitVec 4) (s : State) : Host.Outcome State Fault Refusal :=
  .next (((s.withDec { s.dec with
      b1 := refByte1 pos, b2 := refByte2 pos ln, dist := pos, l := copyLast ln s.par.t, k := 0 }).withSeg []).goto .dCopy)

/-- D_START (R231). -/
def dStart (s : State) : State :=
  (s.withDec { s.dec with flags := 0x0000, wr := s.par.r0 }).goto .dNext

/-- D_NEXT (R232). -/
def dNext (s : State) : State :=
  (s.withDec { s.dec with flags := shiftFlags s.dec.flags }).goto (nextLabel (shiftFlags s.dec.flags))

/-- `K <- K + 1` (R236). -/
def advanceCopy (s : State) : State :=
  s.withDec { s.dec with k := BitVec.ofNat 12 (s.dec.k.toNat + 1) }

/-- D_COPY (R236): one pass of its loop, which reads the byte from the window as the earlier passes left it (R94), or
its end. -/
def dCopy (s : State) : Except Fault State :=
  if s.dec.k.toNat ≤ s.dec.l.toNat then do
    let c ← winGetCirc s (s.dec.dist.toNat + s.dec.k.toNat)
    emitByte c advanceCopy s
  else .ok (s.goto .dNext)

/-! Fetching a segment. -/

/-- The format of the segment a label reads (R126, R233 to R235). -/
def segmentFormat : Seq → Option Format
  | .dCtrl => some .wCtrl
  | .dLit => some .wLit
  | .dRef => some .wRef
  | .idle | .eStart | .eLoad | .ePrime | .eToken | .eFlush | .eAdv | .eDrain | .eLoop | .eFinal
  | .dStart | .dNext | .dCopy => none

/-- The instruction word at hand: a segment whose bytes are all in the latch. -/
def fetched (s : State) : Option Fetch :=
  match segmentFormat s.seq with
  | some f => if f.length ≤ s.seg.length then some (.segment f s.seg) else none
  | none => none

/-- Why the session ends when `InRead` returns `EOF` while a segment of format `f` is being read (R237): between the
two bytes of a reference, or before the segment's first byte. -/
def endReasonOf (f : Format) (taken : List Byte) : EndReason :=
  match f, taken with
  | .wCtrl, _ => .eofAtCtrl
  | .wLit, _ => .eofAtLit
  | .wRef, [] => .eofAtB1
  | .wRef, _ :: _ => .eofAtB2

/-- A byte of a segment has been read: into the latch, and for a reference into `B1` or `B2` (R235). -/
def latchByte (f : Format) (b : Byte) (s : State) : State :=
  let dec := match f, s.seg with
    | .wRef, [] => { s.dec with b1 := b }
    | .wRef, _ :: _ => { s.dec with b2 := b }
    | .wCtrl, _ => s.dec
    | .wLit, _ => s.dec
  (s.withDec dec).withSeg (s.seg ++ [b])

/-- One `InRead` of a segment (R233 to R235, R237). -/
def fetchByte (f : Format) (s : State) : State :=
  match inRead s with
  | .wait => s
  | .eof t => finish (endReasonOf f s.seg) t
  | .byte b t => latchByte f b t

end Sys2Proof.Machine
end

