-- ==== Sys2Proof/Machine/MatchFinder.lean ====
section
/-! DEFINITION. The binary-tree match finder of spec/41_match_finder.md: MF_INIT (R163), MF_INSERT (R164 to R168) and
MF_REMOVE (R169, R170), statement for statement over the registers P, Q, CMP and J (R54). A failed precondition is a
fault of the model (R173, D32). A loop runs on fuel of one step for each cell of a link array; a walk that uses it up
has met a cycle (R172). -/

namespace Sys2Proof.Machine

/-- MF_INIT (R163): every root's RIGHT and every position's PARENT is NIL. The arrays are created anew for the
session: no other cell of them has been written (R46, R66, log 8). -/
def mfInit (s : State) : State :=
  let nil := BitVec.ofNat 13 s.par.nil
  ((s.withLeft []).withRight (Memory.fill (s.par.n.toNat + 1) Config.rootCount nil)).withParent
    (Memory.fill 0 s.par.n.toNat nil)

/-- `P <- v`. -/
def setP (s : State) (v : Nat) : State :=
  s.withWalk { s.walk with p := BitVec.ofNat 13 v }

/-- `Q <- v`. -/
def setQ (s : State) (v : Nat) : State :=
  s.withWalk { s.walk with q := BitVec.ofNat 13 v }

/-- `CMP <- v`. -/
def setCmp (s : State) (v : Int) : State :=
  s.withWalk { s.walk with cmp := v }

/-- `J <- v`. -/
def setJ (s : State) (v : Nat) : State :=
  s.withWalk { s.walk with j := BitVec.ofNat 12 v }

/-- The inner loop of R165: from `J`, compare `WIN[r + J]` with `WIN[P + J]` until they differ or `J = F`. -/
def mfCompare : Nat → Nat → State → Except Fault State
  | 0, _, s => .ok s
  | fuel + 1, r, s =>
    if s.walk.j.toNat < s.par.f.toNat then do
      let a ← winGetLin s (r + s.walk.j.toNat)
      let b ← winGetLin s (s.walk.p.toNat + s.walk.j.toNat)
      let s := setCmp s (byteDifference a b)
      if s.walk.cmp ≠ 0 then .ok s else mfCompare fuel r (setJ s (s.walk.j.toNat + 1))
    else .ok s

/-- R166: `r` takes the place of node `P`, whose key is equal. -/
def mfReplace (r : Nat) (s : State) : Except Fault State := do
  let p := s.walk.p.toNat
  let s ← linkWrite .parent s r (← linkRead .parent s p)
  let s ← linkWrite .left s r (← linkRead .left s p)
  let s ← linkWrite .right s r (← linkRead .right s p)
  let s ← linkWrite .parent s (← linkRead .left s p) r
  let s ← linkWrite .parent s (← linkRead .right s p) r
  let up ← linkRead .parent s p
  let child ← linkRead .right s up
  let s ← linkWrite (if child = p then .right else .left) s up r
  linkWrite .parent s p s.par.nil

/-- The comparison of R165 at node `P`: `J` becomes the common-prefix length of `key(r)` and `key(P)`, and the match
state takes it when it is strictly larger (R167, D35). -/
def mfMeasure (r : Nat) (s : State) : Except Fault State := do
  let s ← mfCompare s.par.f.toNat r (setJ s 1)
  if s.found.mlen.toNat < s.walk.j.toNat then
    .ok (s.withFound { mlen := s.walk.j, mpos := s.walk.p.setWidth 12 })
  else .ok s

/-- The loop of R165: go right while `CMP >= 0`, else left; link `r` at the first empty place, or replace a node with
an equal key. The comparison ends in a replacement exactly when it reached `F` and became the match. -/
def mfWalk : Nat → Nat → State → Except Fault State
  | 0, _, _ => .error .treeCycle
  | fuel + 1, r, s => do
    let side := if 0 ≤ s.walk.cmp then Link.right else Link.left
    let next ← linkRead side s s.walk.p.toNat
    if next = s.par.nil then
      let s ← linkWrite side s s.walk.p.toNat r
      linkWrite .parent s r s.walk.p.toNat
    else
      let before := s.found.mlen.toNat
      let s ← mfMeasure r (setP s next)
      if before < s.walk.j.toNat ∧ s.par.f.toNat ≤ s.found.mlen.toNat then mfReplace r s
      else mfWalk fuel r s

/-- The preconditions of MF_INSERT(r) (R164, R173): `r` is a window position, in no tree, and the tail is a copy. -/
def mfInsertCheck (r : Nat) (s : State) : Except Fault Unit :=
  if s.par.n.toNat ≤ r then .error .insertPresent
  else do
    let up ← linkRead .parent s r
    if up ≠ s.par.nil then .error .insertPresent
    else if tailMirrored s then .ok ()
    else .error .tailBroken

/-- MF_INSERT(r) (R164 to R167). -/
def mfInsert (r : Nat) (s : State) : Except Fault State := do
  mfInsertCheck r s
  let c ← winGetLin s r
  let s := setP (setCmp s 1) (s.par.root c)
  let s ← linkWrite .right s r s.par.nil
  let s ← linkWrite .left s r s.par.nil
  let s := s.withFound { s.found with mlen := 0 }
  mfWalk s.par.treeSize r s

/-- `repeat Q <- RIGHT[Q] until RIGHT[Q] == NIL` (R169). -/
def mfRightmost : Nat → State → Except Fault State
  | 0, _ => .error .treeCycle
  | fuel + 1, s => do
    let s := setQ s (← linkRead .right s s.walk.q.toNat)
    let next ← linkRead .right s s.walk.q.toNat
    if next = s.par.nil then .ok s else mfRightmost fuel s

/-- Find the in-order predecessor, unlink it,
keeping its left subtree, and give it `p`'s left child. -/
def mfPredecessor (p : Nat) (s : State) : Except Fault State := do
  let s ← mfRightmost s.par.treeSize s
  let q := s.walk.q.toNat
  let s ← linkWrite .right s (← linkRead .parent s q) (← linkRead .left s q)
  let s ← linkWrite .parent s (← linkRead .left s q) (← linkRead .parent s q)
  let s ← linkWrite .left s q (← linkRead .left s p)
  linkWrite .parent s (← linkRead .left s p) q

/-- The inner `if` of R169: taken when `Q`, `p`'s left child, has a right child. -/
def mfUnlink (p : Nat) (s : State) : Except Fault State := do
  let below ← linkRead .right s s.walk.q.toNat
  if below ≠ s.par.nil then mfPredecessor p s else .ok s

/-- The last case of R169, `p` with two children: `Q` is the in-order predecessor, or the left child itself when it has
no right child; it takes `p`'s right child. -/
def mfTwoChildren (p : Nat) (s : State) : Except Fault State := do
  let s ← mfUnlink p s
  let q := s.walk.q.toNat
  let s ← linkWrite .right s q (← linkRead .right s p)
  linkWrite .parent s (← linkRead .right s p) q

/-- The choice of `Q`, the node that takes `p`'s place (R169). -/
def mfSuccessor (p : Nat) (s : State) : Except Fault State := do
  let right ← linkRead .right s p
  if right = s.par.nil then
    let left ← linkRead .left s p
    .ok (setQ s left)
  else
    let left ← linkRead .left s p
    if left = s.par.nil then .ok (setQ s right) else mfTwoChildren p (setQ s left)

/-- The end of R169: `Q` takes `p`'s place under `p`'s parent, and `p` leaves the tree. -/
def mfSplice (p : Nat) (s : State) : Except Fault State := do
  let q := s.walk.q.toNat
  let s ← linkWrite .parent s q (← linkRead .parent s p)
  let up ← linkRead .parent s p
  let child ← linkRead .right s up
  let s ← linkWrite (if child = p then .right else .left) s up q
  linkWrite .parent s p s.par.nil

/-- MF_REMOVE(p) (R169, R170), for a window position `p`; an absent position changes nothing. It needs the tail
invariant (R173). -/
def mfRemove (p : Nat) (s : State) : Except Fault State :=
  if s.par.n.toNat ≤ p then .error .treeIndex
  else if tailMirrored s then do
    let up ← linkRead .parent s p
    if up = s.par.nil then .ok s
    else
      let s ← mfSuccessor p s
      mfSplice p s
  else .error .tailBroken

end Sys2Proof.Machine
end

