-- ==== Sys2Proof/Machine/Encoder.lean ====
section
/-! DEFINITION. The steps of a compression session (spec/42_encoder.md), one definition for each sequencer label. A step
is at most one port event with the micro-operations that follow it up to the next one (spec/00_scope.md R5, log 4);
where a port does not deliver, the state stays as it is (R64, log 3). -/

namespace Sys2Proof.Machine

/-- `(x) & MASK` in a cursor (R191, R199, R200). -/
def wrapPos (s : State) (x : Nat) : Pos :=
  BitVec.ofNat 12 (s.par.wrap x)

/-- `goto E_ADV`, with its first statement `I <- 0` (R199). -/
def gotoAdv (s : State) : State :=
  (s.withEnc { s.enc with i := 0 }).goto .eAdv

/-- `goto` a label that starts its output loop at `j = 0` (R198, R202). -/
def gotoOutput (q : Seq) (s : State) : State :=
  (s.withOutIdx 0).goto q

/-- E_START (R191). -/
def eStart (s : State) : State :=
  let s := emptyGroup (mfInit s)
  let s := s.withEnc { s.enc with r := s.par.r0, s := wrapPos s (s.par.r0.toNat + s.par.f.toNat), len := 0 }
  s.goto .eLoad

/-- The end of E_LOAD (R192, R193). -/
def eLoadEnd (s : State) : State :=
  if s.enc.len = 0 then gotoOutput .eFinal s else s.goto .ePrime

/-- E_LOAD (R192): one `InRead` of the first lookahead, or its end. -/
def eLoad (s : State) : Except Fault State :=
  if s.enc.len.toNat < s.par.f.toNat then
    match inRead s with
    | .wait => .ok s
    | .eof s => .ok (eLoadEnd s)
    | .byte c s => do
      let s ← winSetMirror s (s.par.wrap (s.par.r0.toNat + s.enc.len.toNat)) c
      .ok (s.withEnc { s.enc with len := s.enc.len + 1 })
  else .ok (eLoadEnd s)

/-- MF_INSERT of each position in turn. -/
def insertEach : List Nat → State → Except Fault State
  | [], s => .ok s
  | r :: rs, s => do
    let s ← mfInsert r s
    insertEach rs s

/-- The positions E_PRIME inserts (R194): `(R0 + N - i) & MASK` for `i = 1..F`, ascending. -/
def primePositions (p : Session) : List Nat :=
  (List.range' 1 p.f.toNat).map (fun i => p.wrap (p.r0.toNat + p.n.toNat - i))

/-- E_PRIME (R194). -/
def ePrime (s : State) : Except Fault State := do
  let s ← insertEach (primePositions s.par) s
  let s ← mfInsert s.enc.r.toNat s
  .ok (s.goto .eToken)

/-- The clamp of R195: `MLEN` is at most `LEN`. -/
def clampMatch (s : State) : State :=
  if s.enc.len.toNat < s.found.mlen.toNat then s.withFound { s.found with mlen := s.enc.len } else s

/-- E_TOKEN, literal (R196). -/
def packLiteral (s : State) : Except Fault State := do
  let s := s.withFound { s.found with mlen := 1 }
  let control ← groupRead s 0
  let s ← groupWrite s 0 (setLiteralFlag control s.enc.cmask)
  let b ← winGetLin s s.enc.r.toNat
  let s ← groupWrite s s.enc.cbptr.toNat b
  .ok (s.withEnc { s.enc with cbptr := s.enc.cbptr + 1 })

/-- E_TOKEN, reference (R197). -/
def packReference (s : State) : Except Fault State := do
  let s ← groupWrite s s.enc.cbptr.toNat (packByte1 s.found.mpos)
  let s ← groupWrite s (s.enc.cbptr.toNat + 1) (packByte2 s.found.mpos s.found.mlen s.par.t)
  .ok (s.withEnc { s.enc with cbptr := s.enc.cbptr + 2 })

/-- E_TOKEN, part 2 (R198): the next flag bit, and E_FLUSH when the group is full. -/
def tokenPacked (s : State) : State :=
  let s := s.withEnc { s.enc with cmask := shiftMask s.enc.cmask, lastlen := s.found.mlen }
  if s.enc.cmask = 0 then gotoOutput .eFlush s else gotoAdv s

/-- The choice of R195: a match of `T` bytes or less is sent as a literal. -/
def packToken (s : State) : Except Fault State :=
  if s.found.mlen.toNat ≤ s.par.t.toNat then packLiteral s else packReference s

/-- E_TOKEN (R195 to R198). -/
def eToken (s : State) : Except Fault State := do
  let s ← packToken (clampMatch s)
  .ok (tokenPacked s)

/-- One `OutWrite(CB[j])` of the loops of R198 and R202. -/
def outputGroupByte (s : State) : Except Fault State := do
  let b ← groupRead s s.outIdx.toNat
  match outWrite b s with
  | none => .ok s
  | some s => .ok (s.withOutIdx (s.outIdx + 1))

/-- E_FLUSH (R198): the group's bytes one by one, then an empty group and `goto E_ADV`. -/
def eFlush (s : State) : Except Fault State :=
  if s.outIdx.toNat < s.enc.cbptr.toNat then outputGroupByte s else .ok (gotoAdv (emptyGroup s))

/-- `S <- (S + 1) & MASK; R <- (R + 1) & MASK` (R199, R200). -/
def advanceCursors (s : State) : State :=
  s.withEnc { s.enc with s := wrapPos s (s.enc.s.toNat + 1), r := wrapPos s (s.enc.r.toNat + 1) }

/-- E_ADV (R199): one pass of its loop, in the order R318 requires, or its end. -/
def eAdv (s : State) : Except Fault State :=
  if s.enc.i.toNat < s.enc.lastlen.toNat then
    match inRead s with
    | .wait => .ok s
    | .eof s => .ok (s.goto .eDrain)
    | .byte c s => do
      let s ← mfRemove s.enc.s.toNat s
      let s ← winSetMirror s s.enc.s.toNat c
      let s := advanceCursors s
      let s ← mfInsert s.enc.r.toNat s
      .ok (s.withEnc { s.enc with i := s.enc.i + 1 })
  else .ok (s.goto .eDrain)

/-- E_DRAIN (R200): one pass of its loop, or its end. -/
def eDrain (s : State) : Except Fault State :=
  if s.enc.i.toNat < s.enc.lastlen.toNat then do
    let s := s.withEnc { s.enc with i := s.enc.i + 1 }
    let s ← mfRemove s.enc.s.toNat s
    let s := advanceCursors s
    let s := s.withEnc { s.enc with len := s.enc.len - 1 }
    if s.enc.len ≠ 0 then mfInsert s.enc.r.toNat s else .ok s
  else .ok (s.goto .eLoop)

/-- E_LOOP (R201). -/
def eLoop (s : State) : State :=
  if s.enc.len = 0 then gotoOutput .eFinal s else s.goto .eToken

/-- E_FINAL (R202): the last partial group, then `finish(ENC_COMPLETE)`. -/
def eFinal (s : State) : Except Fault State :=
  if 1 < s.enc.cbptr.toNat ∧ s.outIdx.toNat < s.enc.cbptr.toNat then outputGroupByte s
  else .ok (finish .encComplete s)

end Sys2Proof.Machine
end

