-- ==== Sys2Proof/Machine/Sequencer.lean ====
section
/-! DEFINITION. What the engine does at each sequencer label when no whole wire segment is at hand (spec/10_state.md R63,
R64), the host's turns that are not commands (spec/44_host_commands.md R271), and where an instruction is put so that
the next step runs it. -/

namespace Sys2Proof.Machine

/-- The micro-operation of the current label (R63). At IDLE the engine takes no step (R323, log 3); at D_CTRL, D_LIT and
D_REF it takes the next byte of the segment. -/
def microStep (s : State) : Except Fault State :=
  match s.seq with
  | .idle => .ok s
  | .eStart => .ok (eStart s)
  | .eLoad => eLoad s
  | .ePrime => ePrime s
  | .eToken => eToken s
  | .eFlush => eFlush s
  | .eAdv => eAdv s
  | .eDrain => eDrain s
  | .eLoop => .ok (eLoop s)
  | .eFinal => eFinal s
  | .dStart => .ok (dStart s)
  | .dNext => .ok (dNext s)
  | .dCtrl => .ok (fetchByte .wCtrl s)
  | .dLit => .ok (fetchByte .wLit s)
  | .dRef => .ok (fetchByte .wRef s)
  | .dCopy => dCopy s

/-- A host turn other than a write to CMD and the turn it leaves to the engine (R271); the state is the one after the
turn has left the script. -/
def hostTurn (t : Turn) (s : State) : State :=
  match t with
  | .read n => hostRead n s
  | .write n v => hostWrite n v s
  | .offer x => hostOffer x s
  | .accept => hostAccept s
  | .reset => hardwareReset s
  | .engine => s

/-- A decompression session that runs: the one that runs, or else one just started under the configuration registers
(R43, R231), past D_START. -/
def inDecoderSession (s : State) : State :=
  if s.status.busy = true ∧ s.status.smode = .decompress then s
  else dStart (startSession .decompress { s with status := s.status.cleared })

/-- Put a wire segment where the next step executes it (log 14): in the latch of a decompression session, at the label
that reads its format, the engine moving next and the host accepting a byte. -/
def placeSegment (f : Format) (bytes : List Byte) (s : State) : State :=
  let s := inDecoderSession s
  let label := match f with
    | .wCtrl => Seq.dCtrl
    | .wLit => Seq.dLit
    | .wRef => Seq.dRef
  ((s.withSeg bytes).goto label).withHost
    { s.host with script := .engine :: s.host.script, credit := max 1 s.host.credit }

/-- Put a command word where the next step executes it (log 14): as the host's next turn, a write to CMD. -/
def placeCommand (v : Word) (s : State) : State :=
  nextTurn (.write 0 v :: s.host.script) s

/-- Put what the decoder is given where the next step reads it. -/
def placeFetch (x : Fetch) (s : State) : State :=
  match x with
  | .segment f bytes => placeSegment f bytes s
  | .command v => placeCommand v s

end Sys2Proof.Machine
end

