-- ==== Sys2Proof/Machine/Step.lean ====
section
/-! DEFINITION. One step of the machine (spec/00_scope.md R5): the host's next turn, or, when that turn leaves the step to
the engine or the host has none, the engine's next micro-operation (log 1, log 2). -/

namespace Sys2Proof.Machine

/-- The engine's step: the instruction whose segment is whole, or else the label's micro-operation (R63). -/
def engineStep (s : State) : Host.Outcome State Fault Refusal :=
  match fetched s with
  | some x =>
    match decode x with
    | .ok i => exec i s
    | .error _ => .fault .segmentMalformed
  | none => outcomeOf (microStep s)

/-- A write to CMD (R261): the command it decodes to, or else the rejection (R265). -/
def commandTurn (v : Word) (s : State) : Host.Outcome State Fault Refusal :=
  match decode (.command v) with
  | .ok i => exec i s
  | .error _ => .next (illegalCommand v s)

/-- One step. -/
def step (s : State) : Host.Outcome State Fault Refusal :=
  match s.host.script with
  | [] => engineStep s
  | .engine :: ts => engineStep (nextTurn ts s)
  | .write n v :: ts => if n = 0 then commandTurn v (nextTurn ts s) else .next (hostTurn (.write n v) (nextTurn ts s))
  | .read n :: ts => .next (hostTurn (.read n) (nextTurn ts s))
  | .offer x :: ts => .next (hostTurn (.offer x) (nextTurn ts s))
  | .accept :: ts => .next (hostTurn .accept (nextTurn ts s))
  | .reset :: ts => .next (hostTurn .reset (nextTurn ts s))

/-- The state with the instruction of a table row's bits placed where the next step fetches and runs it (log 14). -/
def State.withFetchWord (s : State) (nbits w : Nat) : State :=
  placeFetch (tableFetch nbits w) s

end Sys2Proof.Machine
end

