-- ==== Sys2Proof/Safety.lean ====
section
/-! DEFINITION. What counts as a safe state, in the terms the statements use: the invariants that every step keeps, the
waits of spec/10_state.md R64, and the plain functions a run is compared with (the copy of spec/43_decoder.md R236 and
the decompression listing of R242). The predicates here are decidable, so that a test can meet them, but for `InTree`, which
is inductive. -/

namespace Sys2Proof.Machine

/-! Labels. -/

/-- The mode of the session a label belongs to (R63); none for IDLE. -/
def Seq.mode : Seq → Option Mode
  | .idle => none
  | .eStart | .eLoad | .ePrime | .eToken | .eFlush | .eAdv | .eDrain | .eLoop | .eFinal => some .compress
  | .dStart | .dNext | .dCtrl | .dLit | .dRef | .dCopy => some .decompress

/-- A label of a compression session past E_START. -/
def Seq.encoderRuns : Seq → Bool
  | .eLoad | .ePrime | .eToken | .eFlush | .eAdv | .eDrain | .eLoop | .eFinal => true
  | .idle | .eStart | .dStart | .dNext | .dCtrl | .dLit | .dRef | .dCopy => false

/-- A label of a decompression session past D_START. -/
def Seq.decoderRuns : Seq → Bool
  | .dNext | .dCtrl | .dLit | .dRef | .dCopy => true
  | .idle | .eStart | .eLoad | .ePrime | .eToken | .eFlush | .eAdv | .eDrain | .eLoop | .eFinal | .dStart => false

/-! Invariants. -/

/-- The four RAMs are in canonical form. -/
abbrev State.MemoryInv (s : State) : Prop :=
  Memory.wf s.win ∧ Memory.wf s.left ∧ Memory.wf s.right ∧ Memory.wf s.parent

/-- The latched session parameters are legal (R283): a session starts only under a legal configuration, and so are the
reset values. -/
abbrev State.SessionInv (s : State) : Prop :=
  s.par.valid = true

/-- STATUS and SEQ agree (R32, R63): BUSY is 1 exactly while a session runs; BUSY and DONE are never both 1; while a
session runs there is no error and no end; DONE goes with an end reason and excludes an error; TRUNC is that of the end
reason (R238); the running session's label is of the mode SMODE. -/
abbrev State.StatusInv (s : State) : Prop :=
  (s.status.busy = true ↔ s.seq ≠ .idle) ∧
  (s.status.busy = true → s.status.done = false ∧ s.status.err = .none ∧ s.status.endReason = .none) ∧
  (s.status.done = true ↔ s.status.endReason ≠ .none) ∧
  (s.status.done = true → s.status.err = .none) ∧
  s.status.trunc = s.status.endReason.truncates ∧
  (s.seq.mode = none ∨ s.seq.mode = some s.status.smode)

/-- The segment latch holds at most the segment of its label, and nothing at the other labels (R118). -/
abbrev State.SegmentInv (s : State) : Prop :=
  s.seg.length ≤ ((segmentFormat s.seq).map Format.length).getD 0

/-- While a session runs every window cell has been written in it (R66, R140). -/
abbrev State.WindowInv (s : State) : Prop :=
  s.seq = .idle ∨ ∀ i < s.par.winSize, (Memory.read s.win i).isSome = true

/-- The cursors stay in the window, and `S = (R + F) & MASK` (R49). -/
abbrev State.CursorInv (s : State) : Prop :=
  (s.seq.encoderRuns = true →
    s.enc.r.toNat < s.par.n.toNat ∧ s.enc.s.toNat = s.par.wrap (s.enc.r.toNat + s.par.f.toNat)) ∧
  (s.seq.decoderRuns = true → s.dec.wr.toNat < s.par.n.toNat)

/-- In a compression session the tail is a copy of the window's start (R45, R146). -/
abbrev State.TailInv (s : State) : Prop :=
  s.seq.mode = some .compress → tailMirrored s = true

/-- The child links of a compression session are positions or NIL (R47). -/
abbrev State.ChildInv (s : State) : Prop :=
  s.seq.encoderRuns = true →
    (∀ c ∈ s.left, c.2.toNat ≤ s.par.nil) ∧ (∀ c ∈ s.right, c.2.toNat ≤ s.par.nil)

/-- Position `p` is a node of the tree for byte `c` (R160): the top node `RIGHT[ROOT(c)]`, or a child of a node. -/
inductive InTree (s : State) (c : Byte) : Nat → Prop where
  | top {q : Nat} : linkRead .right s (s.par.root c) = .ok q → q ≠ s.par.nil → InTree s c q
  | left {p q : Nat} : InTree s c p → linkRead .left s p = .ok q → q ≠ s.par.nil → InTree s c q
  | right {p q : Nat} : InTree s c p → linkRead .right s p = .ok q → q ≠ s.par.nil → InTree s c q

/-- With `k` tokens in the group (R51, R52): CMASK is the bit of token `k`, and CBPTR is past 1 to 2 bytes for each. -/
abbrev groupHolds (s : State) (k : Nat) : Prop :=
  s.enc.cmask = 1#8 <<< k ∧ 1 + k ≤ s.enc.cbptr.toNat ∧ s.enc.cbptr.toNat ≤ 1 + 2 * k

/-- The group buffer of a compression session (R51, R52, R198): at a flush 8 tokens, at every other label fewer; the
output loops stay within the group. -/
abbrev State.GroupInv (s : State) : Prop :=
  s.seq.encoderRuns = true →
    (s.seq = .eFlush → groupHolds s 8 ∧ s.outIdx.toNat ≤ s.enc.cbptr.toNat) ∧
    (s.seq ≠ .eFlush → ∃ k ∈ List.range 8, groupHolds s k) ∧
    (s.seq = .eFinal → s.outIdx.toNat ≤ s.enc.cbptr.toNat)

/-! Waiting (R64, R90, R91). -/

/-- The engine waits at an `InRead()`: the label is about to read, IN_EOF is 0 and no item is offered. -/
abbrev State.WaitsForInput (s : State) : Prop :=
  s.inEof = false ∧ s.host.input = [] ∧
  ((s.seq = .eLoad ∧ s.enc.len.toNat < s.par.f.toNat) ∨ (s.seq = .eAdv ∧ s.enc.i.toNat < s.enc.lastlen.toNat) ∨
   (s.seq = .dCtrl ∧ s.seg = []) ∨ (s.seq = .dLit ∧ s.seg = []) ∨ (s.seq = .dRef ∧ s.seg.length < 2))

/-- The engine waits at an `OutWrite(b)`: the label is about to write and the host accepts no byte. -/
abbrev State.WaitsForOutput (s : State) : Prop :=
  s.host.credit = 0 ∧
  ((s.seq = .eFlush ∧ s.outIdx.toNat < s.enc.cbptr.toNat) ∨
   (s.seq = .eFinal ∧ 1 < s.enc.cbptr.toNat ∧ s.outIdx.toNat < s.enc.cbptr.toNat) ∨
   (s.seq = .dLit ∧ s.seg ≠ []) ∨ (s.seq = .dCopy ∧ s.dec.k.toNat ≤ s.dec.l.toNat))

/-! Settings. -/

/-- `VALID(N, R0, F, T)` as R283 writes it. -/
abbrev LegalSettings (n r0 f t : Nat) : Prop :=
  (4 ≤ n ∧ n ≤ 4096) ∧ n &&& (n - 1) = 0 ∧ r0 < n ∧ (1 ≤ t ∧ t < f) ∧ f ≤ t + 16 ∧ 2 * f ≤ n

/-- `VALID` of the configuration registers (R261). -/
abbrev Cfg.Legal (c : Cfg) : Prop :=
  LegalSettings c.frameSize.toNat c.initPos.toNat c.maxLen.toNat c.minLen.toNat

/-- STATUS after a command is rejected with `code` (R289): everything cleared but ERR and SMODE, and BUSY 0. -/
def Status.rejected (st : Status) (code : ErrCode) : Status :=
  { busy := false, done := false, err := code, ign := false, smode := st.smode, endReason := .none, trunc := false }

/-- STATUS after a start is accepted (R261, R263, R264): BUSY and SMODE, everything else 0. -/
def Status.started (mode : Mode) : Status :=
  { busy := true, done := false, err := .none, ign := false, smode := mode, endReason := .none, trunc := false }

/-- The field mask of a writable register (R42). -/
def fieldMask (n : Nat) : Word :=
  match n with
  | 2 => 0x1FFF#32
  | 3 => 0xFF#32
  | 4 => 0xFFF#32
  | 5 => 0xFFF#32
  | 6 => 0xFFF#32
  | 7 => 0x1#32
  | _ => 0#32

/-! The functions a run is compared with. A window is a function here, and only here: no state holds one. -/

/-- A window with one cell changed. -/
def setCell (win : Nat → Byte) (a : Nat) (c : Byte) : Nat → Byte :=
  fun i => if i = a then c else win i

/-- The copy of R236: `n` bytes from position `src` on, each read after the previous one was written at the cursor. It
answers the bytes, the cursor and the window. -/
def copyBytes (mask : Nat) : Nat → Nat → Nat → (Nat → Byte) → List Byte × Nat × (Nat → Byte)
  | 0, _, wr, win => ([], wr, win)
  | n + 1, src, wr, win =>
    let c := win (src &&& mask)
    let rest := copyBytes mask n (src + 1) ((wr + 1) &&& mask) (setCell win wr c)
    (c :: rest.1, rest.2)

/-- The listing of R242 from its `loop:` on, over the bytes still to come, for at most `fuel` tokens: the output and the
reason of the end. -/
def listing (p : Session) : Nat → BitVec 16 → Nat → (Nat → Byte) → List Byte → List Byte × EndReason
  | 0, _, _, _, _ => ([], .none)
  | fuel + 1, flags, wr, win, bytes =>
    let flags := flags >>> 1
    let head : Option (BitVec 16 × List Byte) :=
      if flags.getLsbD 8 = false then
        match bytes with
        | [] => none
        | c :: bytes => some (0xFF00#16 ||| c.setWidth 16, bytes)
      else some (flags, bytes)
    match head with
    | none => ([], .eofAtCtrl)
    | some (flags, bytes) =>
      if flags.getLsbD 0 = true then
        match bytes with
        | [] => ([], .eofAtLit)
        | c :: bytes =>
          let rest := listing p fuel flags ((wr + 1) &&& p.mask) (setCell win wr c) bytes
          (c :: rest.1, rest.2)
      else
        match bytes with
        | [] => ([], .eofAtB1)
        | [_] => ([], .eofAtB2)
        | b1 :: b2 :: bytes =>
          let count := (b2.toNat &&& 0x0F) + p.t.toNat + 1
          let copy := copyBytes p.mask count (b1.toNat ||| ((b2.toNat &&& 0xF0) <<< 4)) wr win
          let rest := listing p fuel flags copy.2.1 copy.2.2 bytes
          (copy.1 ++ rest.1, rest.2)

/-- An outcome whose next state has been changed by `f`; a fault and a refusal stay. -/
def mapNext (f : State → State) (o : Host.Outcome State Fault Refusal) : Host.Outcome State Fault Refusal :=
  match o with
  | .next t => .next (f t)
  | .fault e => .fault e
  | .refused r => .refused r

end Sys2Proof.Machine
end

