-- ==== Sys2Proof/Certificates/Slice0/Obligations.lean ====
section
/-! DEFINITION. What is stated about the model for the provers. Each statement's docstring names the rules it rests on;
OBLIGATIONS.json says the same with its basis. A statement that rests on a choice of the model says so. -/

open Sys2Proof Sys2Proof.Machine

/-! Encoding. -/

/-- Decoding what the encoder writes gives the instruction back, for every instruction and every operand (R111 to R114,
R122). -/
def Obligations.DecodeOfEncodeIsTheInstruction : Prop :=
  ∀ i : Instr, decode (encode i) = .ok i

/-- Every segment and every command word has one meaning: what decodes to an instruction is that instruction's own
encoding, so no bit of a segment or a word is dropped (R118, R120, R122, R265). -/
def Obligations.DecodedBitsAreTheEncoding : Prop :=
  ∀ (x : Fetch) (i : Instr), decode x = .ok i → encode i = x

/-- A stream of groups on the wire decodes to the groups' tokens in order, when every group is well-formed and every
group but the last has 8 tokens; a partial last group ends with its tokens (R110, R111; its form and its end are R118 and
R119, which the spec marks as derived). -/
def Obligations.StreamOfGroupsDecodesToItsTokens : Prop :=
  ∀ (gs : List Group) (fuel : Nat),
    (∀ g ∈ gs, g.wellFormed = true) → (∀ g ∈ gs.dropLast, g.tokens.length = 8) → gs.length ≤ fuel →
    streamTokens fuel (gs.flatMap groupBytes) = gs.flatMap Group.tokens

/-- Some words written out from the encodings of 30_encoding.md and the examples of 43_decoder.md: the control byte 0x0B,
the literal 0x41, the references EE F7 and DC F1, and the three command words (R111 to R113, R122). -/
def Obligations.SampleWordsDecode : Prop :=
  decode (.segment .wCtrl [0x0B]) = .ok (.ctrl 0x0B) ∧
  decode (.segment .wLit [0x41]) = .ok (.lit 0x41) ∧
  decode (.segment .wRef [0xEE, 0xF7]) = .ok (.ref 0xFEE 7) ∧
  decode (.segment .wRef [0xDC, 0xF1]) = .ok (.ref 0xFDC 1) ∧
  decode (.command 0x00000000) = .ok .nop ∧
  decode (.command 0x00000001) = .ok .compress ∧
  decode (.command 0x00000002) = .ok .decompress ∧
  decode (.command 0x00000005) = .error (.illegalCommand 0x00000005)

/-- What the encoder packs for a match the decoder reads back: the pair decodes to the match's position, and the
decoder's copy takes exactly the match's length, for every match of T+1 to T+16 bytes (R114, R115, R117). -/
def Obligations.PackedMatchIsReadBack : Prop :=
  ∀ mpos mlen t : Pos, t.toNat < mlen.toNat → mlen.toNat ≤ t.toNat + 16 →
    ∃ ln : BitVec 4,
      decode (.segment .wRef [packByte1 mpos, packByte2 mpos mlen t]) = .ok (.ref mpos ln) ∧
      (copyLast ln t).toNat + 1 = mlen.toNat

/-! The step and the dispatcher. -/

/-- A step runs the decoded instruction: when the bytes of a whole segment at the sequencer's label decode to `i`, the
engine's step is `exec i`, with no turn of the host before it or with the turn that leaves the step to the engine; when
the host's turn is a write to CMD of a word that decodes to `i`, the step is `exec i` after that turn (R63, R126, R261).
The script and the latch are the model's (logs 1, 5). -/
def Obligations.StepRunsTheDecodedInstruction : Prop :=
  (∀ (s : State) (x : Fetch) (i : Instr),
    s.host.script = [] → fetched s = some x → decode x = .ok i → step s = exec i s) ∧
  (∀ (s : State) (ts : List Turn) (x : Fetch) (i : Instr),
    s.host.script = .engine :: ts → fetched (nextTurn ts s) = some x → decode x = .ok i →
    step s = exec i (nextTurn ts s)) ∧
  (∀ (s : State) (v : Word) (ts : List Turn) (i : Instr),
    s.host.script = .write 0 v :: ts → decode (.command v) = .ok i → step s = exec i (nextTurn ts s))

/-- The engine takes no step, that is its step changes nothing, exactly when it is idle, waits at an `InRead()` with no
item offered, or waits at an `OutWrite(b)` with no byte accepted; every other step that answers changes the state (R64,
R323; the spec marks R64's "exactly one next step" as derived). Waiting as an unchanged state is the model's form (log
3). -/
def Obligations.EngineStandsStillExactlyWhenItWaits : Prop :=
  ∀ s t : State, engineStep s = .next t →
    (t = s ↔ s.seq = .idle ∨ s.WaitsForInput ∨ s.WaitsForOutput)

/-- One engine step takes at most one input item or gives at most one output byte, never both; IN_COUNT counts the
bytes taken and OUT_COUNT the bytes given, and the output grows only at its end (R5, R39, R40, R90, R91, R95). -/
def Obligations.EngineStepMakesAtMostOnePortEvent : Prop :=
  ∀ s t : State, engineStep s = .next t →
    ∃ (taken : List Item) (given : List Byte),
      s.host.input = taken ++ t.host.input ∧ t.host.output = s.host.output ++ given ∧
      taken.length + given.length ≤ 1 ∧
      s.host.credit = t.host.credit + given.length ∧
      t.inCount = s.inCount + BitVec.ofNat 32 (taken.filter (fun x => x ≠ .eof)).length ∧
      t.outCount = s.outCount + BitVec.ofNat 32 given.length

/-! Commands. -/

/-- NOP changes nothing, whether the engine is busy or idle, as an instruction and as the word 0 written to CMD (R262). -/
def Obligations.NopChangesNothing : Prop :=
  (∀ s : State, exec .nop s = .next s) ∧
  (∀ (s : State) (ts : List Turn), s.host.script = .write 0 0 :: ts → step s = .next (nextTurn ts s))

/-- COMPRESS completes on an idle engine with a legal configuration and CFG_MODE = compress: the configuration is latched,
the counters and IN_EOF are cleared, every cell of the window and its tail holds FILL, BUSY is 1, SMODE is compress, the
other fields of STATUS are 0, and the sequencer is at E_START (R261, R263, R43, R140). That no other cell of the window
holds a value is the model's reading (log 8). -/
def Obligations.CompressStartsASession : Prop :=
  ∀ s : State, s.status.busy = false → s.cfg.Legal → s.cfg.mode = .compress →
    ∃ t, exec .compress s = .next t ∧
      t.status = Status.started .compress ∧ t.par = s.cfg.latch ∧ t.inCount = 0 ∧ t.outCount = 0 ∧ t.inEof = false ∧
      (∀ a, Memory.read t.win a =
        if a < s.cfg.frameSize.toNat + s.cfg.maxLen.toNat - 1 then some s.cfg.fill else none) ∧
      t.seq = .eStart ∧ t.cfg = s.cfg ∧ t.host = s.host

/-- DECOMPRESS completes on an idle engine with a legal configuration and CFG_MODE = decompress, as COMPRESS does, with
SMODE decompress and the sequencer at D_START (R261, R264, R43, R140). That no other cell of the window holds a value is
the model's reading (log 8). -/
def Obligations.DecompressStartsASession : Prop :=
  ∀ s : State, s.status.busy = false → s.cfg.Legal → s.cfg.mode = .decompress →
    ∃ t, exec .decompress s = .next t ∧
      t.status = Status.started .decompress ∧ t.par = s.cfg.latch ∧ t.inCount = 0 ∧ t.outCount = 0 ∧ t.inEof = false ∧
      (∀ a, Memory.read t.win a =
        if a < s.cfg.frameSize.toNat + s.cfg.maxLen.toNat - 1 then some s.cfg.fill else none) ∧
      t.seq = .dStart ∧ t.cfg = s.cfg ∧ t.host = s.host

/-- The whole command path of a write to CMD, including rejection, check by check in the order of the rule; the
acceptance, with the window's fill, is one step (R261). The model's own are two clauses of the accepted case: the segment
latch is empty (log 5), and no cell outside the window and its tail holds a value (log 8). -/
def Obligations.WriteToCmdFollowsTheCommandPath : Prop :=
  ∀ (s : State) (v : Word) (ts : List Turn), s.host.script = .write 0 v :: ts →
    let u := nextTurn ts s
    let mode : Mode := if v = 1 then .compress else .decompress
    (u.status.busy = true → v ≠ 0 → step s = .next { u with status := { u.status with ign := true } }) ∧
    (v = 0 → step s = .next u) ∧
    (u.status.busy = false → v ≠ 0 →
      (v ≠ 1 ∧ v ≠ 2 → step s = .next { u with status := u.status.rejected .illegalCmd }) ∧
      (v = 1 ∨ v = 2 →
        (¬ u.cfg.Legal → step s = .next { u with status := u.status.rejected .configInvalid }) ∧
        (u.cfg.Legal → u.cfg.mode ≠ mode → step s = .next { u with status := u.status.rejected .modeMismatch }) ∧
        (u.cfg.Legal → u.cfg.mode = mode →
          ∃ win, (∀ a, Memory.read win a =
              if a < u.cfg.frameSize.toNat + u.cfg.maxLen.toNat - 1 then some u.cfg.fill else none) ∧
            step s = .next { u with
              status := Status.started mode,
              par := { n := u.cfg.frameSize, fill := u.cfg.fill, r0 := u.cfg.initPos, f := u.cfg.maxLen, t := u.cfg.minLen },
              inCount := 0, outCount := 0, inEof := false, win := win,
              seq := if v = 1 then .eStart else .dStart, seg := [] })))

/-- A rejected command changes only STATUS: the write answers with an error, so BUSY stays 0, SMODE is kept, every other
field is cleared, and no parameter, counter, RAM cell, register, label or port item changes (R289). -/
def Obligations.RejectedCommandChangesOnlyStatus : Prop :=
  ∀ (s t : State) (v : Word) (ts : List Turn),
    s.host.script = .write 0 v :: ts → s.status.busy = false → v ≠ 0 → step s = .next t → t.status.err ≠ .none →
    t = { nextTurn ts s with status := s.status.rejected t.status.err }

/-- A nonzero write to CMD while BUSY = 1 is ignored but for IGN; IGN then stays 1 until a nonzero write to CMD while idle
or a reset; and no turn of the host but a reset ends a running session (R266). -/
def Obligations.CommandWhileBusyOnlySetsIgn : Prop :=
  (∀ (s : State) (v : Word) (ts : List Turn), s.host.script = .write 0 v :: ts → s.status.busy = true → v ≠ 0 →
    step s = .next { nextTurn ts s with status := { s.status with ign := true } }) ∧
  (∀ s t : State, step s = .next t → s.status.ign = true →
    t.status.ign = true ∨ (∃ ts, s.host.script = .reset :: ts) ∨
    (∃ v ts, s.host.script = .write 0 v :: ts ∧ v ≠ 0 ∧ s.status.busy = false)) ∧
  (∀ (s t : State) (turn : Turn) (ts : List Turn), s.host.script = turn :: ts → turn ≠ .engine → turn ≠ .reset →
    s.status.busy = true → step s = .next t → t.status.busy = true ∧ t.seq = s.seq)

/-- The checks of a command run in the order BUSY, ILLEGAL_CMD, CONFIG_INVALID, MODE_MISMATCH and the first that fails is
the one error reported (R288). -/
def Obligations.FirstFailingCheckIsReported : Prop :=
  ∀ (s : State) (v : Word) (ts : List Turn), s.host.script = .write 0 v :: ts → v ≠ 0 →
    ∃ t, step s = .next t ∧
      (s.status.busy = true → t.status = { s.status with ign := true }) ∧
      (s.status.busy = false → t.status.err =
        if v ≠ 1 ∧ v ≠ 2 then .illegalCmd
        else if ¬ s.cfg.Legal then .configInvalid
        else if s.cfg.mode ≠ (if v = 1 then .compress else .decompress) then .modeMismatch
        else .none)

/-- The check of the configuration is the predicate of the spec with its first two clauses read as "a power of two in
4..4096": the window sizes it lets through are exactly 2^2 to 2^12 (R283). -/
def Obligations.ValidConfigurationsAreTheLegalOnes : Prop :=
  ∀ n r0 f t : Nat, validConfig n r0 f t = true ↔
    (∃ k, 2 ≤ k ∧ k ≤ 12 ∧ n = 2 ^ k) ∧ r0 < n ∧ 1 ≤ t ∧ t < f ∧ f ≤ t + 16 ∧ 2 * f ≤ n

/-- ERR keeps its code until the next nonzero write to CMD while idle or a reset, over every other step, a read of STATUS
among them; such a write clears the old code before its own checks, so that no old code is left when it starts a session,
and a reset clears it (R290). -/
def Obligations.ErrorStaysUntilTheNextCommand : Prop :=
  (∀ s t : State, step s = .next t → t.status.err ≠ s.status.err →
    (∃ ts, s.host.script = .reset :: ts) ∨
    (∃ v ts, s.host.script = .write 0 v :: ts ∧ v ≠ 0 ∧ s.status.busy = false)) ∧
  (∀ (s : State) (v : Word) (ts : List Turn), s.host.script = .write 0 v :: ts → v ≠ 0 → s.status.busy = false →
    ∃ t, step s = .next t ∧ (t.status.busy = true → t.status.err = .none) ∧
      ∀ e, step { s with status := { s.status with err := e } } = .next t) ∧
  (∀ (s : State) (ts : List Turn), s.host.script = .reset :: ts → ∃ t, step s = .next t ∧ t.status.err = .none)

/-- The frame of the three commands: the configuration, the trees, the match state, the datapath registers, the output
loop's index and the host's side stay; unless the command starts a session (BUSY goes from 0 to 1) so do the
parameters, the counters, IN_EOF, SEQ, the latch and every byte of the window (R262, R261, R289). -/
def Obligations.CommandsFrame : Prop :=
  ∀ (s t : State) (i : Instr), i = .nop ∨ i = .compress ∨ i = .decompress → exec i s = .next t →
    t.cfg = s.cfg ∧ t.found = s.found ∧ t.enc = s.enc ∧ t.walk = s.walk ∧ t.dec = s.dec ∧
    t.outIdx = s.outIdx ∧ t.host = s.host ∧
    (∀ (k : Link) (a : Nat), Memory.read (t.links k) a = Memory.read (s.links k) a) ∧
    (t.status.busy = s.status.busy →
      t.par = s.par ∧ t.inCount = s.inCount ∧ t.outCount = s.outCount ∧ t.inEof = s.inEof ∧ t.seq = s.seq ∧
      t.seg = s.seg ∧ ∀ a, Memory.read t.win a = Memory.read s.win a)

/-! Host accesses. -/

/-- `HostRead(n)` gives the host the value of the table, register by register (STATUS as the sum of its disjoint fields),
and changes nothing but what the host has received (R267). -/
def Obligations.HostReadReturnsTheRegister : Prop :=
  ∀ (s : State) (n : BitVec 4) (ts : List Turn), s.host.script = .read n :: ts →
    let err := match s.status.err with | .none => 0 | .illegalCmd => 1 | .configInvalid => 2 | .modeMismatch => 3
    let smode := match s.status.smode with | .compress => 0 | .decompress => 1
    let endReason := match s.status.endReason with
      | .none => 0 | .eofAtCtrl => 1 | .eofAtB1 => 2 | .eofAtLit => 3 | .eofAtB2 => 4 | .encComplete => 5
    ∃ v : Word,
      step s = .next { s with host := { s.host with script := ts, reads := s.host.reads ++ [(n, v)] } } ∧
      (n = 0 → v = 0) ∧
      (n = 1 → v.toNat = s.status.busy.toNat + 2 * s.status.done.toNat + 4 * err + 64 * s.status.ign.toNat +
        128 * smode + 256 * endReason + 2048 * s.status.trunc.toNat) ∧
      (n = 2 → v.toNat = s.cfg.frameSize.toNat) ∧ (n = 3 → v.toNat = s.cfg.fill.toNat) ∧
      (n = 4 → v.toNat = s.cfg.initPos.toNat) ∧ (n = 5 → v.toNat = s.cfg.maxLen.toNat) ∧
      (n = 6 → v.toNat = s.cfg.minLen.toNat) ∧
      (n = 7 → v.toNat = match s.cfg.mode with | .compress => 0 | .decompress => 1) ∧
      (n = 8 → v = s.inCount) ∧ (n = 9 → v = s.outCount) ∧ (10 ≤ n.toNat → v = 0)

/-- `HostWrite(n, v)` for `n ≠ 0`: a configuration register 2 to 7 then reads as the value ANDed with its field mask and
every other register but it reads as before, busy or not; a write to registers 1, 8, 9 and 10 to 15 has no effect;
nothing but the configuration changes, so a running session goes on with its latched values (R268, R42). -/
def Obligations.HostWriteStoresTheMaskedField : Prop :=
  ∀ (s : State) (n : BitVec 4) (v : Word) (ts : List Turn), s.host.script = .write n v :: ts → n ≠ 0 →
    ∃ t, step s = .next t ∧
      t = { nextTurn ts s with cfg := t.cfg } ∧
      (2 ≤ n.toNat → n.toNat ≤ 7 → readRegister t n = v &&& fieldMask n.toNat) ∧
      (n.toNat = 1 ∨ 8 ≤ n.toNat → t = nextTurn ts s) ∧
      (∀ m, m ≠ n → readRegister t m = readRegister s m)

/-- The configuration registers do not reach a running session: whatever the engine does in a step it does the same under
any other contents of the configuration registers, which it leaves as they are (R42, R43, R96, R321). -/
def Obligations.ConfigurationDoesNotReachTheSession : Prop :=
  ∀ (s : State) (c : Cfg), engineStep (s.withCfg c) = mapNext (fun t => t.withCfg c) (engineStep s)

/-- The session parameters change only by a reset and by an accepted start, which takes them from the configuration
registers, then legal (R43, R261). -/
def Obligations.ParametersChangeOnlyAtAStart : Prop :=
  ∀ s t : State, step s = .next t → t.par ≠ s.par →
    (∃ ts, s.host.script = .reset :: ts ∧ t.par = State.reset.par) ∨
    (∃ v ts, s.host.script = .write 0 v :: ts ∧ s.status.busy = false ∧ s.cfg.Legal ∧ t.par = s.cfg.latch ∧
      t.status.busy = true)

/-! Ports. -/

/-- `InRead()`: `EOF` at once while IN_EOF is 1, with no item taken; else a wait while no item is offered; else the first
item, which sets IN_EOF if it is the end marker and counts in IN_COUNT if it is a byte; and once IN_EOF is 1 no engine
step takes an item or clears it (R90). -/
def Obligations.InReadTakesOneItem : Prop :=
  (∀ s : State, s.inEof = true → inRead s = .eof s) ∧
  (∀ s : State, s.inEof = false → s.host.input = [] → inRead s = .wait) ∧
  (∀ (s : State) (rest : List Item), s.inEof = false → s.host.input = .eof :: rest →
    inRead s = .eof { s with inEof := true, host := { s.host with input := rest } }) ∧
  (∀ (s : State) (b : Byte) (rest : List Item), s.inEof = false → s.host.input = .byte b :: rest →
    inRead s = .byte b { s with inCount := s.inCount + 1, host := { s.host with input := rest } }) ∧
  (∀ s t : State, s.inEof = true → engineStep s = .next t → t.host.input = s.host.input ∧ t.inEof = true)

/-! The decoder. -/

/-- CTRL completes in every state: FLAGS becomes 0xFF00 with the control byte below it, and the token that bit 0 of the
byte flags comes next, with no further shift (R233). Reading the byte is the step before (log 5). -/
def Obligations.ControlByteLoadsTheFlags : Prop :=
  ∀ (c : Byte) (s : State), exec (.ctrl c) s = .next { s with
    dec := { s.dec with flags := 0xFF00#16 ||| c.setWidth 16 },
    seg := [],
    seq := if c.getLsbD 0 = true then .dLit else .dRef }

/-- LIT completes when the session is legal and the host accepts a byte: the byte is the next output byte and counts in
OUT_COUNT, the window holds it at the write cursor and is unchanged elsewhere, the cursor moves on modulo `N`, and D_NEXT
comes next (R234, R144). While the host accepts no byte LIT waits (R64). That the byte has been read in the step before and
its latch is emptied is the model's form (log 5), and so is waiting as a next state that changes nothing (log 3). -/
def Obligations.LiteralIsWrittenOut : Prop :=
  (∀ (b : Byte) (s : State) (n : Nat), s.SessionInv → s.host.credit = n + 1 →
    ∃ t, exec (.lit b) s = .next t ∧
      t.host = { s.host with credit := n, output := s.host.output ++ [b] } ∧ t.outCount = s.outCount + 1 ∧
      Memory.read t.win (s.par.wrap s.dec.wr.toNat) = some b ∧
      (∀ a, a ≠ s.par.wrap s.dec.wr.toNat → Memory.read t.win a = Memory.read s.win a) ∧
      t.dec = { s.dec with wr := t.dec.wr } ∧ t.dec.wr.toNat = (s.dec.wr.toNat + 1) % s.par.n.toNat ∧
      t.seg = [] ∧ t.seq = .dNext) ∧
  (∀ (b : Byte) (s : State), s.host.credit = 0 → exec (.lit b) s = .next s)

/-- REF completes when the session is legal: DIST is the position of the segment, the copy takes LN + T + 1 bytes, its
counter is 0, B1 and B2 are the segment's bytes, and D_COPY comes next (R235, R114). That the bytes have been read in the
steps before and their latch is emptied is the model's form (log 5). -/
def Obligations.ReferenceIsAssembled : Prop :=
  ∀ (pos : BitVec 12) (ln : BitVec 4) (s : State), s.SessionInv →
    ∃ t, exec (.ref pos ln) s = .next t ∧
      t.dec = { s.dec with b1 := t.dec.b1, b2 := t.dec.b2, dist := pos, l := t.dec.l, k := 0 } ∧
      t.dec.l.toNat + 1 = ln.toNat + s.par.t.toNat + 1 ∧
      t.dec.dist.toNat = t.dec.b1.toNat ||| ((t.dec.b2.toNat &&& 0xF0) <<< 4) ∧
      t.dec.b2.toNat &&& 0x0F = ln.toNat ∧
      t.seg = [] ∧ t.seq = .dCopy

/-- The frame of the three wire tokens, when they answer. Every one leaves STATUS, the configuration, the parameters,
IN_COUNT, the trees, the match state, the encoder's registers, the walk temporaries, IN_EOF, the output loop's index and
the host's script, items and received reads. CTRL changes of the decoder's registers only FLAGS; REF only B1, B2, DIST,
L and K; LIT only WR. CTRL and REF leave OUT_COUNT, the output and every byte of the window; LIT leaves every byte of
the window but the one at the write cursor (R233, R234, R235). -/
def Obligations.TokensFrame : Prop :=
  (∀ (s t : State) (i : Instr), (∃ c, i = .ctrl c) ∨ (∃ b, i = .lit b) ∨ (∃ pos ln, i = .ref pos ln) →
    exec i s = .next t →
    t.status = s.status ∧ t.cfg = s.cfg ∧ t.par = s.par ∧ t.inCount = s.inCount ∧ t.left = s.left ∧ t.right = s.right ∧
    t.parent = s.parent ∧ t.found = s.found ∧ t.enc = s.enc ∧ t.walk = s.walk ∧ t.inEof = s.inEof ∧
    t.outIdx = s.outIdx ∧ t.host.script = s.host.script ∧ t.host.input = s.host.input ∧ t.host.reads = s.host.reads) ∧
  (∀ (s t : State) (c : Byte), exec (.ctrl c) s = .next t →
    t.dec = { s.dec with flags := t.dec.flags } ∧ t.outCount = s.outCount ∧ t.host = s.host ∧
    ∀ a, Memory.read t.win a = Memory.read s.win a) ∧
  (∀ (s t : State) (pos : BitVec 12) (ln : BitVec 4), exec (.ref pos ln) s = .next t →
    t.dec.flags = s.dec.flags ∧ t.dec.wr = s.dec.wr ∧ t.outCount = s.outCount ∧ t.host = s.host ∧
    ∀ a, Memory.read t.win a = Memory.read s.win a) ∧
  (∀ (s t : State) (b : Byte), exec (.lit b) s = .next t →
    t.dec = { s.dec with wr := t.dec.wr } ∧
    ∀ a, a ≠ s.par.wrap s.dec.wr.toNat → Memory.read t.win a = Memory.read s.win a)

/-- D_NEXT shifts FLAGS right by one; the next control byte is read when bit 8 is then 0, else the literal or the
reference that bit 0 then flags; after a reload to 0xFF00 | c, bit 8 is 1 after 0 to 7 shifts and 0 after the 8th, and
bit 0 after `k` shifts, `k ≤ 7`, is the flag of token `k` (R232). -/
def Obligations.NextFlagChoosesTheToken : Prop :=
  (∀ s : State, s.seq = .dNext → s.host.script = [] →
    step s = .next { s with
      dec := { s.dec with flags := s.dec.flags >>> 1 },
      seq := if s.dec.flags.getLsbD 9 = false then .dCtrl else if s.dec.flags.getLsbD 1 = true then .dLit else .dRef }) ∧
  (∀ (c : Byte) (k : Nat), k ≤ 8 →
    ((0xFF00#16 ||| c.setWidth 16) >>> k).getLsbD 8 = decide (k ≤ 7) ∧
    (k ≤ 7 → ((0xFF00#16 ||| c.setWidth 16) >>> k).getLsbD 0 = c.getLsbD k))

/-- A decompression session ends at the first `InRead()` that returns `EOF`, with the reason of the table: at D_CTRL
EOF_AT_CTRL, at D_LIT EOF_AT_LIT, at D_REF EOF_AT_B1 before and EOF_AT_B2 after the first byte; DONE becomes 1 and BUSY
0, TRUNC is 1 for EOF_AT_LIT and EOF_AT_B2 only, and no output is written (R237, R238, R63). The latch of the segment's
bytes, which tells the two ends at D_REF apart and is emptied, is the model's form (log 5). -/
def Obligations.StreamEndIsReported : Prop :=
  ∀ s u : State, s.host.script = [] → inRead s = .eof u →
    ∀ (reason : EndReason) (code : Nat) (trunc : Bool),
      (s.seq = .dCtrl ∧ s.seg = [] ∧ reason = .eofAtCtrl ∧ code = 1 ∧ trunc = false) ∨
      (s.seq = .dRef ∧ s.seg = [] ∧ reason = .eofAtB1 ∧ code = 2 ∧ trunc = false) ∨
      (s.seq = .dLit ∧ s.seg = [] ∧ reason = .eofAtLit ∧ code = 3 ∧ trunc = true) ∨
      (s.seq = .dRef ∧ s.seg.length = 1 ∧ reason = .eofAtB2 ∧ code = 4 ∧ trunc = true) →
    reason.code = code ∧
    step s = .next { u with
      status := { s.status with busy := false, done := true, endReason := reason, trunc := trunc },
      seq := .idle, seg := [] } ∧
    u.host.output = s.host.output ∧ u.outCount = s.outCount ∧ u.win = s.win

/-- One pass of the copy: while K ≤ L and the host accepts a byte, the byte at `(DIST + K) & MASK`, read from the window
as it is now, goes out and to the write cursor, the cursor moves on modulo `N`, and K grows by one (R236, R94). -/
def Obligations.CopyMovesOneByte : Prop :=
  ∀ (s : State) (c : Byte) (n : Nat), s.SessionInv → s.seq = .dCopy → s.host.script = [] →
    s.dec.k.toNat ≤ s.dec.l.toNat → s.dec.l.toNat < 4095 → s.host.credit = n + 1 →
    Memory.read s.win ((s.dec.dist.toNat + s.dec.k.toNat) % s.par.n.toNat) = some c →
    ∃ t, step s = .next t ∧
      t.host = { s.host with credit := n, output := s.host.output ++ [c] } ∧ t.outCount = s.outCount + 1 ∧
      Memory.read t.win (s.dec.wr.toNat % s.par.n.toNat) = some c ∧
      (∀ a, a ≠ s.dec.wr.toNat % s.par.n.toNat → Memory.read t.win a = Memory.read s.win a) ∧
      t.dec = { s.dec with wr := t.dec.wr, k := t.dec.k } ∧
      t.dec.wr.toNat = (s.dec.wr.toNat + 1) % s.par.n.toNat ∧ t.dec.k.toNat = s.dec.k.toNat + 1 ∧
      t.seq = .dCopy

/-- The copy runs to its end: from D_COPY with K = 0 in a legal session whose window is written, the host accepting
enough bytes and making no turn, the engine gives exactly L + 1 bytes, those of the copy that reads each byte after the
previous one was written, leaves the cursor and the window of that copy, and goes on to D_NEXT (R236, R94). That this takes
L + 2 steps, one for each byte and one for the end of the loop, is the model's form of a step (log 4). -/
def Obligations.CopyRunsToItsEnd : Prop :=
  ∀ (s : State) (win : Nat → Byte) (spare : Nat), s.SessionInv → s.seq = .dCopy → s.host.script = [] →
    s.dec.k = 0 → s.dec.l.toNat < 4095 → s.dec.wr.toNat < s.par.n.toNat →
    s.host.credit = s.dec.l.toNat + 1 + spare →
    (∀ i < s.par.n.toNat, Memory.read s.win i = some (win i)) →
    let copy := copyBytes s.par.mask (s.dec.l.toNat + 1) s.dec.dist.toNat s.dec.wr.toNat win
    ∃ t, Sys2Proof.core.run (s.dec.l.toNat + 2) s = .next t ∧
      t.seq = .dNext ∧ t.host = { s.host with credit := spare, output := s.host.output ++ copy.1 } ∧
      copy.1.length = s.dec.l.toNat + 1 ∧ t.dec.wr.toNat = copy.2.1 ∧
      (∀ i < s.par.n.toNat, Memory.read t.win i = some (copy.2.2 i)) ∧
      t.dec.flags = s.dec.flags

/-- A whole decompression session does what the listing of the spec does: from its first step, in a legal session with
the window filled, the host having offered any bytes and then EOF and accepting enough bytes, the engine comes to IDLE
having taken all those bytes and the EOF, with exactly the listing's output and the listing's end reason, whatever the
bytes are (R242, which the spec marks as derived from R231 to R237). The latch, empty at the start, is the model's (log
5). -/
def Obligations.DecompressionRunsTheListing : Prop :=
  ∀ (s : State) (bytes : List Byte) (rest : List Item) (spare : Nat),
    s.SessionInv → s.seq = .dStart → s.seg = [] → s.inEof = false → s.host.script = [] →
    s.win = Memory.fill 0 s.par.winSize s.par.fill →
    s.host.input = bytes.map Item.byte ++ Item.eof :: rest →
    let result := listing s.par (bytes.length + 1) 0x0000#16 s.par.r0.toNat (fun _ => s.par.fill) bytes
    s.host.credit = result.1.length + spare →
    ∃ k t, Sys2Proof.core.run k s = .next t ∧ t.seq = .idle ∧
      t.host = { s.host with input := rest, credit := spare, output := s.host.output ++ result.1 } ∧
      t.status = { s.status with busy := false, done := true, endReason := result.2, trunc := result.2.truncates } ∧
      t.inCount = s.inCount + BitVec.ofNat 32 bytes.length ∧
      t.outCount = s.outCount + BitVec.ofNat 32 result.1.length

/-- F has no effect on decoding: at the labels of a decompression session the engine's step under any other legal match
length does the same, whatever the step is (R239, which the spec marks as derived from R231 to R236). -/
def Obligations.DecodingDoesNotDependOnF : Prop :=
  ∀ (s : State) (f : Pos), s.SessionInv → 1 ≤ f.toNat → s.seq.mode = some .decompress →
    engineStep (s.withPar { s.par with f := f }) =
      mapNext (fun t => t.withPar { t.par with f := f }) (engineStep s)

/-- A decompression session never faults: from a state of one whose parameters are legal, whose window is written and
whose latch holds no more than a segment, every engine step answers a next state, which is such a state again or has the
session ended; every byte value and every stream is accepted (R120, R287, R323; R291, which the spec marks as
derived). -/
def Obligations.DecompressionNeverFaults : Prop :=
  ∀ s : State, s.SessionInv → s.WindowInv → s.SegmentInv → s.seq.mode = some .decompress →
    ∃ t, engineStep s = .next t ∧ t.SessionInv ∧ t.WindowInv ∧ t.SegmentInv ∧
      (t.seq.mode = some .decompress ∨ t.seq = .idle)

/-! The window. -/

/-- WIN_SET_MIRROR writes its position, and its copy in the tail exactly when the position is below F - 1; it changes no
other cell and nothing else of the state; it completes for every position of the window whose byte is in no key of a
node (R142, with the precondition of R173 and R175). -/
def Obligations.MirroredWriteKeepsTheCopy : Prop :=
  ∀ (s : State) (a : Nat) (c : Byte), s.SessionInv → a < s.par.n.toNat → keyFree s a = true →
    ∃ t, winSetMirror s a c = .ok t ∧ t = { s with win := t.win } ∧
      Memory.read t.win a = some c ∧
      (a < s.par.f.toNat - 1 → Memory.read t.win (a + s.par.n.toNat) = some c) ∧
      (∀ i, i ≠ a → ¬ (i = a + s.par.n.toNat ∧ a < s.par.f.toNat - 1) → Memory.read t.win i = Memory.read s.win i)

/-- In a legal session the masked accesses of the decoder are accesses modulo `N`: WIN_GET_CIRC and WIN_SET_CIRC reach
positions 0 to N-1 only, never the tail, and the write never fails (R143, R144). -/
def Obligations.MaskedAccessIsModuloN : Prop :=
  ∀ (s : State) (i : Nat) (c : Byte), s.SessionInv →
    (winGetCirc s i = winRead s (i % s.par.n.toNat)) ∧
    ∃ t, winSetCirc s i c = .ok t ∧ t = { s with win := t.win } ∧
      (∀ a, Memory.read t.win a = if a = i % s.par.n.toNat then some c else Memory.read s.win a)

/-- In a compression session the tail is a copy of the window's start after every step, from the acceptance on: every
step of the machine, the engine's and the host's, keeps the invariant, together with the legality of the parameters it
rests on (R45; R146, which the spec marks as derived from R140 and R142). -/
def Obligations.TailStaysACopy : Prop :=
  ∀ s t : State, s.SessionInv → s.TailInv → step s = .next t → t.SessionInv ∧ t.TailInv

/-- No window access of a session is out of range or reads a cell the session has not written: from a state whose
parameters are legal, whose window is written, whose cursors are in the window and whose child links are positions or
NIL, no engine step faults on the window (R287, R66; R145, which the spec marks as derived). -/
def Obligations.NoWindowFault : Prop :=
  ∀ s : State, s.SessionInv → s.WindowInv → s.CursorInv → s.ChildInv →
    engineStep s ≠ .fault .windowIndex ∧ engineStep s ≠ .fault .windowUnwritten

/-- Every step keeps the window of a running session written (R140, R66). -/
def Obligations.WindowStaysWritten : Prop :=
  ∀ s t : State, s.WindowInv → step s = .next t → t.WindowInv

/-! The match finder. -/

/-- MF_INIT empties every tree: in a legal session every root's RIGHT is NIL and every position's PARENT is NIL, and
nothing but the link arrays changes (R163). The model's reading (log 8) is that no other link then holds a value: LEFT
nowhere, RIGHT at the roots only, PARENT at the positions only. -/
def Obligations.InitEmptiesEveryTree : Prop :=
  ∀ s : State, s.SessionInv →
    (∀ c : Byte, linkRead .right (mfInit s) (s.par.root c) = .ok s.par.nil) ∧
    (∀ p < s.par.n.toNat, linkRead .parent (mfInit s) p = .ok s.par.nil) ∧
    mfInit s = { s with left := (mfInit s).left, right := (mfInit s).right, parent := (mfInit s).parent } ∧
    (∀ a, Memory.read (mfInit s).left a = none) ∧
    (∀ a, (∀ c : Byte, a ≠ s.par.root c) → Memory.read (mfInit s).right a = none) ∧
    (∀ a, s.par.n.toNat ≤ a → Memory.read (mfInit s).parent a = none)

/-- MF_INSERT into an empty tree completes: the position becomes the tree's top node with no children, MLEN is 0 and MPOS
keeps its value (R165, R167; R168, which the spec marks as derived). -/
def Obligations.InsertIntoAnEmptyTree : Prop :=
  ∀ (s : State) (r : Nat) (c : Byte), s.SessionInv → tailMirrored s = true → r < s.par.n.toNat →
    Memory.read s.win r = some c → linkRead .parent s r = .ok s.par.nil →
    linkRead .right s (s.par.root c) = .ok s.par.nil →
    ∃ t, mfInsert r s = .ok t ∧
      linkRead .right t (s.par.root c) = .ok r ∧ linkRead .parent t r = .ok (s.par.root c) ∧
      linkRead .left t r = .ok s.par.nil ∧ linkRead .right t r = .ok s.par.nil ∧
      (∀ a, a ≠ r → Memory.read t.left a = Memory.read s.left a) ∧
      (∀ a, a ≠ r → a ≠ s.par.root c → Memory.read t.right a = Memory.read s.right a) ∧
      (∀ a, a ≠ r → Memory.read t.parent a = Memory.read s.parent a) ∧
      t.found.mlen = 0 ∧ t.found.mpos = s.found.mpos

/-- The match that MF_INSERT leaves is real: with child links that are positions or NIL, MLEN is at most F, and when it is
not 0, MPOS is a window position whose key agrees with the inserted position's key from byte 1 up to MLEN (R165, R167);
and when every node of the tree for the inserted position's byte holds that byte, as R160 has it, also at byte 0, which
the walk does not compare (R175, which the spec marks as derived). -/
def Obligations.MatchFoundIsReal : Prop :=
  ∀ (s t : State) (r : Nat), s.SessionInv →
    (∀ c ∈ s.left, c.2.toNat ≤ s.par.nil) → (∀ c ∈ s.right, c.2.toNat ≤ s.par.nil) →
    mfInsert r s = .ok t →
    t.found.mlen.toNat ≤ s.par.f.toNat ∧
    (t.found.mlen ≠ 0 → t.found.mpos.toNat < s.par.n.toNat ∧
      ∀ j, 1 ≤ j → j < t.found.mlen.toNat →
        ∃ b, Memory.read s.win (r + j) = some b ∧ Memory.read s.win (t.found.mpos.toNat + j) = some b) ∧
    (∀ c, Memory.read s.win r = some c → (∀ p, InTree s c p → Memory.read s.win p = some c) → t.found.mlen ≠ 0 →
      Memory.read s.win t.found.mpos.toNat = some c)

/-- After MF_REMOVE(p) answers, `p` is in no tree, and the window, the match state and everything but the link arrays and
the walk temporaries are as before; for a position already in no tree it answers with nothing changed (R169). -/
def Obligations.RemovedPositionIsInNoTree : Prop :=
  (∀ (s t : State) (p : Nat), mfRemove p s = .ok t →
    linkRead .parent t p = .ok t.par.nil ∧
    t = { s with left := t.left, right := t.right, parent := t.parent, walk := t.walk }) ∧
  (∀ (s : State) (p : Nat), p < s.par.n.toNat → tailMirrored s = true → linkRead .parent s p = .ok s.par.nil →
    mfRemove p s = .ok s)

/-- MF_REMOVE of a leaf completes, under the right link of its parent and under the left: that link becomes NIL, `p` is in
no tree, and no other link changes but the scratch cell PARENT[NIL] (R169; R170 and R171, which the spec marks as
derived). -/
def Obligations.RemoveUnlinksALeaf : Prop :=
  (∀ (s : State) (p up : Nat), s.SessionInv → tailMirrored s = true → p < s.par.n.toNat →
    linkRead .parent s p = .ok up → up ≠ s.par.nil → up ≠ p →
    linkRead .left s p = .ok s.par.nil → linkRead .right s p = .ok s.par.nil → linkRead .right s up = .ok p →
    ∃ t, mfRemove p s = .ok t ∧
      linkRead .right t up = .ok s.par.nil ∧ linkRead .parent t p = .ok s.par.nil ∧
      (∀ a, Memory.read t.left a = Memory.read s.left a) ∧
      (∀ a, a ≠ up → Memory.read t.right a = Memory.read s.right a) ∧
      (∀ a, a ≠ p → a ≠ s.par.nil → Memory.read t.parent a = Memory.read s.parent a)) ∧
  (∀ (s : State) (p up other : Nat), s.SessionInv → tailMirrored s = true → p < s.par.n.toNat →
    linkRead .parent s p = .ok up → up ≠ s.par.nil → up ≠ p →
    linkRead .left s p = .ok s.par.nil → linkRead .right s p = .ok s.par.nil →
    linkRead .right s up = .ok other → other ≠ p → linkRead .left s up = .ok p →
    ∃ t, mfRemove p s = .ok t ∧
      linkRead .left t up = .ok s.par.nil ∧ linkRead .parent t p = .ok s.par.nil ∧
      (∀ a, a ≠ up → Memory.read t.left a = Memory.read s.left a) ∧
      (∀ a, Memory.read t.right a = Memory.read s.right a) ∧
      (∀ a, a ≠ p → a ≠ s.par.nil → Memory.read t.parent a = Memory.read s.parent a))

/-- Every step keeps the child links of a compression session positions or NIL, together with the legality of the
parameters (R47, R166, R169). -/
def Obligations.ChildLinksStayPositions : Prop :=
  ∀ s t : State, s.SessionInv → s.ChildInv → step s = .next t → t.SessionInv ∧ t.ChildInv

/-! The encoder. -/

/-- E_START: the trees are empty, the group is empty with CBPTR 1 and CMASK 0x01, R is R0, S is the first position after
the lookahead, LEN is 0, and E_LOAD comes next (R191). -/
def Obligations.EncoderStartInitialises : Prop :=
  ∀ s : State, s.SessionInv → s.seq = .eStart → s.host.script = [] →
    ∃ t, step s = .next t ∧
      (∀ c : Byte, linkRead .right t (s.par.root c) = .ok s.par.nil) ∧
      (∀ p < s.par.n.toNat, linkRead .parent t p = .ok s.par.nil) ∧
      t.enc.cb = s.enc.cb.set 0 0x00 ∧ t.enc.cbptr = 1 ∧ t.enc.cmask = 0x01 ∧
      t.enc.r = s.par.r0 ∧ t.enc.s.toNat = (s.par.r0.toNat + s.par.f.toNat) &&& s.par.mask ∧ t.enc.len = 0 ∧
      t.seq = .eLoad ∧ t.win = s.win ∧ t.host = s.host ∧ t.status = s.status

/-- An empty input ends a compression session with no output: from E_START with `EOF` offered first, the engine comes to
IDLE with END_REASON ENC_COMPLETE and DONE; nothing is written, and no tree operation but MF_INIT runs (R193, R202). That
this takes three steps is the model's form of a step (log 4). -/
def Obligations.EmptyInputEndsTheSession : Prop :=
  ∀ (s : State) (rest : List Item), s.SessionInv → s.seq = .eStart → s.host.script = [] → s.inEof = false →
    s.host.input = .eof :: rest →
    ∃ t, Sys2Proof.core.run 3 s = .next t ∧ t.seq = .idle ∧
      t.status = { s.status with busy := false, done := true, endReason := .encComplete, trunc := false } ∧
      t.host = { s.host with input := rest } ∧ t.inCount = s.inCount ∧ t.outCount = s.outCount ∧ t.win = s.win ∧
      t.left = (mfInit s).left ∧ t.right = (mfInit s).right ∧ t.parent = (mfInit s).parent

/-- E_TOKEN sends a literal exactly as the rule says when the match, clamped to the lookahead, is of T bytes or less: the
token's flag is set in the control byte, the byte at R is the next payload byte, CBPTR grows by one, the window will
advance by one position, and the next label is E_FLUSH after the 8th token, else E_ADV (R195, R196, R198). -/
def Obligations.LiteralIsPacked : Prop :=
  ∀ (s : State) (b : Byte) (k : Nat), s.SessionInv → s.seq = .eToken → s.host.script = [] → k < 8 → groupHolds s k →
    min s.found.mlen.toNat s.enc.len.toNat ≤ s.par.t.toNat →
    s.enc.r.toNat < s.par.n.toNat → Memory.read s.win s.enc.r.toNat = some b →
    ∃ t, step s = .next t ∧
      t.enc.cb[0] = s.enc.cb[0] ||| s.enc.cmask ∧ t.enc.cb.toList[s.enc.cbptr.toNat]? = some b ∧
      (∀ i < 17, i ≠ 0 → i ≠ s.enc.cbptr.toNat → t.enc.cb.toList[i]? = s.enc.cb.toList[i]?) ∧
      t.enc.cbptr.toNat = s.enc.cbptr.toNat + 1 ∧ t.enc.lastlen = 1 ∧ groupHolds t (k + 1) ∧
      t.seq = (if k = 7 then .eFlush else .eAdv) ∧ t.win = s.win ∧ t.host = s.host

/-- E_TOKEN sends a reference when the clamped match is longer than T: the two bytes of R115 are the next payload bytes,
the token's flag stays 0, CBPTR grows by two, and the window will advance by the match's length (R195, R197, R198). -/
def Obligations.ReferenceIsPacked : Prop :=
  ∀ (s : State) (m : Pos) (k : Nat), s.SessionInv → s.seq = .eToken → s.host.script = [] → k < 8 → groupHolds s k →
    m.toNat = min s.found.mlen.toNat s.enc.len.toNat → s.par.t.toNat < m.toNat →
    ∃ t, step s = .next t ∧
      t.enc.cb.toList[s.enc.cbptr.toNat]? = some (packByte1 s.found.mpos) ∧
      t.enc.cb.toList[s.enc.cbptr.toNat + 1]? = some (packByte2 s.found.mpos m s.par.t) ∧
      (∀ i < 17, i ≠ s.enc.cbptr.toNat → i ≠ s.enc.cbptr.toNat + 1 → t.enc.cb.toList[i]? = s.enc.cb.toList[i]?) ∧
      t.enc.cbptr.toNat = s.enc.cbptr.toNat + 2 ∧ t.enc.lastlen = m ∧ groupHolds t (k + 1) ∧
      t.seq = (if k = 7 then .eFlush else .eAdv) ∧ t.win = s.win ∧ t.host = s.host

/-- A full group is flushed whole: from E_FLUSH with 8 tokens, the host accepting enough bytes and making no turn, the
engine writes the control byte and the payload bytes in order, then has an empty group and is at E_ADV with I = 0, the
window not yet advanced (R198). That this takes one step for each byte and one for the end, which also clears I, is the
model's form of a step (log 4), and the loop variable is the model's field (log 21). -/
def Obligations.FullGroupIsFlushed : Prop :=
  ∀ (s : State) (spare : Nat), s.seq = .eFlush → s.host.script = [] → s.outIdx = 0 → groupHolds s 8 →
    s.host.credit = s.enc.cbptr.toNat + spare →
    ∃ t, Sys2Proof.core.run (s.enc.cbptr.toNat + 1) s = .next t ∧ t.seq = .eAdv ∧ t.enc.i = 0 ∧
      t.host = { s.host with credit := spare, output := s.host.output ++ s.enc.cb.toList.take s.enc.cbptr.toNat } ∧
      t.outCount = s.outCount + BitVec.ofNat 32 s.enc.cbptr.toNat ∧
      t.enc.cb = s.enc.cb.set 0 0x00 ∧ t.enc.cbptr = 1 ∧ t.enc.cmask = 0x01 ∧
      t.enc.r = s.enc.r ∧ t.enc.s = s.enc.s ∧ t.enc.len = s.enc.len ∧ t.enc.lastlen = s.enc.lastlen ∧ t.win = s.win

/-- E_FINAL: a partial group, if CBPTR > 1, is written whole and in order; then the session ends with ENC_COMPLETE; with
CBPTR = 1 nothing is written (R202, R63). That this takes one step for each byte and one for the end is the model's form of
a step (log 4), and the loop variable is the model's field (log 21). -/
def Obligations.LastGroupIsWrittenAndTheSessionEnds : Prop :=
  ∀ (s : State) (k spare : Nat), s.seq = .eFinal → s.host.script = [] → s.outIdx = 0 → k < 8 → groupHolds s k →
    let bytes := if 1 < s.enc.cbptr.toNat then s.enc.cb.toList.take s.enc.cbptr.toNat else []
    s.host.credit = bytes.length + spare →
    ∃ t, Sys2Proof.core.run (bytes.length + 1) s = .next t ∧ t.seq = .idle ∧
      t.host = { s.host with credit := spare, output := s.host.output ++ bytes } ∧
      t.outCount = s.outCount + BitVec.ofNat 32 bytes.length ∧
      t.status = { s.status with busy := false, done := true, endReason := .encComplete, trunc := false }

/-- One pass of E_ADV with an input byte: when it answers, the byte is in the window at the old S, with its copy in the
tail when S is below F - 1, no other byte of the window changes, S and R move on modulo `N`, I grows by one and LEN
stays (R199, R142; R318, which the spec marks as derived). One pass is one step of the model (log 4). -/
def Obligations.AdvanceTakesOneByte : Prop :=
  ∀ (s t : State) (c : Byte) (rest : List Item), s.SessionInv → s.seq = .eAdv → s.host.script = [] →
    s.enc.i.toNat < s.enc.lastlen.toNat → s.inEof = false → s.host.input = .byte c :: rest → step s = .next t →
    Memory.read t.win s.enc.s.toNat = some c ∧
    (s.enc.s.toNat < s.par.f.toNat - 1 → Memory.read t.win (s.enc.s.toNat + s.par.n.toNat) = some c) ∧
    (∀ a, a ≠ s.enc.s.toNat → ¬ (a = s.enc.s.toNat + s.par.n.toNat ∧ s.enc.s.toNat < s.par.f.toNat - 1) →
      Memory.read t.win a = Memory.read s.win a) ∧
    t.enc = { s.enc with s := t.enc.s, r := t.enc.r, i := t.enc.i } ∧
    t.enc.s.toNat = (s.enc.s.toNat + 1) % s.par.n.toNat ∧ t.enc.r.toNat = (s.enc.r.toNat + 1) % s.par.n.toNat ∧
    t.enc.i.toNat = s.enc.i.toNat + 1 ∧ t.host = { s.host with input := rest } ∧ t.inCount = s.inCount + 1 ∧
    t.seq = .eAdv

/-- Every step keeps the cursors in the window and, in a compression session past E_START, `S = (R + F) & MASK` (a sentence
of R49 that the spec marks as derived from R191, R199 and R200). -/
def Obligations.CursorsStayLocked : Prop :=
  ∀ s t : State, s.SessionInv → s.CursorInv → step s = .next t → t.CursorInv

/-- Every step keeps the group buffer's invariant: CMASK is the bit of the current token, CBPTR stays within the 17
cells, and a flush has exactly 8 tokens (R51, R52, R198); and under it no step faults on the group buffer. -/
def Obligations.GroupBufferStaysInRange : Prop :=
  (∀ s t : State, s.GroupInv → step s = .next t → t.GroupInv) ∧
  (∀ s : State, s.GroupInv → engineStep s ≠ .fault .groupIndex)

/-! The whole machine. -/

/-- Every step keeps STATUS and SEQ in agreement: BUSY is 1 exactly while a session runs, BUSY and DONE are never both
1 (a sentence of R32 that the spec marks as derived), an error excludes a running session and an end, TRUNC is that of the
end reason, and the label is of the mode SMODE (R32, R63, R238). -/
def Obligations.StatusAgreesWithTheSequencer : Prop :=
  ∀ s t : State, s.StatusInv → step s = .next t → t.StatusInv

/-- Every step keeps the four RAMs in their canonical form. The form is the model's (log 7). -/
def Obligations.MemoryStaysCanonical : Prop :=
  ∀ s t : State, s.MemoryInv → step s = .next t → t.MemoryInv

/-- Every step keeps the segment latch within the segment of its label, and under that invariant no step meets a
malformed segment (R118). The latch is the model's (log 5). -/
def Obligations.LatchHoldsAtMostASegment : Prop :=
  (∀ s t : State, s.SegmentInv → step s = .next t → t.SegmentInv) ∧
  (∀ s : State, s.SegmentInv → engineStep s ≠ .fault .segmentMalformed)

/-- The state after reset meets every invariant. That its RAMs list nothing and its latch is empty is the model's choice
(logs 7, 5). -/
def Obligations.ResetMeetsTheInvariants : Prop :=
  State.reset.MemoryInv ∧ State.reset.SessionInv ∧ State.reset.StatusInv ∧ State.reset.SegmentInv ∧
  State.reset.WindowInv ∧ State.reset.CursorInv ∧ State.reset.TailInv ∧ State.reset.ChildInv ∧ State.reset.GroupInv

/-- The values the spec gives for the state after reset (R65); nothing is said of what it leaves unspecified. -/
def Obligations.ResetValues : Prop :=
  let s := State.reset
  s.status.word = 0x00000000 ∧
  s.cfg = { frameSize := 0x1000, fill := 0x00, initPos := 0xFEE, maxLen := 0x012, minLen := 0x002, mode := .compress } ∧
  s.inCount = 0 ∧ s.outCount = 0 ∧
  s.par = { n := 0x1000, fill := 0x00, r0 := 0xFEE, f := 0x12, t := 0x02 } ∧
  s.seq = .idle ∧ s.found = { mlen := 0, mpos := 0 } ∧
  s.enc.r = 0 ∧ s.enc.s = 0 ∧ s.enc.len = 0 ∧ s.enc.lastlen = 0 ∧ s.enc.i = 0 ∧
  (∀ i < 17, s.enc.cb.toList[i]? = some 0) ∧ s.enc.cbptr = 1 ∧ s.enc.cmask = 0x01 ∧
  s.dec.flags = 0x0000 ∧ s.dec.wr = 0 ∧ s.inEof = false ∧
  readRegister s 0 = 0

/-- Hardware reset, at any time and whatever the engine does, puts the engine's state to its reset value; what the host
has offered, accepted and received stays with it (R310, R312). The model's choice, and no rule's, are: that reset is a turn
of the host (log 19); that P, Q, CMP, J, B1, B2, DIST, L and K, which R65 leaves unspecified, become 0 (log 6); that the
RAMs, which R66 and R311 leave unspecified, list nothing (logs 7, 19); and that the model's own fields, the output loops'
index and the segment latch, become 0 and empty (logs 21, 5). -/
def Obligations.HardwareResetAbortsTheSession : Prop :=
  ∀ (s : State) (ts : List Turn), s.host.script = .reset :: ts →
    step s = .next { State.reset with host := { s.host with script := ts } }
end

