-- ==== Sys2Proof/Laws/Memory.lean ====
section
/-! SUPPORT. The laws of a RAM: a read after a write, the canonical form, and a filled RAM (spec/20_memory.md R93:
every read returns the value of the last write to that element). -/

namespace Sys2Proof.Machine

variable {w : Nat}

@[simp] theorem Memory.read_nil (a : Nat) : Memory.read ([] : List (Nat × BitVec w)) a = none := rfl

theorem Memory.read_cons (b : Nat) (x : BitVec w) (m : List (Nat × BitVec w)) (a : Nat) :
    Memory.read ((b, x) :: m) a = if a = b then some x else Memory.read m a := rfl

@[simp] theorem Memory.read_write_same (m : List (Nat × BitVec w)) (a : Nat) (v : BitVec w) :
    Memory.read (Memory.write m a v) a = some v := by
  induction m with
  | nil => simp [Memory.write, Memory.read]
  | cons c m ih =>
    obtain ⟨b, x⟩ := c
    simp only [Memory.write]
    split
    · simp [Memory.read]
    · split
      · simp [Memory.read]
      · simp [Memory.read, *]

theorem Memory.read_write_other (m : List (Nat × BitVec w)) {a a' : Nat} (v : BitVec w) (h : a' ≠ a) :
    Memory.read (Memory.write m a v) a' = Memory.read m a' := by
  induction m with
  | nil => simp [Memory.write, Memory.read, h]
  | cons c m ih =>
    obtain ⟨b, x⟩ := c
    simp only [Memory.write]
    split
    · simp [Memory.read, h]
    · split
      · next hab => subst hab; simp [Memory.read, h]
      · simp [Memory.read, ih]

theorem Memory.read_write (m : List (Nat × BitVec w)) (a a' : Nat) (v : BitVec w) :
    Memory.read (Memory.write m a v) a' = if a' = a then some v else Memory.read m a' := by
  split
  · next h => subst h; exact Memory.read_write_same m a' v
  · next h => exact Memory.read_write_other m v h

/-- Where a write's cells come from: an old cell or the written one. -/
theorem Memory.mem_write {m : List (Nat × BitVec w)} {a : Nat} {v : BitVec w} {c : Nat × BitVec w}
    (h : c ∈ Memory.write m a v) : c = (a, v) ∨ c ∈ m := by
  induction m with
  | nil => simpa [Memory.write] using h
  | cons d m ih =>
    obtain ⟨b, x⟩ := d
    simp only [Memory.write] at h
    split at h
    · simpa using h
    · split at h
      · rcases List.mem_cons.1 h with h | h
        · exact .inl h
        · exact .inr (List.mem_cons_of_mem _ h)
      · rcases List.mem_cons.1 h with h | h
        · exact .inr (h ▸ List.mem_cons_self)
        · rcases ih h with h | h
          · exact .inl h
          · exact .inr (List.mem_cons_of_mem _ h)

/-- Every memory operation keeps the canonical form: a write does. -/
theorem Memory.write_wf {m : List (Nat × BitVec w)} (a : Nat) (v : BitVec w) (h : Memory.wf m) :
    Memory.wf (Memory.write m a v) := by
  induction m with
  | nil => simp [Memory.write, Memory.wf]
  | cons c m ih =>
    obtain ⟨b, x⟩ := c
    obtain ⟨hb, hm⟩ := List.pairwise_cons.1 h
    simp only [Memory.write]
    split
    · next hab =>
      refine List.pairwise_cons.2 ⟨fun y hy => ?_, h⟩
      rcases List.mem_cons.1 hy with rfl | hy
      · exact hab
      · exact hab.trans (hb y hy)
    · next hab =>
      split
      · next hab => subst hab; exact List.pairwise_cons.2 ⟨hb, hm⟩
      · next hne =>
        refine List.pairwise_cons.2 ⟨fun y hy => ?_, ih hm⟩
        rcases Memory.mem_write hy with rfl | hy
        · exact lt_of_le_of_ne (not_lt.1 hab) (Ne.symm hne)
        · exact hb y hy

theorem Memory.fill_wf (start len : Nat) (v : BitVec w) : Memory.wf (Memory.fill start len v) := by
  simp only [Memory.wf, Memory.fill, List.pairwise_map]
  exact List.pairwise_lt_range'

theorem Memory.read_fill (start len : Nat) (v : BitVec w) (a : Nat) :
    Memory.read (Memory.fill start len v) a = if start ≤ a ∧ a < start + len then some v else none := by
  induction len generalizing start with
  | zero =>
    simp [Memory.fill]
  | succ n ih =>
    have hcons : Memory.fill start (n + 1) v = (start, v) :: Memory.fill (start + 1) n v := by
      simp [Memory.fill, List.range'_succ]
    rw [hcons, Memory.read_cons, ih]
    by_cases h : a = start
    · subst h; simp
    · have : (start + 1 ≤ a ∧ a < start + 1 + n) ↔ (start ≤ a ∧ a < start + (n + 1)) := by omega
      rw [if_neg h]
      simp only [this]

/-- A listed value is the value of a cell. -/
theorem Memory.mem_of_read {m : List (Nat × BitVec w)} {a : Nat} {v : BitVec w} (h : Memory.read m a = some v) :
    (a, v) ∈ m := by
  induction m with
  | nil => simp at h
  | cons c m ih =>
    obtain ⟨b, x⟩ := c
    rw [Memory.read_cons] at h
    split at h
    · next hab => subst hab; simp_all
    · exact List.mem_cons_of_mem _ (ih h)

end Sys2Proof.Machine
end

