-- ==== Sys2Proof/Laws/State.lean ====
section
/-! SUPPORT. Beside State: for each named update one lemma per field, true by `rfl`, so that no proof unfolds a
record update. -/

namespace Sys2Proof.Machine

variable (s : State)


/-! withStatus -/

@[simp] theorem State.withStatus_status (v : Status) : (s.withStatus v).status = v := rfl
@[simp] theorem State.withStatus_cfg (v : Status) : (s.withStatus v).cfg = s.cfg := rfl
@[simp] theorem State.withStatus_inCount (v : Status) : (s.withStatus v).inCount = s.inCount := rfl
@[simp] theorem State.withStatus_outCount (v : Status) : (s.withStatus v).outCount = s.outCount := rfl
@[simp] theorem State.withStatus_par (v : Status) : (s.withStatus v).par = s.par := rfl
@[simp] theorem State.withStatus_win (v : Status) : (s.withStatus v).win = s.win := rfl
@[simp] theorem State.withStatus_left (v : Status) : (s.withStatus v).left = s.left := rfl
@[simp] theorem State.withStatus_right (v : Status) : (s.withStatus v).right = s.right := rfl
@[simp] theorem State.withStatus_parent (v : Status) : (s.withStatus v).parent = s.parent := rfl
@[simp] theorem State.withStatus_found (v : Status) : (s.withStatus v).found = s.found := rfl
@[simp] theorem State.withStatus_enc (v : Status) : (s.withStatus v).enc = s.enc := rfl
@[simp] theorem State.withStatus_walk (v : Status) : (s.withStatus v).walk = s.walk := rfl
@[simp] theorem State.withStatus_dec (v : Status) : (s.withStatus v).dec = s.dec := rfl
@[simp] theorem State.withStatus_inEof (v : Status) : (s.withStatus v).inEof = s.inEof := rfl
@[simp] theorem State.withStatus_seq (v : Status) : (s.withStatus v).seq = s.seq := rfl
@[simp] theorem State.withStatus_seg (v : Status) : (s.withStatus v).seg = s.seg := rfl
@[simp] theorem State.withStatus_outIdx (v : Status) : (s.withStatus v).outIdx = s.outIdx := rfl
@[simp] theorem State.withStatus_host (v : Status) : (s.withStatus v).host = s.host := rfl
@[simp] theorem State.withStatus_withStatus (v w : Status) : (s.withStatus v).withStatus w = s.withStatus w := rfl
@[simp] theorem State.withStatus_self : s.withStatus s.status = s := rfl

/-! withCfg -/

@[simp] theorem State.withCfg_status (v : Cfg) : (s.withCfg v).status = s.status := rfl
@[simp] theorem State.withCfg_cfg (v : Cfg) : (s.withCfg v).cfg = v := rfl
@[simp] theorem State.withCfg_inCount (v : Cfg) : (s.withCfg v).inCount = s.inCount := rfl
@[simp] theorem State.withCfg_outCount (v : Cfg) : (s.withCfg v).outCount = s.outCount := rfl
@[simp] theorem State.withCfg_par (v : Cfg) : (s.withCfg v).par = s.par := rfl
@[simp] theorem State.withCfg_win (v : Cfg) : (s.withCfg v).win = s.win := rfl
@[simp] theorem State.withCfg_left (v : Cfg) : (s.withCfg v).left = s.left := rfl
@[simp] theorem State.withCfg_right (v : Cfg) : (s.withCfg v).right = s.right := rfl
@[simp] theorem State.withCfg_parent (v : Cfg) : (s.withCfg v).parent = s.parent := rfl
@[simp] theorem State.withCfg_found (v : Cfg) : (s.withCfg v).found = s.found := rfl
@[simp] theorem State.withCfg_enc (v : Cfg) : (s.withCfg v).enc = s.enc := rfl
@[simp] theorem State.withCfg_walk (v : Cfg) : (s.withCfg v).walk = s.walk := rfl
@[simp] theorem State.withCfg_dec (v : Cfg) : (s.withCfg v).dec = s.dec := rfl
@[simp] theorem State.withCfg_inEof (v : Cfg) : (s.withCfg v).inEof = s.inEof := rfl
@[simp] theorem State.withCfg_seq (v : Cfg) : (s.withCfg v).seq = s.seq := rfl
@[simp] theorem State.withCfg_seg (v : Cfg) : (s.withCfg v).seg = s.seg := rfl
@[simp] theorem State.withCfg_outIdx (v : Cfg) : (s.withCfg v).outIdx = s.outIdx := rfl
@[simp] theorem State.withCfg_host (v : Cfg) : (s.withCfg v).host = s.host := rfl
@[simp] theorem State.withCfg_withCfg (v w : Cfg) : (s.withCfg v).withCfg w = s.withCfg w := rfl
@[simp] theorem State.withCfg_self : s.withCfg s.cfg = s := rfl

/-! withInCount -/

@[simp] theorem State.withInCount_status (v : Word) : (s.withInCount v).status = s.status := rfl
@[simp] theorem State.withInCount_cfg (v : Word) : (s.withInCount v).cfg = s.cfg := rfl
@[simp] theorem State.withInCount_inCount (v : Word) : (s.withInCount v).inCount = v := rfl
@[simp] theorem State.withInCount_outCount (v : Word) : (s.withInCount v).outCount = s.outCount := rfl
@[simp] theorem State.withInCount_par (v : Word) : (s.withInCount v).par = s.par := rfl
@[simp] theorem State.withInCount_win (v : Word) : (s.withInCount v).win = s.win := rfl
@[simp] theorem State.withInCount_left (v : Word) : (s.withInCount v).left = s.left := rfl
@[simp] theorem State.withInCount_right (v : Word) : (s.withInCount v).right = s.right := rfl
@[simp] theorem State.withInCount_parent (v : Word) : (s.withInCount v).parent = s.parent := rfl
@[simp] theorem State.withInCount_found (v : Word) : (s.withInCount v).found = s.found := rfl
@[simp] theorem State.withInCount_enc (v : Word) : (s.withInCount v).enc = s.enc := rfl
@[simp] theorem State.withInCount_walk (v : Word) : (s.withInCount v).walk = s.walk := rfl
@[simp] theorem State.withInCount_dec (v : Word) : (s.withInCount v).dec = s.dec := rfl
@[simp] theorem State.withInCount_inEof (v : Word) : (s.withInCount v).inEof = s.inEof := rfl
@[simp] theorem State.withInCount_seq (v : Word) : (s.withInCount v).seq = s.seq := rfl
@[simp] theorem State.withInCount_seg (v : Word) : (s.withInCount v).seg = s.seg := rfl
@[simp] theorem State.withInCount_outIdx (v : Word) : (s.withInCount v).outIdx = s.outIdx := rfl
@[simp] theorem State.withInCount_host (v : Word) : (s.withInCount v).host = s.host := rfl
@[simp] theorem State.withInCount_withInCount (v w : Word) : (s.withInCount v).withInCount w = s.withInCount w := rfl
@[simp] theorem State.withInCount_self : s.withInCount s.inCount = s := rfl

/-! withOutCount -/

@[simp] theorem State.withOutCount_status (v : Word) : (s.withOutCount v).status = s.status := rfl
@[simp] theorem State.withOutCount_cfg (v : Word) : (s.withOutCount v).cfg = s.cfg := rfl
@[simp] theorem State.withOutCount_inCount (v : Word) : (s.withOutCount v).inCount = s.inCount := rfl
@[simp] theorem State.withOutCount_outCount (v : Word) : (s.withOutCount v).outCount = v := rfl
@[simp] theorem State.withOutCount_par (v : Word) : (s.withOutCount v).par = s.par := rfl
@[simp] theorem State.withOutCount_win (v : Word) : (s.withOutCount v).win = s.win := rfl
@[simp] theorem State.withOutCount_left (v : Word) : (s.withOutCount v).left = s.left := rfl
@[simp] theorem State.withOutCount_right (v : Word) : (s.withOutCount v).right = s.right := rfl
@[simp] theorem State.withOutCount_parent (v : Word) : (s.withOutCount v).parent = s.parent := rfl
@[simp] theorem State.withOutCount_found (v : Word) : (s.withOutCount v).found = s.found := rfl
@[simp] theorem State.withOutCount_enc (v : Word) : (s.withOutCount v).enc = s.enc := rfl
@[simp] theorem State.withOutCount_walk (v : Word) : (s.withOutCount v).walk = s.walk := rfl
@[simp] theorem State.withOutCount_dec (v : Word) : (s.withOutCount v).dec = s.dec := rfl
@[simp] theorem State.withOutCount_inEof (v : Word) : (s.withOutCount v).inEof = s.inEof := rfl
@[simp] theorem State.withOutCount_seq (v : Word) : (s.withOutCount v).seq = s.seq := rfl
@[simp] theorem State.withOutCount_seg (v : Word) : (s.withOutCount v).seg = s.seg := rfl
@[simp] theorem State.withOutCount_outIdx (v : Word) : (s.withOutCount v).outIdx = s.outIdx := rfl
@[simp] theorem State.withOutCount_host (v : Word) : (s.withOutCount v).host = s.host := rfl
@[simp] theorem State.withOutCount_withOutCount (v w : Word) : (s.withOutCount v).withOutCount w = s.withOutCount w := rfl
@[simp] theorem State.withOutCount_self : s.withOutCount s.outCount = s := rfl

/-! withPar -/

@[simp] theorem State.withPar_status (v : Session) : (s.withPar v).status = s.status := rfl
@[simp] theorem State.withPar_cfg (v : Session) : (s.withPar v).cfg = s.cfg := rfl
@[simp] theorem State.withPar_inCount (v : Session) : (s.withPar v).inCount = s.inCount := rfl
@[simp] theorem State.withPar_outCount (v : Session) : (s.withPar v).outCount = s.outCount := rfl
@[simp] theorem State.withPar_par (v : Session) : (s.withPar v).par = v := rfl
@[simp] theorem State.withPar_win (v : Session) : (s.withPar v).win = s.win := rfl
@[simp] theorem State.withPar_left (v : Session) : (s.withPar v).left = s.left := rfl
@[simp] theorem State.withPar_right (v : Session) : (s.withPar v).right = s.right := rfl
@[simp] theorem State.withPar_parent (v : Session) : (s.withPar v).parent = s.parent := rfl
@[simp] theorem State.withPar_found (v : Session) : (s.withPar v).found = s.found := rfl
@[simp] theorem State.withPar_enc (v : Session) : (s.withPar v).enc = s.enc := rfl
@[simp] theorem State.withPar_walk (v : Session) : (s.withPar v).walk = s.walk := rfl
@[simp] theorem State.withPar_dec (v : Session) : (s.withPar v).dec = s.dec := rfl
@[simp] theorem State.withPar_inEof (v : Session) : (s.withPar v).inEof = s.inEof := rfl
@[simp] theorem State.withPar_seq (v : Session) : (s.withPar v).seq = s.seq := rfl
@[simp] theorem State.withPar_seg (v : Session) : (s.withPar v).seg = s.seg := rfl
@[simp] theorem State.withPar_outIdx (v : Session) : (s.withPar v).outIdx = s.outIdx := rfl
@[simp] theorem State.withPar_host (v : Session) : (s.withPar v).host = s.host := rfl
@[simp] theorem State.withPar_withPar (v w : Session) : (s.withPar v).withPar w = s.withPar w := rfl
@[simp] theorem State.withPar_self : s.withPar s.par = s := rfl

/-! withWin -/

@[simp] theorem State.withWin_status (v : List Host.Cell) : (s.withWin v).status = s.status := rfl
@[simp] theorem State.withWin_cfg (v : List Host.Cell) : (s.withWin v).cfg = s.cfg := rfl
@[simp] theorem State.withWin_inCount (v : List Host.Cell) : (s.withWin v).inCount = s.inCount := rfl
@[simp] theorem State.withWin_outCount (v : List Host.Cell) : (s.withWin v).outCount = s.outCount := rfl
@[simp] theorem State.withWin_par (v : List Host.Cell) : (s.withWin v).par = s.par := rfl
@[simp] theorem State.withWin_win (v : List Host.Cell) : (s.withWin v).win = v := rfl
@[simp] theorem State.withWin_left (v : List Host.Cell) : (s.withWin v).left = s.left := rfl
@[simp] theorem State.withWin_right (v : List Host.Cell) : (s.withWin v).right = s.right := rfl
@[simp] theorem State.withWin_parent (v : List Host.Cell) : (s.withWin v).parent = s.parent := rfl
@[simp] theorem State.withWin_found (v : List Host.Cell) : (s.withWin v).found = s.found := rfl
@[simp] theorem State.withWin_enc (v : List Host.Cell) : (s.withWin v).enc = s.enc := rfl
@[simp] theorem State.withWin_walk (v : List Host.Cell) : (s.withWin v).walk = s.walk := rfl
@[simp] theorem State.withWin_dec (v : List Host.Cell) : (s.withWin v).dec = s.dec := rfl
@[simp] theorem State.withWin_inEof (v : List Host.Cell) : (s.withWin v).inEof = s.inEof := rfl
@[simp] theorem State.withWin_seq (v : List Host.Cell) : (s.withWin v).seq = s.seq := rfl
@[simp] theorem State.withWin_seg (v : List Host.Cell) : (s.withWin v).seg = s.seg := rfl
@[simp] theorem State.withWin_outIdx (v : List Host.Cell) : (s.withWin v).outIdx = s.outIdx := rfl
@[simp] theorem State.withWin_host (v : List Host.Cell) : (s.withWin v).host = s.host := rfl
@[simp] theorem State.withWin_withWin (v w : List Host.Cell) : (s.withWin v).withWin w = s.withWin w := rfl
@[simp] theorem State.withWin_self : s.withWin s.win = s := rfl

/-! withLeft -/

@[simp] theorem State.withLeft_status (v : List (Nat × Idx)) : (s.withLeft v).status = s.status := rfl
@[simp] theorem State.withLeft_cfg (v : List (Nat × Idx)) : (s.withLeft v).cfg = s.cfg := rfl
@[simp] theorem State.withLeft_inCount (v : List (Nat × Idx)) : (s.withLeft v).inCount = s.inCount := rfl
@[simp] theorem State.withLeft_outCount (v : List (Nat × Idx)) : (s.withLeft v).outCount = s.outCount := rfl
@[simp] theorem State.withLeft_par (v : List (Nat × Idx)) : (s.withLeft v).par = s.par := rfl
@[simp] theorem State.withLeft_win (v : List (Nat × Idx)) : (s.withLeft v).win = s.win := rfl
@[simp] theorem State.withLeft_left (v : List (Nat × Idx)) : (s.withLeft v).left = v := rfl
@[simp] theorem State.withLeft_right (v : List (Nat × Idx)) : (s.withLeft v).right = s.right := rfl
@[simp] theorem State.withLeft_parent (v : List (Nat × Idx)) : (s.withLeft v).parent = s.parent := rfl
@[simp] theorem State.withLeft_found (v : List (Nat × Idx)) : (s.withLeft v).found = s.found := rfl
@[simp] theorem State.withLeft_enc (v : List (Nat × Idx)) : (s.withLeft v).enc = s.enc := rfl
@[simp] theorem State.withLeft_walk (v : List (Nat × Idx)) : (s.withLeft v).walk = s.walk := rfl
@[simp] theorem State.withLeft_dec (v : List (Nat × Idx)) : (s.withLeft v).dec = s.dec := rfl
@[simp] theorem State.withLeft_inEof (v : List (Nat × Idx)) : (s.withLeft v).inEof = s.inEof := rfl
@[simp] theorem State.withLeft_seq (v : List (Nat × Idx)) : (s.withLeft v).seq = s.seq := rfl
@[simp] theorem State.withLeft_seg (v : List (Nat × Idx)) : (s.withLeft v).seg = s.seg := rfl
@[simp] theorem State.withLeft_outIdx (v : List (Nat × Idx)) : (s.withLeft v).outIdx = s.outIdx := rfl
@[simp] theorem State.withLeft_host (v : List (Nat × Idx)) : (s.withLeft v).host = s.host := rfl
@[simp] theorem State.withLeft_withLeft (v w : List (Nat × Idx)) : (s.withLeft v).withLeft w = s.withLeft w := rfl
@[simp] theorem State.withLeft_self : s.withLeft s.left = s := rfl

/-! withRight -/

@[simp] theorem State.withRight_status (v : List (Nat × Idx)) : (s.withRight v).status = s.status := rfl
@[simp] theorem State.withRight_cfg (v : List (Nat × Idx)) : (s.withRight v).cfg = s.cfg := rfl
@[simp] theorem State.withRight_inCount (v : List (Nat × Idx)) : (s.withRight v).inCount = s.inCount := rfl
@[simp] theorem State.withRight_outCount (v : List (Nat × Idx)) : (s.withRight v).outCount = s.outCount := rfl
@[simp] theorem State.withRight_par (v : List (Nat × Idx)) : (s.withRight v).par = s.par := rfl
@[simp] theorem State.withRight_win (v : List (Nat × Idx)) : (s.withRight v).win = s.win := rfl
@[simp] theorem State.withRight_left (v : List (Nat × Idx)) : (s.withRight v).left = s.left := rfl
@[simp] theorem State.withRight_right (v : List (Nat × Idx)) : (s.withRight v).right = v := rfl
@[simp] theorem State.withRight_parent (v : List (Nat × Idx)) : (s.withRight v).parent = s.parent := rfl
@[simp] theorem State.withRight_found (v : List (Nat × Idx)) : (s.withRight v).found = s.found := rfl
@[simp] theorem State.withRight_enc (v : List (Nat × Idx)) : (s.withRight v).enc = s.enc := rfl
@[simp] theorem State.withRight_walk (v : List (Nat × Idx)) : (s.withRight v).walk = s.walk := rfl
@[simp] theorem State.withRight_dec (v : List (Nat × Idx)) : (s.withRight v).dec = s.dec := rfl
@[simp] theorem State.withRight_inEof (v : List (Nat × Idx)) : (s.withRight v).inEof = s.inEof := rfl
@[simp] theorem State.withRight_seq (v : List (Nat × Idx)) : (s.withRight v).seq = s.seq := rfl
@[simp] theorem State.withRight_seg (v : List (Nat × Idx)) : (s.withRight v).seg = s.seg := rfl
@[simp] theorem State.withRight_outIdx (v : List (Nat × Idx)) : (s.withRight v).outIdx = s.outIdx := rfl
@[simp] theorem State.withRight_host (v : List (Nat × Idx)) : (s.withRight v).host = s.host := rfl
@[simp] theorem State.withRight_withRight (v w : List (Nat × Idx)) : (s.withRight v).withRight w = s.withRight w := rfl
@[simp] theorem State.withRight_self : s.withRight s.right = s := rfl

/-! withParent -/

@[simp] theorem State.withParent_status (v : List (Nat × Idx)) : (s.withParent v).status = s.status := rfl
@[simp] theorem State.withParent_cfg (v : List (Nat × Idx)) : (s.withParent v).cfg = s.cfg := rfl
@[simp] theorem State.withParent_inCount (v : List (Nat × Idx)) : (s.withParent v).inCount = s.inCount := rfl
@[simp] theorem State.withParent_outCount (v : List (Nat × Idx)) : (s.withParent v).outCount = s.outCount := rfl
@[simp] theorem State.withParent_par (v : List (Nat × Idx)) : (s.withParent v).par = s.par := rfl
@[simp] theorem State.withParent_win (v : List (Nat × Idx)) : (s.withParent v).win = s.win := rfl
@[simp] theorem State.withParent_left (v : List (Nat × Idx)) : (s.withParent v).left = s.left := rfl
@[simp] theorem State.withParent_right (v : List (Nat × Idx)) : (s.withParent v).right = s.right := rfl
@[simp] theorem State.withParent_parent (v : List (Nat × Idx)) : (s.withParent v).parent = v := rfl
@[simp] theorem State.withParent_found (v : List (Nat × Idx)) : (s.withParent v).found = s.found := rfl
@[simp] theorem State.withParent_enc (v : List (Nat × Idx)) : (s.withParent v).enc = s.enc := rfl
@[simp] theorem State.withParent_walk (v : List (Nat × Idx)) : (s.withParent v).walk = s.walk := rfl
@[simp] theorem State.withParent_dec (v : List (Nat × Idx)) : (s.withParent v).dec = s.dec := rfl
@[simp] theorem State.withParent_inEof (v : List (Nat × Idx)) : (s.withParent v).inEof = s.inEof := rfl
@[simp] theorem State.withParent_seq (v : List (Nat × Idx)) : (s.withParent v).seq = s.seq := rfl
@[simp] theorem State.withParent_seg (v : List (Nat × Idx)) : (s.withParent v).seg = s.seg := rfl
@[simp] theorem State.withParent_outIdx (v : List (Nat × Idx)) : (s.withParent v).outIdx = s.outIdx := rfl
@[simp] theorem State.withParent_host (v : List (Nat × Idx)) : (s.withParent v).host = s.host := rfl
@[simp] theorem State.withParent_withParent (v w : List (Nat × Idx)) : (s.withParent v).withParent w = s.withParent w := rfl
@[simp] theorem State.withParent_self : s.withParent s.parent = s := rfl

/-! withFound -/

@[simp] theorem State.withFound_status (v : MatchState) : (s.withFound v).status = s.status := rfl
@[simp] theorem State.withFound_cfg (v : MatchState) : (s.withFound v).cfg = s.cfg := rfl
@[simp] theorem State.withFound_inCount (v : MatchState) : (s.withFound v).inCount = s.inCount := rfl
@[simp] theorem State.withFound_outCount (v : MatchState) : (s.withFound v).outCount = s.outCount := rfl
@[simp] theorem State.withFound_par (v : MatchState) : (s.withFound v).par = s.par := rfl
@[simp] theorem State.withFound_win (v : MatchState) : (s.withFound v).win = s.win := rfl
@[simp] theorem State.withFound_left (v : MatchState) : (s.withFound v).left = s.left := rfl
@[simp] theorem State.withFound_right (v : MatchState) : (s.withFound v).right = s.right := rfl
@[simp] theorem State.withFound_parent (v : MatchState) : (s.withFound v).parent = s.parent := rfl
@[simp] theorem State.withFound_found (v : MatchState) : (s.withFound v).found = v := rfl
@[simp] theorem State.withFound_enc (v : MatchState) : (s.withFound v).enc = s.enc := rfl
@[simp] theorem State.withFound_walk (v : MatchState) : (s.withFound v).walk = s.walk := rfl
@[simp] theorem State.withFound_dec (v : MatchState) : (s.withFound v).dec = s.dec := rfl
@[simp] theorem State.withFound_inEof (v : MatchState) : (s.withFound v).inEof = s.inEof := rfl
@[simp] theorem State.withFound_seq (v : MatchState) : (s.withFound v).seq = s.seq := rfl
@[simp] theorem State.withFound_seg (v : MatchState) : (s.withFound v).seg = s.seg := rfl
@[simp] theorem State.withFound_outIdx (v : MatchState) : (s.withFound v).outIdx = s.outIdx := rfl
@[simp] theorem State.withFound_host (v : MatchState) : (s.withFound v).host = s.host := rfl
@[simp] theorem State.withFound_withFound (v w : MatchState) : (s.withFound v).withFound w = s.withFound w := rfl
@[simp] theorem State.withFound_self : s.withFound s.found = s := rfl

/-! withEnc -/

@[simp] theorem State.withEnc_status (v : Encoder) : (s.withEnc v).status = s.status := rfl
@[simp] theorem State.withEnc_cfg (v : Encoder) : (s.withEnc v).cfg = s.cfg := rfl
@[simp] theorem State.withEnc_inCount (v : Encoder) : (s.withEnc v).inCount = s.inCount := rfl
@[simp] theorem State.withEnc_outCount (v : Encoder) : (s.withEnc v).outCount = s.outCount := rfl
@[simp] theorem State.withEnc_par (v : Encoder) : (s.withEnc v).par = s.par := rfl
@[simp] theorem State.withEnc_win (v : Encoder) : (s.withEnc v).win = s.win := rfl
@[simp] theorem State.withEnc_left (v : Encoder) : (s.withEnc v).left = s.left := rfl
@[simp] theorem State.withEnc_right (v : Encoder) : (s.withEnc v).right = s.right := rfl
@[simp] theorem State.withEnc_parent (v : Encoder) : (s.withEnc v).parent = s.parent := rfl
@[simp] theorem State.withEnc_found (v : Encoder) : (s.withEnc v).found = s.found := rfl
@[simp] theorem State.withEnc_enc (v : Encoder) : (s.withEnc v).enc = v := rfl
@[simp] theorem State.withEnc_walk (v : Encoder) : (s.withEnc v).walk = s.walk := rfl
@[simp] theorem State.withEnc_dec (v : Encoder) : (s.withEnc v).dec = s.dec := rfl
@[simp] theorem State.withEnc_inEof (v : Encoder) : (s.withEnc v).inEof = s.inEof := rfl
@[simp] theorem State.withEnc_seq (v : Encoder) : (s.withEnc v).seq = s.seq := rfl
@[simp] theorem State.withEnc_seg (v : Encoder) : (s.withEnc v).seg = s.seg := rfl
@[simp] theorem State.withEnc_outIdx (v : Encoder) : (s.withEnc v).outIdx = s.outIdx := rfl
@[simp] theorem State.withEnc_host (v : Encoder) : (s.withEnc v).host = s.host := rfl
@[simp] theorem State.withEnc_withEnc (v w : Encoder) : (s.withEnc v).withEnc w = s.withEnc w := rfl
@[simp] theorem State.withEnc_self : s.withEnc s.enc = s := rfl

/-! withWalk -/

@[simp] theorem State.withWalk_status (v : Walk) : (s.withWalk v).status = s.status := rfl
@[simp] theorem State.withWalk_cfg (v : Walk) : (s.withWalk v).cfg = s.cfg := rfl
@[simp] theorem State.withWalk_inCount (v : Walk) : (s.withWalk v).inCount = s.inCount := rfl
@[simp] theorem State.withWalk_outCount (v : Walk) : (s.withWalk v).outCount = s.outCount := rfl
@[simp] theorem State.withWalk_par (v : Walk) : (s.withWalk v).par = s.par := rfl
@[simp] theorem State.withWalk_win (v : Walk) : (s.withWalk v).win = s.win := rfl
@[simp] theorem State.withWalk_left (v : Walk) : (s.withWalk v).left = s.left := rfl
@[simp] theorem State.withWalk_right (v : Walk) : (s.withWalk v).right = s.right := rfl
@[simp] theorem State.withWalk_parent (v : Walk) : (s.withWalk v).parent = s.parent := rfl
@[simp] theorem State.withWalk_found (v : Walk) : (s.withWalk v).found = s.found := rfl
@[simp] theorem State.withWalk_enc (v : Walk) : (s.withWalk v).enc = s.enc := rfl
@[simp] theorem State.withWalk_walk (v : Walk) : (s.withWalk v).walk = v := rfl
@[simp] theorem State.withWalk_dec (v : Walk) : (s.withWalk v).dec = s.dec := rfl
@[simp] theorem State.withWalk_inEof (v : Walk) : (s.withWalk v).inEof = s.inEof := rfl
@[simp] theorem State.withWalk_seq (v : Walk) : (s.withWalk v).seq = s.seq := rfl
@[simp] theorem State.withWalk_seg (v : Walk) : (s.withWalk v).seg = s.seg := rfl
@[simp] theorem State.withWalk_outIdx (v : Walk) : (s.withWalk v).outIdx = s.outIdx := rfl
@[simp] theorem State.withWalk_host (v : Walk) : (s.withWalk v).host = s.host := rfl
@[simp] theorem State.withWalk_withWalk (v w : Walk) : (s.withWalk v).withWalk w = s.withWalk w := rfl
@[simp] theorem State.withWalk_self : s.withWalk s.walk = s := rfl

/-! withDec -/

@[simp] theorem State.withDec_status (v : Decoder) : (s.withDec v).status = s.status := rfl
@[simp] theorem State.withDec_cfg (v : Decoder) : (s.withDec v).cfg = s.cfg := rfl
@[simp] theorem State.withDec_inCount (v : Decoder) : (s.withDec v).inCount = s.inCount := rfl
@[simp] theorem State.withDec_outCount (v : Decoder) : (s.withDec v).outCount = s.outCount := rfl
@[simp] theorem State.withDec_par (v : Decoder) : (s.withDec v).par = s.par := rfl
@[simp] theorem State.withDec_win (v : Decoder) : (s.withDec v).win = s.win := rfl
@[simp] theorem State.withDec_left (v : Decoder) : (s.withDec v).left = s.left := rfl
@[simp] theorem State.withDec_right (v : Decoder) : (s.withDec v).right = s.right := rfl
@[simp] theorem State.withDec_parent (v : Decoder) : (s.withDec v).parent = s.parent := rfl
@[simp] theorem State.withDec_found (v : Decoder) : (s.withDec v).found = s.found := rfl
@[simp] theorem State.withDec_enc (v : Decoder) : (s.withDec v).enc = s.enc := rfl
@[simp] theorem State.withDec_walk (v : Decoder) : (s.withDec v).walk = s.walk := rfl
@[simp] theorem State.withDec_dec (v : Decoder) : (s.withDec v).dec = v := rfl
@[simp] theorem State.withDec_inEof (v : Decoder) : (s.withDec v).inEof = s.inEof := rfl
@[simp] theorem State.withDec_seq (v : Decoder) : (s.withDec v).seq = s.seq := rfl
@[simp] theorem State.withDec_seg (v : Decoder) : (s.withDec v).seg = s.seg := rfl
@[simp] theorem State.withDec_outIdx (v : Decoder) : (s.withDec v).outIdx = s.outIdx := rfl
@[simp] theorem State.withDec_host (v : Decoder) : (s.withDec v).host = s.host := rfl
@[simp] theorem State.withDec_withDec (v w : Decoder) : (s.withDec v).withDec w = s.withDec w := rfl
@[simp] theorem State.withDec_self : s.withDec s.dec = s := rfl

/-! withInEof -/

@[simp] theorem State.withInEof_status (v : Bool) : (s.withInEof v).status = s.status := rfl
@[simp] theorem State.withInEof_cfg (v : Bool) : (s.withInEof v).cfg = s.cfg := rfl
@[simp] theorem State.withInEof_inCount (v : Bool) : (s.withInEof v).inCount = s.inCount := rfl
@[simp] theorem State.withInEof_outCount (v : Bool) : (s.withInEof v).outCount = s.outCount := rfl
@[simp] theorem State.withInEof_par (v : Bool) : (s.withInEof v).par = s.par := rfl
@[simp] theorem State.withInEof_win (v : Bool) : (s.withInEof v).win = s.win := rfl
@[simp] theorem State.withInEof_left (v : Bool) : (s.withInEof v).left = s.left := rfl
@[simp] theorem State.withInEof_right (v : Bool) : (s.withInEof v).right = s.right := rfl
@[simp] theorem State.withInEof_parent (v : Bool) : (s.withInEof v).parent = s.parent := rfl
@[simp] theorem State.withInEof_found (v : Bool) : (s.withInEof v).found = s.found := rfl
@[simp] theorem State.withInEof_enc (v : Bool) : (s.withInEof v).enc = s.enc := rfl
@[simp] theorem State.withInEof_walk (v : Bool) : (s.withInEof v).walk = s.walk := rfl
@[simp] theorem State.withInEof_dec (v : Bool) : (s.withInEof v).dec = s.dec := rfl
@[simp] theorem State.withInEof_inEof (v : Bool) : (s.withInEof v).inEof = v := rfl
@[simp] theorem State.withInEof_seq (v : Bool) : (s.withInEof v).seq = s.seq := rfl
@[simp] theorem State.withInEof_seg (v : Bool) : (s.withInEof v).seg = s.seg := rfl
@[simp] theorem State.withInEof_outIdx (v : Bool) : (s.withInEof v).outIdx = s.outIdx := rfl
@[simp] theorem State.withInEof_host (v : Bool) : (s.withInEof v).host = s.host := rfl
@[simp] theorem State.withInEof_withInEof (v w : Bool) : (s.withInEof v).withInEof w = s.withInEof w := rfl
@[simp] theorem State.withInEof_self : s.withInEof s.inEof = s := rfl

/-! goto -/

@[simp] theorem State.goto_status (v : Seq) : (s.goto v).status = s.status := rfl
@[simp] theorem State.goto_cfg (v : Seq) : (s.goto v).cfg = s.cfg := rfl
@[simp] theorem State.goto_inCount (v : Seq) : (s.goto v).inCount = s.inCount := rfl
@[simp] theorem State.goto_outCount (v : Seq) : (s.goto v).outCount = s.outCount := rfl
@[simp] theorem State.goto_par (v : Seq) : (s.goto v).par = s.par := rfl
@[simp] theorem State.goto_win (v : Seq) : (s.goto v).win = s.win := rfl
@[simp] theorem State.goto_left (v : Seq) : (s.goto v).left = s.left := rfl
@[simp] theorem State.goto_right (v : Seq) : (s.goto v).right = s.right := rfl
@[simp] theorem State.goto_parent (v : Seq) : (s.goto v).parent = s.parent := rfl
@[simp] theorem State.goto_found (v : Seq) : (s.goto v).found = s.found := rfl
@[simp] theorem State.goto_enc (v : Seq) : (s.goto v).enc = s.enc := rfl
@[simp] theorem State.goto_walk (v : Seq) : (s.goto v).walk = s.walk := rfl
@[simp] theorem State.goto_dec (v : Seq) : (s.goto v).dec = s.dec := rfl
@[simp] theorem State.goto_inEof (v : Seq) : (s.goto v).inEof = s.inEof := rfl
@[simp] theorem State.goto_seq (v : Seq) : (s.goto v).seq = v := rfl
@[simp] theorem State.goto_seg (v : Seq) : (s.goto v).seg = s.seg := rfl
@[simp] theorem State.goto_outIdx (v : Seq) : (s.goto v).outIdx = s.outIdx := rfl
@[simp] theorem State.goto_host (v : Seq) : (s.goto v).host = s.host := rfl
@[simp] theorem State.goto_goto (v w : Seq) : (s.goto v).goto w = s.goto w := rfl
@[simp] theorem State.goto_self : s.goto s.seq = s := rfl

/-! withSeg -/

@[simp] theorem State.withSeg_status (v : List Byte) : (s.withSeg v).status = s.status := rfl
@[simp] theorem State.withSeg_cfg (v : List Byte) : (s.withSeg v).cfg = s.cfg := rfl
@[simp] theorem State.withSeg_inCount (v : List Byte) : (s.withSeg v).inCount = s.inCount := rfl
@[simp] theorem State.withSeg_outCount (v : List Byte) : (s.withSeg v).outCount = s.outCount := rfl
@[simp] theorem State.withSeg_par (v : List Byte) : (s.withSeg v).par = s.par := rfl
@[simp] theorem State.withSeg_win (v : List Byte) : (s.withSeg v).win = s.win := rfl
@[simp] theorem State.withSeg_left (v : List Byte) : (s.withSeg v).left = s.left := rfl
@[simp] theorem State.withSeg_right (v : List Byte) : (s.withSeg v).right = s.right := rfl
@[simp] theorem State.withSeg_parent (v : List Byte) : (s.withSeg v).parent = s.parent := rfl
@[simp] theorem State.withSeg_found (v : List Byte) : (s.withSeg v).found = s.found := rfl
@[simp] theorem State.withSeg_enc (v : List Byte) : (s.withSeg v).enc = s.enc := rfl
@[simp] theorem State.withSeg_walk (v : List Byte) : (s.withSeg v).walk = s.walk := rfl
@[simp] theorem State.withSeg_dec (v : List Byte) : (s.withSeg v).dec = s.dec := rfl
@[simp] theorem State.withSeg_inEof (v : List Byte) : (s.withSeg v).inEof = s.inEof := rfl
@[simp] theorem State.withSeg_seq (v : List Byte) : (s.withSeg v).seq = s.seq := rfl
@[simp] theorem State.withSeg_seg (v : List Byte) : (s.withSeg v).seg = v := rfl
@[simp] theorem State.withSeg_outIdx (v : List Byte) : (s.withSeg v).outIdx = s.outIdx := rfl
@[simp] theorem State.withSeg_host (v : List Byte) : (s.withSeg v).host = s.host := rfl
@[simp] theorem State.withSeg_withSeg (v w : List Byte) : (s.withSeg v).withSeg w = s.withSeg w := rfl
@[simp] theorem State.withSeg_self : s.withSeg s.seg = s := rfl

/-! withOutIdx -/

@[simp] theorem State.withOutIdx_status (v : BitVec 12) : (s.withOutIdx v).status = s.status := rfl
@[simp] theorem State.withOutIdx_cfg (v : BitVec 12) : (s.withOutIdx v).cfg = s.cfg := rfl
@[simp] theorem State.withOutIdx_inCount (v : BitVec 12) : (s.withOutIdx v).inCount = s.inCount := rfl
@[simp] theorem State.withOutIdx_outCount (v : BitVec 12) : (s.withOutIdx v).outCount = s.outCount := rfl
@[simp] theorem State.withOutIdx_par (v : BitVec 12) : (s.withOutIdx v).par = s.par := rfl
@[simp] theorem State.withOutIdx_win (v : BitVec 12) : (s.withOutIdx v).win = s.win := rfl
@[simp] theorem State.withOutIdx_left (v : BitVec 12) : (s.withOutIdx v).left = s.left := rfl
@[simp] theorem State.withOutIdx_right (v : BitVec 12) : (s.withOutIdx v).right = s.right := rfl
@[simp] theorem State.withOutIdx_parent (v : BitVec 12) : (s.withOutIdx v).parent = s.parent := rfl
@[simp] theorem State.withOutIdx_found (v : BitVec 12) : (s.withOutIdx v).found = s.found := rfl
@[simp] theorem State.withOutIdx_enc (v : BitVec 12) : (s.withOutIdx v).enc = s.enc := rfl
@[simp] theorem State.withOutIdx_walk (v : BitVec 12) : (s.withOutIdx v).walk = s.walk := rfl
@[simp] theorem State.withOutIdx_dec (v : BitVec 12) : (s.withOutIdx v).dec = s.dec := rfl
@[simp] theorem State.withOutIdx_inEof (v : BitVec 12) : (s.withOutIdx v).inEof = s.inEof := rfl
@[simp] theorem State.withOutIdx_seq (v : BitVec 12) : (s.withOutIdx v).seq = s.seq := rfl
@[simp] theorem State.withOutIdx_seg (v : BitVec 12) : (s.withOutIdx v).seg = s.seg := rfl
@[simp] theorem State.withOutIdx_outIdx (v : BitVec 12) : (s.withOutIdx v).outIdx = v := rfl
@[simp] theorem State.withOutIdx_host (v : BitVec 12) : (s.withOutIdx v).host = s.host := rfl
@[simp] theorem State.withOutIdx_withOutIdx (v w : BitVec 12) : (s.withOutIdx v).withOutIdx w = s.withOutIdx w := rfl
@[simp] theorem State.withOutIdx_self : s.withOutIdx s.outIdx = s := rfl

/-! withHost -/

@[simp] theorem State.withHost_status (v : HostSide) : (s.withHost v).status = s.status := rfl
@[simp] theorem State.withHost_cfg (v : HostSide) : (s.withHost v).cfg = s.cfg := rfl
@[simp] theorem State.withHost_inCount (v : HostSide) : (s.withHost v).inCount = s.inCount := rfl
@[simp] theorem State.withHost_outCount (v : HostSide) : (s.withHost v).outCount = s.outCount := rfl
@[simp] theorem State.withHost_par (v : HostSide) : (s.withHost v).par = s.par := rfl
@[simp] theorem State.withHost_win (v : HostSide) : (s.withHost v).win = s.win := rfl
@[simp] theorem State.withHost_left (v : HostSide) : (s.withHost v).left = s.left := rfl
@[simp] theorem State.withHost_right (v : HostSide) : (s.withHost v).right = s.right := rfl
@[simp] theorem State.withHost_parent (v : HostSide) : (s.withHost v).parent = s.parent := rfl
@[simp] theorem State.withHost_found (v : HostSide) : (s.withHost v).found = s.found := rfl
@[simp] theorem State.withHost_enc (v : HostSide) : (s.withHost v).enc = s.enc := rfl
@[simp] theorem State.withHost_walk (v : HostSide) : (s.withHost v).walk = s.walk := rfl
@[simp] theorem State.withHost_dec (v : HostSide) : (s.withHost v).dec = s.dec := rfl
@[simp] theorem State.withHost_inEof (v : HostSide) : (s.withHost v).inEof = s.inEof := rfl
@[simp] theorem State.withHost_seq (v : HostSide) : (s.withHost v).seq = s.seq := rfl
@[simp] theorem State.withHost_seg (v : HostSide) : (s.withHost v).seg = s.seg := rfl
@[simp] theorem State.withHost_outIdx (v : HostSide) : (s.withHost v).outIdx = s.outIdx := rfl
@[simp] theorem State.withHost_host (v : HostSide) : (s.withHost v).host = v := rfl
@[simp] theorem State.withHost_withHost (v w : HostSide) : (s.withHost v).withHost w = s.withHost w := rfl
@[simp] theorem State.withHost_self : s.withHost s.host = s := rfl

end Sys2Proof.Machine
end

