-- ==== Sys2Proof/Laws/Ops.lean ====
section
/-! SUPPORT. One lemma for each shared operation that says everything it can do, for proofs to cite instead of unfolding
it: the window, the links, the group buffer, the ports, and the end of a command or session. -/

namespace Sys2Proof.Machine

/-- What a sequence of two operations does when it answers. -/
theorem bind_ok {ε α β : Type} {x : Except ε α} {f : α → Except ε β} {b : β} :
    (x >>= f) = .ok b ↔ ∃ a, x = .ok a ∧ f a = .ok b := by
  cases x with
  | error e => constructor <;> intro h <;> simp_all [bind, Except.bind]
  | ok a => simp [bind, Except.bind]

/-- An outcome is a next state exactly when the operation answers it. -/
@[simp] theorem outcomeOf_next {x : Except Fault State} {t : State} : outcomeOf x = .next t ↔ x = .ok t := by
  cases x <;> simp [outcomeOf]

/-! The window. -/

theorem winRead_ok {s : State} {i : Nat} {v : Byte} :
    winRead s i = .ok v ↔ i < s.par.winSize ∧ Memory.read s.win i = some v := by
  unfold winRead
  split
  · next h => cases hm : Memory.read s.win i <;> simp [h]
  · next h => simp [h]

theorem winWrite_ok {s t : State} {i : Nat} {v : Byte} :
    winWrite s i v = .ok t ↔ i < s.par.winSize ∧ t = s.withWin (Memory.write s.win i v) := by
  unfold winWrite
  split
  · next h => simp [h, eq_comm]
  · next h => simp [h]

/-- Key stability, cell by cell: every PARENT that the session has written, of a position whose key holds `a`, is NIL. -/
theorem keyFree_iff {s : State} {a : Nat} :
    keyFree s a = true ↔ ∀ k < s.par.f.toNat, ∀ up,
      Memory.read s.parent (s.par.wrap (a + s.par.n.toNat - k)) = some up → up = BitVec.ofNat 13 s.par.nil := by
  simp only [keyFree, List.all_eq_true, List.mem_range]
  refine forall₂_congr fun k _ => ?_
  unfold absentFromTrees
  cases Memory.read s.parent (s.par.wrap (a + s.par.n.toNat - k)) <;> simp

/-- WIN_SET_MIRROR: the cell, its copy in the tail when it has one, and nothing else. -/
theorem winSetMirror_ok {s t : State} {a : Nat} {c : Byte} (h : winSetMirror s a c = .ok t) :
    a < s.par.n.toNat ∧ keyFree s a = true ∧
      t = s.withWin (if a < s.par.f.toNat - 1 then
        Memory.write (Memory.write s.win a c) (a + s.par.n.toNat) c else Memory.write s.win a c) := by
  unfold winSetMirror at h
  split at h
  · cases h
  · next ha =>
    split at h
    · next hk =>
      obtain ⟨u, hu, h⟩ := bind_ok.1 h
      obtain ⟨-, rfl⟩ := winWrite_ok.1 hu
      refine ⟨not_le.1 ha, hk, ?_⟩
      replace h : (if a < s.par.f.toNat - 1 then
          winWrite (s.withWin (Memory.write s.win a c)) (a + s.par.n.toNat) c
        else .ok (s.withWin (Memory.write s.win a c))) = .ok t := h
      by_cases hf : a < s.par.f.toNat - 1
      · rw [if_pos hf] at h ⊢
        exact (winWrite_ok.1 h).2
      · rw [if_neg hf] at h ⊢
        cases h
        rfl
    · cases h

/-! The links. -/

theorem linkRead_ok {k : Link} {s : State} {i v : Nat} :
    linkRead k s i = .ok v ↔ i < s.par.treeSize ∧ ∃ x, Memory.read (s.links k) i = some x ∧ x.toNat = v := by
  unfold linkRead
  split
  · next h => cases hm : Memory.read (s.links k) i <;> simp [h]
  · next h => simp [h]

theorem linkWrite_ok {k : Link} {s t : State} {i v : Nat} :
    linkWrite k s i v = .ok t ↔
      i < s.par.treeSize ∧ t = s.withLinks k (Memory.write (s.links k) i (BitVec.ofNat 13 v)) := by
  unfold linkWrite
  split
  · next h => simp [h, eq_comm]
  · next h => simp [h]

/-! The group buffer. -/

theorem groupRead_ok {s : State} {i : Nat} {v : Byte} :
    groupRead s i = .ok v ↔ ∃ h : i < 17, s.enc.cb[i] = v := by
  unfold groupRead
  by_cases h : i < 17
  · simp [h, Config.groupCells, Vector.get_eq_getElem]
  · simp [h, Config.groupCells]

theorem groupWrite_ok {s t : State} {i : Nat} {v : Byte} :
    groupWrite s i v = .ok t ↔ ∃ h : i < 17, t = s.withEnc { s.enc with cb := s.enc.cb.set i v h } := by
  unfold groupWrite
  by_cases h : i < 17
  · simp [h, Config.groupCells, eq_comm]
  · simp [h, Config.groupCells]

/-! The ports. -/

/-- `InRead` waits exactly when IN_EOF is 0 and no item is offered. -/
theorem inRead_wait {s : State} : inRead s = .wait ↔ s.inEof = false ∧ s.host.input = [] := by
  unfold inRead
  cases s.inEof with
  | true => simp
  | false => rcases s.host.input with _ | ⟨_ | _, _⟩ <;> simp

/-- `InRead` returns a byte exactly when IN_EOF is 0 and the first item offered is that byte. -/
theorem inRead_byte {s t : State} {b : Byte} :
    inRead s = .byte b t ↔ s.inEof = false ∧ ∃ rest, s.host.input = .byte b :: rest ∧
      t = (s.withHost { s.host with input := rest }).withInCount (s.inCount + 1) := by
  unfold inRead
  cases s.inEof with
  | true => simp
  | false =>
    rcases s.host.input with _ | ⟨_ | _, _⟩
    · simp
    · simp only [Bool.false_eq_true, if_false, Taken.byte.injEq, List.cons.injEq, Item.byte.injEq, true_and]
      constructor
      · rintro ⟨rfl, rfl⟩
        exact ⟨_, ⟨rfl, rfl⟩, rfl⟩
      · rintro ⟨_, ⟨rfl, rfl⟩, rfl⟩
        exact ⟨rfl, rfl⟩
    · simp

/-- `InRead` returns `EOF` with IN_EOF already 1 and nothing taken, or by taking the end marker. -/
theorem inRead_eof {s t : State} :
    inRead s = .eof t ↔ (s.inEof = true ∧ t = s) ∨ (s.inEof = false ∧ ∃ rest, s.host.input = .eof :: rest ∧
      t = (s.withHost { s.host with input := rest }).withInEof true) := by
  unfold inRead
  cases s.inEof with
  | true => simp [eq_comm]
  | false => rcases s.host.input with _ | ⟨_ | _, _⟩ <;> simp [eq_comm]

theorem outWrite_none {s : State} {b : Byte} : outWrite b s = none ↔ s.host.credit = 0 := by
  unfold outWrite
  cases s.host.credit <;> simp

theorem outWrite_some {s t : State} {b : Byte} :
    outWrite b s = some t ↔ ∃ n, s.host.credit = n + 1 ∧
      t = (s.withHost { s.host with credit := n, output := s.host.output ++ [b] }).withOutCount (s.outCount + 1) := by
  unfold outWrite
  cases h : s.host.credit <;> simp [eq_comm]

/-! A byte of the decoder's output. -/

/-- Waiting for the host, or the byte is out, in the window, and the cursor is past it. -/
theorem emitByte_ok {c : Byte} {after : State → State} {s t : State} (h : emitByte c after s = .ok t) :
    (s.host.credit = 0 ∧ t = s) ∨
    (∃ n, s.host.credit = n + 1 ∧ s.par.wrap s.dec.wr.toNat < s.par.winSize ∧
      t = after (advanceWrite
        (((s.withHost { s.host with credit := n, output := s.host.output ++ [c] }).withOutCount (s.outCount + 1)).withWin
          (Memory.write s.win (s.par.wrap s.dec.wr.toNat) c)))) := by
  unfold emitByte at h
  split at h
  · next ho => cases h; exact .inl ⟨outWrite_none.1 ho, rfl⟩
  · next u ho =>
    obtain ⟨n, hn, rfl⟩ := outWrite_some.1 ho
    obtain ⟨v, hv, h⟩ := bind_ok.1 h
    obtain ⟨hi, rfl⟩ := winWrite_ok.1 hv
    cases h
    exact .inr ⟨n, hn, hi, rfl⟩

/-- A byte goes out when the host accepts one and the cursor is in the window. -/
theorem emitByte_completes {c : Byte} {after : State → State} {s : State} {n : Nat} (hn : s.host.credit = n + 1)
    (hi : s.par.wrap s.dec.wr.toNat < s.par.winSize) :
    emitByte c after s = .ok (after (advanceWrite
        (((s.withHost { s.host with credit := n, output := s.host.output ++ [c] }).withOutCount (s.outCount + 1)).withWin
          (Memory.write s.win (s.par.wrap s.dec.wr.toNat) c)))) := by
  have ho := (outWrite_some (s := s) (b := c)).2 ⟨n, hn, rfl⟩
  unfold emitByte
  rw [ho]
  exact bind_ok.2 ⟨_, winWrite_ok.2 ⟨hi, rfl⟩, rfl⟩

/-! A write to CMD. -/

/-- Everything a write to CMD can do, in the order of the checks. -/
theorem commandWrite_cases (v : Word) (s : State) :
    (s.status.busy = true ∧ v = 0 ∧ commandWrite v s = s) ∨
    (s.status.busy = true ∧ v ≠ 0 ∧ commandWrite v s = s.withStatus { s.status with ign := true }) ∨
    (s.status.busy = false ∧ v = 0 ∧ commandWrite v s = s) ∨
    (s.status.busy = false ∧ v ≠ 0 ∧ (v ≠ 1 ∧ v ≠ 2) ∧ commandWrite v s = raiseError .illegalCmd (clearResult s)) ∨
    (s.status.busy = false ∧ (v = 1 ∨ v = 2) ∧ s.cfg.valid = false ∧
      commandWrite v s = raiseError .configInvalid (clearResult s)) ∨
    (s.status.busy = false ∧ (v = 1 ∨ v = 2) ∧ s.cfg.valid = true ∧ s.cfg.mode ≠ commandMode v ∧
      commandWrite v s = raiseError .modeMismatch (clearResult s)) ∨
    (s.status.busy = false ∧ (v = 1 ∨ v = 2) ∧ s.cfg.valid = true ∧ s.cfg.mode = commandMode v ∧
      commandWrite v s = startSession (commandMode v) (clearResult s)) := by
  cases hb : s.status.busy with
  | true =>
    by_cases h0 : v = 0
    · exact .inl ⟨rfl, h0, by simp only [commandWrite, hb, h0, if_true, ne_eq, not_true, if_false]⟩
    · exact .inr (.inl ⟨rfl, h0, by simp only [commandWrite, hb, h0, if_true, ne_eq, not_false_iff]⟩)
  | false =>
    have hcmd : commandWrite v s = if v = 0 then s else
        if v ≠ 1 ∧ v ≠ 2 then raiseError .illegalCmd (clearResult s)
        else if s.cfg.valid = false then raiseError .configInvalid (clearResult s)
        else if s.cfg.mode ≠ commandMode v then raiseError .modeMismatch (clearResult s)
        else startSession (commandMode v) (clearResult s) := by
      simp only [commandWrite, hb, Bool.false_eq_true, if_false]
      rfl
    rw [hcmd]
    by_cases h0 : v = 0
    · exact .inr (.inr (.inl ⟨rfl, h0, if_pos h0⟩))
    · rw [if_neg h0]
      by_cases h12 : v ≠ 1 ∧ v ≠ 2
      · exact .inr (.inr (.inr (.inl ⟨rfl, h0, h12, if_pos h12⟩)))
      · have h12' : v = 1 ∨ v = 2 := by tauto
        rw [if_neg h12]
        cases hv : s.cfg.valid with
        | false => exact .inr (.inr (.inr (.inr (.inl ⟨rfl, h12', rfl, if_pos rfl⟩))))
        | true =>
          rw [if_neg (by decide)]
          by_cases hm : s.cfg.mode = commandMode v
          · exact .inr (.inr (.inr (.inr (.inr (.inr ⟨rfl, h12', rfl, hm, if_neg (not_not.2 hm)⟩)))))
          · exact .inr (.inr (.inr (.inr (.inr (.inl ⟨rfl, h12', rfl, hm, if_pos hm⟩)))))

end Sys2Proof.Machine
end

