-- ==== Sys2Proof/Laws/MatchFinder.lean ====
section
/-! SUPPORT. The frame of the match finder: MF_INSERT and MF_REMOVE change the link arrays, the walk temporaries and the
match state, and nothing else (spec/41_match_finder.md R164 to R171); MF_REMOVE does not change the match state
(R169). -/

namespace Sys2Proof.Machine

/-- `t` is `s` but for the link arrays, the walk temporaries and the match state. -/
structure SameButTrees (s t : State) : Prop where
  status : t.status = s.status
  cfg : t.cfg = s.cfg
  inCount : t.inCount = s.inCount
  outCount : t.outCount = s.outCount
  par : t.par = s.par
  win : t.win = s.win
  enc : t.enc = s.enc
  dec : t.dec = s.dec
  inEof : t.inEof = s.inEof
  seq : t.seq = s.seq
  seg : t.seg = s.seg
  outIdx : t.outIdx = s.outIdx
  host : t.host = s.host

/-- `t` is `s` but for the link arrays and the walk temporaries. -/
def SameButLinks (s t : State) : Prop :=
  SameButTrees s t ∧ t.found = s.found

theorem SameButTrees.refl (s : State) : SameButTrees s s := ⟨rfl, rfl, rfl, rfl, rfl, rfl, rfl, rfl, rfl, rfl, rfl, rfl, rfl⟩

theorem SameButTrees.trans {s t u : State} (h : SameButTrees s t) (k : SameButTrees t u) : SameButTrees s u :=
  ⟨k.status.trans h.status,
   k.cfg.trans h.cfg,
   k.inCount.trans h.inCount,
   k.outCount.trans h.outCount,
   k.par.trans h.par,
   k.win.trans h.win,
   k.enc.trans h.enc,
   k.dec.trans h.dec,
   k.inEof.trans h.inEof,
   k.seq.trans h.seq,
   k.seg.trans h.seg,
   k.outIdx.trans h.outIdx,
   k.host.trans h.host⟩

theorem SameButTrees.ofWalk (s : State) (w : Walk) : SameButTrees s (s.withWalk w) := ⟨rfl, rfl, rfl, rfl, rfl, rfl, rfl, rfl, rfl, rfl, rfl, rfl, rfl⟩

theorem SameButTrees.ofFound (s : State) (m : MatchState) : SameButTrees s (s.withFound m) := ⟨rfl, rfl, rfl, rfl, rfl, rfl, rfl, rfl, rfl, rfl, rfl, rfl, rfl⟩

theorem SameButTrees.ofLinks (s : State) (k : Link) (m : List (Nat × Idx)) : SameButTrees s (s.withLinks k m) := by
  cases k <;> exact ⟨rfl, rfl, rfl, rfl, rfl, rfl, rfl, rfl, rfl, rfl, rfl, rfl, rfl⟩

theorem SameButTrees.ofLinkWrite {k : Link} {s t : State} {i v : Nat} (h : linkWrite k s i v = .ok t) :
    SameButTrees s t := by
  obtain ⟨-, rfl⟩ := linkWrite_ok.1 h
  exact .ofLinks s k _

theorem linkWrite_found {k : Link} {s t : State} {i v : Nat} (h : linkWrite k s i v = .ok t) : t.found = s.found := by
  obtain ⟨-, rfl⟩ := linkWrite_ok.1 h
  cases k <;> rfl

theorem SameButLinks.refl (s : State) : SameButLinks s s := ⟨.refl s, rfl⟩

theorem SameButLinks.trans {s t u : State} (h : SameButLinks s t) (k : SameButLinks t u) : SameButLinks s u :=
  ⟨h.1.trans k.1, k.2.trans h.2⟩

theorem SameButLinks.ofLinkWrite {k : Link} {s t : State} {i v : Nat} (h : linkWrite k s i v = .ok t) :
    SameButLinks s t :=
  ⟨.ofLinkWrite h, linkWrite_found h⟩

theorem SameButLinks.ofWalk (s : State) (w : Walk) : SameButLinks s (s.withWalk w) := ⟨.ofWalk s w, rfl⟩

/-- The inner loop moves CMP and J only. -/
theorem mfCompare_frame {fuel r : Nat} {s t : State} (h : mfCompare fuel r s = .ok t) :
    ∃ cmp j, t = s.withWalk { s.walk with cmp := cmp, j := j } := by
  induction fuel generalizing s with
  | zero => cases h; exact ⟨_, _, rfl⟩
  | succ n ih =>
    unfold mfCompare at h
    split at h
    · obtain ⟨a, -, h⟩ := bind_ok.1 h
      obtain ⟨b, -, h⟩ := bind_ok.1 h
      simp only at h
      split at h
      · cases h; exact ⟨_, _, rfl⟩
      · obtain ⟨cmp, j, rfl⟩ := ih h
        exact ⟨cmp, j, rfl⟩
    · cases h; exact ⟨_, _, rfl⟩

theorem mfMeasure_frame {r : Nat} {s t : State} (h : mfMeasure r s = .ok t) : SameButTrees s t := by
  unfold mfMeasure at h
  obtain ⟨u, hu, h⟩ := bind_ok.1 h
  obtain ⟨cmp, j, rfl⟩ := mfCompare_frame hu
  split at h
  · cases h; exact (SameButTrees.ofWalk s _).trans <| (SameButTrees.ofWalk _ _).trans (.ofFound _ _)
  · cases h; exact (SameButTrees.ofWalk s _).trans (.ofWalk _ _)

theorem mfReplace_frame {r : Nat} {s t : State} (h : mfReplace r s = .ok t) : SameButLinks s t := by
  unfold mfReplace at h
  obtain ⟨_, -, h⟩ := bind_ok.1 h
  obtain ⟨s1, h1, h⟩ := bind_ok.1 h
  obtain ⟨_, -, h⟩ := bind_ok.1 h
  obtain ⟨s2, h2, h⟩ := bind_ok.1 h
  obtain ⟨_, -, h⟩ := bind_ok.1 h
  obtain ⟨s3, h3, h⟩ := bind_ok.1 h
  obtain ⟨_, -, h⟩ := bind_ok.1 h
  obtain ⟨s4, h4, h⟩ := bind_ok.1 h
  obtain ⟨_, -, h⟩ := bind_ok.1 h
  obtain ⟨s5, h5, h⟩ := bind_ok.1 h
  obtain ⟨up, -, h⟩ := bind_ok.1 h
  obtain ⟨child, -, h⟩ := bind_ok.1 h
  obtain ⟨s6, h6, h⟩ := bind_ok.1 h
  exact (SameButLinks.ofLinkWrite h1).trans <| (SameButLinks.ofLinkWrite h2).trans <|
    (SameButLinks.ofLinkWrite h3).trans <| (SameButLinks.ofLinkWrite h4).trans <|
    (SameButLinks.ofLinkWrite h5).trans <| (SameButLinks.ofLinkWrite h6).trans (.ofLinkWrite h)

theorem mfWalk_frame {fuel r : Nat} {s t : State} (h : mfWalk fuel r s = .ok t) : SameButTrees s t := by
  induction fuel generalizing s with
  | zero => cases h
  | succ n ih =>
    unfold mfWalk at h
    simp only at h
    obtain ⟨next, -, h⟩ := bind_ok.1 h
    split at h
    · obtain ⟨u, hu, h⟩ := bind_ok.1 h
      exact (SameButTrees.ofLinkWrite hu).trans (.ofLinkWrite h)
    · obtain ⟨u, hu, h⟩ := bind_ok.1 h
      have hm : SameButTrees s u := (SameButTrees.ofWalk s _).trans (mfMeasure_frame hu)
      split at h
      · exact hm.trans (mfReplace_frame h).1
      · exact hm.trans (ih h)

/-- MF_INSERT changes the link arrays, the walk temporaries and the match state only. -/
theorem mfInsert_frame {r : Nat} {s t : State} (h : mfInsert r s = .ok t) : SameButTrees s t := by
  unfold mfInsert at h
  obtain ⟨_, -, h⟩ := bind_ok.1 h
  obtain ⟨c, -, h⟩ := bind_ok.1 h
  obtain ⟨s1, h1, h⟩ := bind_ok.1 h
  obtain ⟨s2, h2, h⟩ := bind_ok.1 h
  exact ((SameButTrees.ofWalk s _).trans (.ofWalk _ _)).trans <| (SameButTrees.ofLinkWrite h1).trans <|
    (SameButTrees.ofLinkWrite h2).trans <| (SameButTrees.ofFound s2 _).trans (mfWalk_frame h)

/-- What MF_INSERT needs: a window position in no tree, and the tail a copy (R173). -/
theorem mfInsertCheck_ok {r : Nat} {s : State} {u : Unit} :
    mfInsertCheck r s = .ok u ↔
      r < s.par.n.toNat ∧ linkRead .parent s r = .ok s.par.nil ∧ tailMirrored s = true := by
  unfold mfInsertCheck
  split
  · next h => simp only [reduceCtorEq, false_iff]; omega
  · next h =>
    rw [bind_ok]
    constructor
    · rintro ⟨up, hup, h'⟩
      split at h'
      · cases h'
      · next hn =>
        split at h'
        · next ht => exact ⟨by omega, by rw [hup, not_not.1 hn], ht⟩
        · cases h'
    · rintro ⟨_, hup, ht⟩
      exact ⟨_, hup, by simp [ht]⟩

theorem mfRightmost_frame {fuel : Nat} {s t : State} (h : mfRightmost fuel s = .ok t) :
    ∃ q, t = s.withWalk { s.walk with q := q } := by
  induction fuel generalizing s with
  | zero => cases h
  | succ n ih =>
    unfold mfRightmost at h
    obtain ⟨a, -, h⟩ := bind_ok.1 h
    simp only at h
    obtain ⟨b, -, h⟩ := bind_ok.1 h
    split at h
    · cases h; exact ⟨_, rfl⟩
    · obtain ⟨q, rfl⟩ := ih h
      exact ⟨q, rfl⟩

theorem mfPredecessor_frame {p : Nat} {s t : State} (h : mfPredecessor p s = .ok t) : SameButLinks s t := by
  unfold mfPredecessor at h
  obtain ⟨s0, h0, h⟩ := bind_ok.1 h
  have h0' : SameButLinks s s0 := by
    obtain ⟨q, rfl⟩ := mfRightmost_frame h0
    exact .ofWalk s _
  obtain ⟨_, -, h⟩ := bind_ok.1 h
  obtain ⟨_, -, h⟩ := bind_ok.1 h
  obtain ⟨s1, h1, h⟩ := bind_ok.1 h
  obtain ⟨_, -, h⟩ := bind_ok.1 h
  obtain ⟨_, -, h⟩ := bind_ok.1 h
  obtain ⟨s2, h2, h⟩ := bind_ok.1 h
  obtain ⟨_, -, h⟩ := bind_ok.1 h
  obtain ⟨s3, h3, h⟩ := bind_ok.1 h
  obtain ⟨_, -, h⟩ := bind_ok.1 h
  exact h0'.trans <| (SameButLinks.ofLinkWrite h1).trans <| (SameButLinks.ofLinkWrite h2).trans <|
    (SameButLinks.ofLinkWrite h3).trans (.ofLinkWrite h)

theorem mfTwoChildren_frame {p : Nat} {s t : State} (h : mfTwoChildren p s = .ok t) : SameButLinks s t := by
  unfold mfTwoChildren at h
  obtain ⟨s1, h1, h⟩ := bind_ok.1 h
  have h1' : SameButLinks s s1 := by
    unfold mfUnlink at h1
    obtain ⟨below, -, h1⟩ := bind_ok.1 h1
    split at h1
    · exact mfPredecessor_frame h1
    · cases h1; exact .refl s
  simp only at h
  obtain ⟨_, -, h⟩ := bind_ok.1 h
  obtain ⟨s2, h2, h⟩ := bind_ok.1 h
  obtain ⟨_, -, h⟩ := bind_ok.1 h
  exact h1'.trans <| (SameButLinks.ofLinkWrite h2).trans (.ofLinkWrite h)

theorem mfSuccessor_frame {p : Nat} {s t : State} (h : mfSuccessor p s = .ok t) : SameButLinks s t := by
  unfold mfSuccessor at h
  obtain ⟨right, -, h⟩ := bind_ok.1 h
  split at h
  · obtain ⟨left, -, h⟩ := bind_ok.1 h
    cases h
    exact .ofWalk _ _
  · obtain ⟨left, -, h⟩ := bind_ok.1 h
    split at h
    · cases h
      exact .ofWalk _ _
    · exact (SameButLinks.ofWalk s _).trans (mfTwoChildren_frame h)

theorem mfSplice_frame {p : Nat} {s t : State} (h : mfSplice p s = .ok t) : SameButLinks s t := by
  unfold mfSplice at h
  obtain ⟨_, -, h⟩ := bind_ok.1 h
  obtain ⟨s1, h1, h⟩ := bind_ok.1 h
  obtain ⟨up, -, h⟩ := bind_ok.1 h
  obtain ⟨child, -, h⟩ := bind_ok.1 h
  obtain ⟨s2, h2, h⟩ := bind_ok.1 h
  exact (SameButLinks.ofLinkWrite h1).trans <| (SameButLinks.ofLinkWrite h2).trans (.ofLinkWrite h)

/-- MF_REMOVE changes the link arrays and the walk temporaries only. -/
theorem mfRemove_frame {p : Nat} {s t : State} (h : mfRemove p s = .ok t) : SameButLinks s t := by
  unfold mfRemove at h
  split at h
  · cases h
  · split at h
    · obtain ⟨up, -, h⟩ := bind_ok.1 h
      split at h
      · cases h; exact .refl _
      · obtain ⟨s1, h1, h⟩ := bind_ok.1 h
        exact (mfSuccessor_frame h1).trans (mfSplice_frame h)
    · cases h

theorem insertEach_frame {rs : List Nat} {s t : State} (h : insertEach rs s = .ok t) : SameButTrees s t := by
  induction rs generalizing s with
  | nil => cases h; exact .refl _
  | cons r rs ih =>
    obtain ⟨u, hu, h⟩ := bind_ok.1 h
    exact (mfInsert_frame hu).trans (ih h)

end Sys2Proof.Machine
end

