-- ==== Sys2Proof/Laws/PerInstr.lean ====
section
/-! SUPPORT. What is said of every instruction as syntax, one lemma for each constructor. -/

namespace Sys2Proof.Laws

/-- The encoded length: an instruction of the wire has exactly the bytes of its format, which the format alone decides
(spec/30_encoding.md R118), and only a host command is encoded as a word written to CMD (R122). -/
def EncodedLength.Statement (i : Instr) : Prop :=
  match encode i with
  | .segment f bytes => bytes.length = f.length ∧ wireBytes i = bytes
  | .command _ => i.isToken = false ∧ wireBytes i = []

theorem EncodedLength.ctrl (flags : Byte) : EncodedLength.Statement (.ctrl flags) := ⟨rfl, rfl⟩

theorem EncodedLength.lit (byte : Byte) : EncodedLength.Statement (.lit byte) := ⟨rfl, rfl⟩

theorem EncodedLength.ref (pos : BitVec 12) (ln : BitVec 4) : EncodedLength.Statement (.ref pos ln) := ⟨rfl, rfl⟩

theorem EncodedLength.nop : EncodedLength.Statement .nop := ⟨rfl, rfl⟩

theorem EncodedLength.compress : EncodedLength.Statement .compress := ⟨rfl, rfl⟩

theorem EncodedLength.decompress : EncodedLength.Statement .decompress := ⟨rfl, rfl⟩

end Sys2Proof.Laws
end

