-- ==== Sys2Proof/Laws/Step.lean ====
section
/-! SUPPORT. What one step can do, said once: an inversion lemma for the step, for the engine's step, and for each
sequencer label that has a choice. Every invariant is proved from these, not by unfolding the step. -/

namespace Sys2Proof.Machine

/-- A write to CMD always answers, by the command path of R261, whatever the word. -/
theorem commandTurn_eq (v : Word) (s : State) : commandTurn v s = .next (commandWrite v s) := by
  have hd : decode (.command v) = decodeCommand v := rfl
  unfold commandTurn
  rw [hd]
  by_cases h0 : v = 0x00000000#32
  · subst h0; rfl
  · by_cases h1 : v = 0x00000001#32
    · subst h1; rfl
    · by_cases h2 : v = 0x00000002#32
      · subst h2; rfl
      · rw [show decodeCommand v = .error (.illegalCommand v) by
          unfold decodeCommand; rw [if_neg h0, if_neg h1, if_neg h2]]
        rfl

/-- Where the step comes from: the engine with no turn, the engine's turn, a write to CMD, or another turn. -/
theorem step_cases {s t : State} (h : step s = .next t) :
    (s.host.script = [] ∧ engineStep s = .next t) ∨
    (∃ ts, s.host.script = .engine :: ts ∧ engineStep (nextTurn ts s) = .next t) ∨
    (∃ v ts, s.host.script = .write 0 v :: ts ∧ t = commandWrite v (nextTurn ts s)) ∨
    (∃ turn ts, s.host.script = turn :: ts ∧ turn ≠ .engine ∧ (∀ v, turn ≠ .write 0 v) ∧
      t = hostTurn turn (nextTurn ts s)) := by
  unfold step at h
  split at h
  · next hs => exact .inl ⟨hs, h⟩
  · next ts hs => exact .inr (.inl ⟨ts, hs, h⟩)
  · next n v ts hs =>
    split at h
    · next hn =>
      subst hn
      rw [commandTurn_eq] at h
      cases h
      exact .inr (.inr (.inl ⟨v, ts, hs, rfl⟩))
    · next hn =>
      cases h
      exact .inr (.inr (.inr ⟨_, ts, hs, by simp, fun w hw => hn (Turn.write.inj hw).1, rfl⟩))
  · next n ts hs => cases h; exact .inr (.inr (.inr ⟨_, ts, hs, by simp, by simp, rfl⟩))
  · next x ts hs => cases h; exact .inr (.inr (.inr ⟨_, ts, hs, by simp, by simp, rfl⟩))
  · next ts hs => cases h; exact .inr (.inr (.inr ⟨_, ts, hs, by simp, by simp, rfl⟩))
  · next ts hs => cases h; exact .inr (.inr (.inr ⟨_, ts, hs, by simp, by simp, rfl⟩))

/-- A whole segment at hand is the latch, at a label that reads its format. -/
theorem fetched_some {s : State} {x : Fetch} (h : fetched s = some x) :
    ∃ f, segmentFormat s.seq = some f ∧ f.length ≤ s.seg.length ∧ x = .segment f s.seg := by
  unfold fetched at h
  split at h
  · next f hf =>
    split at h
    · next hl => cases h; exact ⟨f, hf, hl, rfl⟩
    · cases h
  · cases h

/-- What the engine's step runs: a control byte, a literal or a reference whose bytes are the latch, at the label that
reads it, or else the label's micro-operation. -/
theorem engineStep_cases {s t : State} (h : engineStep s = .next t) :
    (∃ c, s.seq = .dCtrl ∧ s.seg = [c] ∧ exec (.ctrl c) s = .next t) ∨
    (∃ b, s.seq = .dLit ∧ s.seg = [b] ∧ exec (.lit b) s = .next t) ∨
    (∃ b1 b2, s.seq = .dRef ∧ s.seg = [b1, b2] ∧ exec (.ref (posOf b1 b2) (lnOf b2)) s = .next t) ∨
    (fetched s = none ∧ microStep s = .ok t) := by
  unfold engineStep at h
  split at h
  · next x hx =>
    obtain ⟨f, hf, hl, rfl⟩ := fetched_some hx
    split at h
    · next i hi =>
      unfold decode at hi
      have hseq : (f = .wCtrl ∧ s.seq = .dCtrl) ∨ (f = .wLit ∧ s.seq = .dLit) ∨ (f = .wRef ∧ s.seq = .dRef) := by
        revert hf
        cases s.seq <;> simp [segmentFormat, eq_comm]
      rcases hseq with ⟨rfl, hq⟩ | ⟨rfl, hq⟩ | ⟨rfl, hq⟩
      · rcases hg : s.seg with _ | ⟨c, _ | _⟩ <;> simp_all [takeSegment]
      · rcases hg : s.seg with _ | ⟨c, _ | _⟩ <;> simp_all [takeSegment]
      · rcases hg : s.seg with _ | ⟨b1, _ | ⟨b2, _ | _⟩⟩ <;> simp_all [takeSegment]
    · cases h
  · next hx => exact .inr (.inr (.inr ⟨hx, outcomeOf_next.1 h⟩))

/-- LIT waits for the host, or its byte is out, in the window, and the cursor past it. -/
theorem execLit_cases {b : Byte} {s t : State} (h : execLit b s = .next t) :
    (s.host.credit = 0 ∧ t = s) ∨
    (∃ n, s.host.credit = n + 1 ∧ s.par.wrap s.dec.wr.toNat < s.par.winSize ∧
      t = (((advanceWrite
        (((s.withHost { s.host with credit := n, output := s.host.output ++ [b] }).withOutCount (s.outCount + 1)).withWin
          (Memory.write s.win (s.par.wrap s.dec.wr.toNat) b)))).withSeg []).goto .dNext) :=
  emitByte_ok (outcomeOf_next.1 h)

/-- D_COPY ends, waits for the host, or copies one byte. -/
theorem dCopy_cases {s t : State} (h : dCopy s = .ok t) :
    (s.dec.l.toNat < s.dec.k.toNat ∧ t = s.goto .dNext) ∨
    (s.dec.k.toNat ≤ s.dec.l.toNat ∧ ∃ c, winGetCirc s (s.dec.dist.toNat + s.dec.k.toNat) = .ok c ∧
      ((s.host.credit = 0 ∧ t = s) ∨
       (∃ n, s.host.credit = n + 1 ∧ s.par.wrap s.dec.wr.toNat < s.par.winSize ∧
        t = advanceCopy (advanceWrite
          (((s.withHost { s.host with credit := n, output := s.host.output ++ [c] }).withOutCount
            (s.outCount + 1)).withWin (Memory.write s.win (s.par.wrap s.dec.wr.toNat) c)))))) := by
  unfold dCopy at h
  split at h
  · next hk =>
    obtain ⟨c, hc, h⟩ := bind_ok.1 h
    exact .inr ⟨hk, c, hc, emitByte_ok h⟩
  · next hk =>
    cases h
    exact .inl ⟨not_le.1 hk, rfl⟩

/-- E_LOAD waits, meets `EOF`, takes a byte into the window, or has its lookahead. -/
theorem eLoad_cases {s t : State} (h : eLoad s = .ok t) :
    (s.par.f.toNat ≤ s.enc.len.toNat ∧ t = eLoadEnd s) ∨
    (s.enc.len.toNat < s.par.f.toNat ∧
      ((inRead s = .wait ∧ t = s) ∨ (∃ u, inRead s = .eof u ∧ t = eLoadEnd u) ∨
       (∃ c u v, inRead s = .byte c u ∧ winSetMirror u (u.par.wrap (u.par.r0.toNat + u.enc.len.toNat)) c = .ok v ∧
          t = v.withEnc { v.enc with len := v.enc.len + 1 }))) := by
  unfold eLoad at h
  split at h
  · next hl =>
    refine .inr ⟨hl, ?_⟩
    split at h
    · next hi => cases h; exact .inl ⟨hi, rfl⟩
    · next u hi => cases h; exact .inr (.inl ⟨u, hi, rfl⟩)
    · next c u hi =>
      obtain ⟨v, hv, h⟩ := bind_ok.1 h
      cases h
      exact .inr (.inr ⟨c, u, v, hi, hv, rfl⟩)
  · next hl => cases h; exact .inl ⟨not_lt.1 hl, rfl⟩

/-- E_PRIME inserts its positions and then `R`. -/
theorem ePrime_cases {s t : State} (h : ePrime s = .ok t) :
    ∃ u v, insertEach (primePositions s.par) s = .ok u ∧ mfInsert u.enc.r.toNat u = .ok v ∧ t = v.goto .eToken := by
  unfold ePrime at h
  obtain ⟨u, hu, h⟩ := bind_ok.1 h
  obtain ⟨v, hv, h⟩ := bind_ok.1 h
  cases h
  exact ⟨u, v, hu, hv, rfl⟩

/-- E_ADV ends, waits, meets `EOF`, or makes one pass: remove, write, advance, insert (R318). -/
theorem eAdv_cases {s t : State} (h : eAdv s = .ok t) :
    (s.enc.lastlen.toNat ≤ s.enc.i.toNat ∧ t = s.goto .eDrain) ∨
    (s.enc.i.toNat < s.enc.lastlen.toNat ∧
      ((inRead s = .wait ∧ t = s) ∨ (∃ u, inRead s = .eof u ∧ t = u.goto .eDrain) ∨
       (∃ c u v w x, inRead s = .byte c u ∧ mfRemove u.enc.s.toNat u = .ok v ∧ winSetMirror v v.enc.s.toNat c = .ok w ∧
          mfInsert (advanceCursors w).enc.r.toNat (advanceCursors w) = .ok x ∧
          t = x.withEnc { x.enc with i := x.enc.i + 1 }))) := by
  unfold eAdv at h
  split at h
  · next hl =>
    refine .inr ⟨hl, ?_⟩
    split at h
    · next hi => cases h; exact .inl ⟨hi, rfl⟩
    · next u hi => cases h; exact .inr (.inl ⟨u, hi, rfl⟩)
    · next c u hi =>
      obtain ⟨v, hv, h⟩ := bind_ok.1 h
      obtain ⟨w, hw, h⟩ := bind_ok.1 h
      obtain ⟨x, hx, h⟩ := bind_ok.1 h
      cases h
      exact .inr (.inr ⟨c, u, v, w, x, hi, hv, hw, hx, rfl⟩)
  · next hl => cases h; exact .inl ⟨not_lt.1 hl, rfl⟩

/-- The state of an E_DRAIN pass after its removal and before its insertion. -/
def drained (s : State) : State :=
  (advanceCursors s).withEnc { (advanceCursors s).enc with len := s.enc.len - 1 }

/-- E_DRAIN ends, or makes one pass: remove, advance, and insert while lookahead is left. -/
theorem eDrain_cases {s t : State} (h : eDrain s = .ok t) :
    (s.enc.lastlen.toNat ≤ s.enc.i.toNat ∧ t = s.goto .eLoop) ∨
    (s.enc.i.toNat < s.enc.lastlen.toNat ∧ ∃ v,
      mfRemove s.enc.s.toNat (s.withEnc { s.enc with i := s.enc.i + 1 }) = .ok v ∧
      (((drained v).enc.len = 0 ∧ t = drained v) ∨
       ((drained v).enc.len ≠ 0 ∧ mfInsert (drained v).enc.r.toNat (drained v) = .ok t))) := by
  unfold eDrain at h
  split at h
  · next hl =>
    refine .inr ⟨hl, ?_⟩
    obtain ⟨v, hv, h⟩ := bind_ok.1 h
    refine ⟨v, hv, ?_⟩
    change (if (drained v).enc.len ≠ 0 then mfInsert (drained v).enc.r.toNat (drained v) else .ok (drained v)) = .ok t at h
    split at h
    · next hn => exact .inr ⟨hn, h⟩
    · next hn => cases h; exact .inl ⟨not_not.1 hn, rfl⟩
  · next hl => cases h; exact .inl ⟨not_lt.1 hl, rfl⟩

/-- One pass of an output loop: the host waits, or takes the byte. -/
theorem outputGroupByte_cases {s t : State} (h : outputGroupByte s = .ok t) :
    ∃ hi : s.outIdx.toNat < 17,
      ((s.host.credit = 0 ∧ t = s) ∨
       (∃ n, s.host.credit = n + 1 ∧
        t = ((s.withHost { s.host with credit := n, output := s.host.output ++ [s.enc.cb[s.outIdx.toNat]] }).withOutCount
          (s.outCount + 1)).withOutIdx (s.outIdx + 1))) := by
  unfold outputGroupByte at h
  obtain ⟨b, hb, h⟩ := bind_ok.1 h
  obtain ⟨hi, rfl⟩ := groupRead_ok.1 hb
  refine ⟨hi, ?_⟩
  split at h
  · next ho => cases h; exact .inl ⟨outWrite_none.1 ho, rfl⟩
  · next u ho =>
    obtain ⟨n, hn, rfl⟩ := outWrite_some.1 ho
    cases h
    exact .inr ⟨n, hn, rfl⟩

/-- What a literal token does to the encoder's registers (R196). -/
theorem packLiteral_cases {s t : State} (h : packLiteral s = .ok t) :
    ∃ (b : Byte) (hp : s.enc.cbptr.toNat < 17), winGetLin s s.enc.r.toNat = .ok b ∧
      t = (s.withFound { s.found with mlen := 1 }).withEnc { s.enc with
        cb := (s.enc.cb.set 0 (setLiteralFlag s.enc.cb[0] s.enc.cmask)).set s.enc.cbptr.toNat b hp,
        cbptr := s.enc.cbptr + 1 } := by
  unfold packLiteral at h
  obtain ⟨control, hc, h⟩ := bind_ok.1 h
  obtain ⟨_, rfl⟩ := groupRead_ok.1 hc
  obtain ⟨u, hu, h⟩ := bind_ok.1 h
  obtain ⟨_, rfl⟩ := groupWrite_ok.1 hu
  obtain ⟨b, hb, h⟩ := bind_ok.1 h
  obtain ⟨v, hv, h⟩ := bind_ok.1 h
  obtain ⟨hp, rfl⟩ := groupWrite_ok.1 hv
  cases h
  exact ⟨b, hp, hb, rfl⟩

/-- What a reference token does to the encoder's registers (R197). -/
theorem packReference_cases {s t : State} (h : packReference s = .ok t) :
    ∃ hp : s.enc.cbptr.toNat + 1 < 17,
      t = s.withEnc { s.enc with
        cb := (s.enc.cb.set s.enc.cbptr.toNat (packByte1 s.found.mpos)).set (s.enc.cbptr.toNat + 1)
          (packByte2 s.found.mpos s.found.mlen s.par.t),
        cbptr := s.enc.cbptr + 2 } := by
  unfold packReference at h
  obtain ⟨u, hu, h⟩ := bind_ok.1 h
  obtain ⟨_, rfl⟩ := groupWrite_ok.1 hu
  obtain ⟨v, hv, h⟩ := bind_ok.1 h
  obtain ⟨hp, rfl⟩ := groupWrite_ok.1 hv
  cases h
  exact ⟨hp, rfl⟩

end Sys2Proof.Machine
end

