-- ==== Sys2Proof/Tests/Slice0.lean ====
section
/-! SUPPORT. The model's own tests: ill-formed terms that the checks refuse, words written out bit by bit from
spec/30_encoding.md, single steps whose results stand in spec/95_test_vectors.md or follow by hand from a rule, and for
every obligation with hypotheses a concrete state that meets them together. -/

namespace Sys2Proof.Tests

open Sys2Proof Sys2Proof.Machine

/-! Helpers. The configuration SMALL is that of spec/95_test_vectors.md: N = 16, FILL = 0x20, R0 = 12, F = 4, T = 2. -/

/-- The next state of an outcome. -/
def after (o : Host.Outcome State Fault Refusal) : Option State :=
  match o with
  | .next t => some t
  | .fault _ => none
  | .refused _ => none

/-- The state an operation answers. -/
def result (x : Except Fault State) : Option State :=
  match x with
  | .ok t => some t
  | .error _ => none

/-- The fault an operation stops with. -/
def faultOf (x : Except Fault State) : Option Fault :=
  match x with
  | .ok _ => none
  | .error e => some e

theorem answers {o : Host.Outcome State Fault Refusal} (h : (after o).isSome = true) : ∃ t, o = .next t := by
  cases o with
  | next t => exact ⟨t, rfl⟩
  | fault _ => simp [after] at h
  | refused _ => simp [after] at h

theorem completes {x : Except Fault State} (h : (result x).isSome = true) : ∃ t, x = .ok t := by
  cases x with
  | ok t => exact ⟨t, rfl⟩
  | error _ => simp [result] at h

def smallPar : Session := { n := 16, fill := 0x20, r0 := 12, f := 4, t := 2 }

def smallCfg (m : Mode) : Cfg :=
  { frameSize := 16, fill := 0x20, initPos := 12, maxLen := 4, minLen := 2, mode := m }

/-- An idle engine configured SMALL. -/
def idleSmall (m : Mode) : State :=
  { State.reset with cfg := smallCfg m, par := smallPar }

/-- A SMALL session at a label, its window filled. -/
def running (m : Mode) (q : Seq) : State :=
  { idleSmall m with status := Status.started m, seq := q, win := Memory.fill 0 19 0x20 }

/-- A state whose host has turns to make. -/
def turns (ts : List Turn) (s : State) : State :=
  { s with host := { s.host with script := ts } }

/-- A state whose host has offered items. -/
def offered (xs : List Item) (s : State) : State :=
  { s with host := { s.host with input := xs } }

/-- A state whose host has accepted bytes in advance. -/
def accepting (n : Nat) (s : State) : State :=
  { s with host := { s.host with credit := n } }

/-- Cells 0, 1, ... holding the bytes. -/
def cells (bytes : List Byte) : List Host.Cell :=
  bytes.zipIdx.map (fun x => (x.2, x.1))

/-- A compression session with empty trees over a window, at a label past E_START: R = 12, S = 0. -/
def encoding (q : Seq) (bytes : List Byte) : State :=
  let s := mfInit { running .compress q with win := cells bytes }
  { s with enc := { s.enc with r := 12, s := 0, len := 4 } }

/-- The window of vector MF-1: "AMAFATABAKAZAQAC" and its tail "AMA". -/
def mf1Window : List Byte :=
  [0x41, 0x4D, 0x41, 0x46, 0x41, 0x54, 0x41, 0x42, 0x41, 0x4B, 0x41, 0x5A, 0x41, 0x51, 0x41, 0x43, 0x41, 0x4D, 0x41]

/-- The window of vector MF-2: "ABCXABCYAAZZABCX" and its tail "ABC". -/
def mf2Window : List Byte :=
  [0x41, 0x42, 0x43, 0x58, 0x41, 0x42, 0x43, 0x59, 0x41, 0x41, 0x5A, 0x5A, 0x41, 0x42, 0x43, 0x58, 0x41, 0x42, 0x43]

/-- What a link array reads at an index. -/
def link (k : Link) (x : Option State) (i : Nat) : Option Nat :=
  match x with
  | none => none
  | some s =>
    match linkRead k s i with
    | .ok v => some v
    | .error _ => none

theorem link_some {k : Link} {s : State} {i v : Nat} (h : link k (some s) i = some v) : linkRead k s i = .ok v := by
  unfold link at h
  cases hr : linkRead k s i <;> simp_all

/-! Well-formedness: each check of a group refuses a term that breaks it. -/

theorem test_group_good : (Group.mk 0x05 [.lit 0x41, .ref 0xFEE 0, .lit 0x42]).wellFormed = true := by decide

theorem test_group_needs_a_token : (Group.mk 0x00 []).wellFormed = false := by decide

theorem test_group_holds_eight : (Group.mk 0xFF (List.replicate 9 (.lit 0x41))).wellFormed = false := by decide

theorem test_group_holds_tokens_only : (Group.mk 0x00 [.ctrl 0x00]).wellFormed = false := by decide

theorem test_group_holds_no_command : (Group.mk 0x01 [.lit 0x41, .nop]).wellFormed = false := by decide

theorem test_group_flag_of_a_literal : (Group.mk 0x00 [.lit 0x41]).wellFormed = false := by decide

theorem test_group_flag_of_a_reference : (Group.mk 0x01 [.ref 0xFEE 0]).wellFormed = false := by decide

theorem test_group_flag_of_a_missing_token : (Group.mk 0x03 [.lit 0x41]).wellFormed = false := by decide

/-! Decoding, words written bit by bit (R111 to R113, R122). -/

/-- R111: the control byte of P1, tokens 0, 1 and 3 literals. -/
theorem test_decode_ctrl : decode (.segment .wCtrl [0b00001011]) = .ok (.ctrl 0x0B) := rfl

/-- R112: 'A'. -/
theorem test_decode_lit : decode (.segment .wLit [0b01000001]) = .ok (.lit 0x41) := rfl

/-- R113: POS_LO 1110 1110, then POS_HI 1111 and LN 0111. -/
theorem test_decode_ref : decode (.segment .wRef [0b11101110, 0b11110111]) = .ok (.ref 0b111111101110 0b0111) := rfl

/-- R113, the nibbles apart: POS_HI 0001, LN 1000. -/
theorem test_decode_ref_nibbles : decode (.segment .wRef [0b00000010, 0b00011000]) = .ok (.ref 0b000100000010 0b1000) := rfl

theorem test_decode_nop : decode (.command 0b00000000000000000000000000000000) = .ok .nop := rfl

theorem test_decode_compress : decode (.command 0b00000000000000000000000000000001) = .ok .compress := rfl

theorem test_decode_decompress : decode (.command 0b00000000000000000000000000000010) = .ok .decompress := rfl

/-- R265: the value is not reduced to OP. -/
theorem test_decode_illegal_words :
    decode (.command 3) = .error (.illegalCommand 3) ∧ decode (.command 5) = .error (.illegalCommand 5) ∧
    decode (.command 0x80000001) = .error (.illegalCommand 0x80000001) := ⟨rfl, rfl, rfl⟩

theorem test_decode_short_and_long :
    decode (.segment .wRef [0xEE]) = .error (.tooShort .wRef) ∧
    decode (.segment .wLit [0x41, 0x42]) = .error (.tooLong .wLit) := ⟨rfl, rfl⟩

/-- A table word: the first byte is bits 7:0, the second bits 15:8. -/
theorem test_table_word_ref : decodeTableWord 16 0xF7EE = some (.ref 0xFEE 7) := by decide

/-- P1's stream, whole. -/
theorem test_stream_of_p1 : streamTokens 2 [0x0B, 0x41, 0x42, 0xEE, 0xF7, 0x43] =
    [.lit 0x41, .lit 0x42, .ref 0xFEE 7, .lit 0x43] := by decide

/-- R125: `COPY pos, n` with T = 2; P1's reference copies 10 bytes. -/
theorem test_expand_copy : expandCopy 2 0xFEE 10 = some (.ref 0xFEE 7) ∧ expandCopy 2 0xFEE 2 = none := by decide

/-- R125: the control byte of P1's group. -/
theorem test_expand_group : (expandGroup [.lit 0x41, .lit 0x42, .ref 0xFEE 7, .lit 0x43]).control = 0x0B := by decide

/-! The wire tokens. -/

/-- DEC-7's trace: D_CTRL reads 01, FLAGS 0xFF01, then D_LIT. -/
theorem test_ctrl_loads_flags :
    (after (exec (.ctrl 0x01) (running .decompress .dCtrl))).map (fun t => (t.dec.flags, t.seq)) =
      some (0xFF01, .dLit) := by decide

/-- DEC-3: after 00, FLAGS 0xFF00 and a reference. -/
theorem test_ctrl_reference_first :
    (after (exec (.ctrl 0x00) (running .decompress .dCtrl))).map (fun t => (t.dec.flags, t.seq)) =
      some (0xFF00, .dRef) := by decide

/-- W-5: at WR = 15 the byte goes to WIN[15], WR becomes 0, no tail cell is written; the byte is given to the host. -/
theorem test_lit_wraps :
    (after (exec (.lit 0x41) (accepting 1 { running .decompress .dLit with dec := { State.reset.dec with wr := 15 } }))).map
      (fun t => (Memory.read t.win 15, Memory.read t.win 16, t.dec.wr, t.host.output, t.outCount)) =
      some (some 0x41, some 0x20, 0, [0x41], 1) := by decide

/-- R64: with no byte accepted LIT waits. -/
theorem test_lit_waits :
    after (exec (.lit 0x41) (running .decompress .dLit)) = some (running .decompress .dLit) := by decide

/-- L1-9: EE F7 with T = 2 is DIST 0xFEE and L 9. -/
theorem test_ref_operands :
    (after (exec (.ref 0xFEE 7) (running .decompress .dRef))).map (fun t => (t.dec.dist, t.dec.l, t.dec.k, t.seq)) =
      some (0xFEE, 9, 0, .dCopy) := by decide

/-- DEC-16: DIST 0x01F in a window of 16 reads WIN[15]. -/
theorem test_copy_aliases :
    (after (step (accepting 1 { running .decompress .dCopy with
      win := Memory.write (Memory.fill 0 19 0x20) 15 0x5A, dec := { State.reset.dec with dist := 0x1F, l := 2 } }))).map
      (fun t => (t.host.output, t.dec.k)) = some ([0x5A], 1) := by decide

/-- DEC-7's trace: FLAGS 0xFF01 becomes 0x7F80, and a reference comes next. -/
theorem test_next_shifts :
    (after (step { running .decompress .dNext with dec := { State.reset.dec with flags := 0xFF01 } })).map
      (fun t => (t.dec.flags, t.seq)) = some (0x7F80, .dRef) := by decide

/-- P4: EOF before the second byte of a reference, STATUS 0xC82. -/
theorem test_end_at_b2 :
    (after (step (offered [.eof] { running .decompress .dRef with seg := [0xEE] }))).map (fun t => t.status.word) =
      some 0xC82 := by decide

/-! The commands. -/

/-- H-15: a NOP leaves STATUS 0xC. -/
theorem test_nop_keeps_the_error :
    (after (exec .nop { State.reset with status := { State.reset.status with err := .modeMismatch } })).map
      (fun t => t.status.word) = some 0xC := by decide

/-- H-19: a NOP while busy does not set IGN. -/
theorem test_nop_while_busy :
    (after (exec .nop (running .compress .eLoad))).map (fun t => t.status.word) = some 0x1 := by decide

/-- An accepted COMPRESS: BUSY only, at E_START, the window of SMALL filled with its tail (W-1). -/
theorem test_compress_accepted :
    (after (exec .compress (idleSmall .compress))).map (fun t => (t.status.word, t.seq, Memory.read t.win 18)) =
      some (0x1, .eStart, some 0x20) := by decide

/-- H-12: COMPRESS with CFG_MODE = 1. -/
theorem test_compress_mode_mismatch :
    (after (exec .compress (idleSmall .decompress))).map (fun t => (t.status.word, t.seq)) = some (0xC, .idle) := by decide

/-- An accepted DECOMPRESS: BUSY and SMODE, at D_START. -/
theorem test_decompress_accepted :
    (after (exec .decompress (idleSmall .decompress))).map (fun t => (t.status.word, t.seq)) =
      some (0x81, .dStart) := by decide

/-- H-11: DECOMPRESS with T = 0. -/
theorem test_decompress_config_invalid :
    (after (exec .decompress { State.reset with cfg := { State.reset.cfg with minLen := 0, mode := .decompress } })).map
      (fun t => t.status.word) = some 0x8 := by decide

/-- H-5 and H-18: an illegal word while idle, and a nonzero word while busy. -/
theorem test_illegal_word_and_ign :
    (after (step (turns [.write 0 0x80000001] State.reset))).map (fun t => t.status.word) = some 0x4 ∧
    (after (step (turns [.write 0 0x2] (running .compress .eLoad)))).map (fun t => t.status.word) = some 0x41 := by decide

/-- H-1: the registers after reset. -/
theorem test_reset_registers :
    (List.range 16).map (fun n => (readRegister State.reset (BitVec.ofNat 4 n)).toNat) =
      [0, 0, 0x1000, 0x00, 0xFEE, 0x12, 0x2, 0, 0, 0, 0, 0, 0, 0, 0, 0] := by decide

/-- H-22 and H-23: the fields a write stores. -/
theorem test_register_writes :
    readRegister (hostWrite 2 0xFFFFFFFF State.reset) 2 = 0x1FFF ∧
    hostWrite 1 0xFFFFFFFF State.reset = State.reset ∧ hostWrite 8 5 State.reset = State.reset ∧
    hostWrite 12 7 State.reset = State.reset := by decide

/-- The end of ENC-7's session: STATUS 0x502. -/
theorem test_encoder_end_status : (Status.finished (Status.started .compress) .encComplete).word = 0x502 := by decide

/-! The window. -/

/-- W-2: the tail copy, right after WIN_FILL, before MF_INIT (log 23). -/
theorem test_mirror_copies :
    (result (winSetMirror (running .compress .eStart) 1 0x41)).map
      (fun t => (Memory.read t.win 1, Memory.read t.win 17)) = some (some 0x41, some 0x41) := by decide

/-- W-3: position 3 has no copy. -/
theorem test_mirror_stops_at_the_tail :
    (result (winSetMirror (running .compress .eStart) 3 0x43)).map
      (fun t => (Memory.read t.win 3, Memory.read t.win 18)) = some (some 0x43, some 0x20) := by decide

/-- R175: position 3 is the last byte of the key of node 0, position 4 is in no key of it. -/
theorem test_mirror_key_stability :
    faultOf (insertEach [0] (encoding .eAdv mf1Window) >>= fun s => winSetMirror s 3 0x5A) = some .keyStability ∧
    (result (insertEach [0] (encoding .eAdv mf1Window) >>= fun s => winSetMirror s 4 0x5A)).isSome = true := by decide

/-! The match finder. -/

/-- MF-2's first three insertions: the match states. -/
theorem test_insert_matches :
    (result (insertEach [0] (encoding .eAdv mf2Window))).map (fun t => t.found.mlen.toNat) = some 0 ∧
    (result (insertEach [0, 4] (encoding .eAdv mf2Window))).map (fun t => (t.found.mlen.toNat, t.found.mpos.toNat)) =
      some (3, 0) ∧
    (result (insertEach [0, 4, 8] (encoding .eAdv mf2Window))).map (fun t => (t.found.mlen.toNat, t.found.mpos.toNat)) =
      some (1, 0) := by decide

/-- MF-2's last insertion: 12 replaces 0. -/
theorem test_insert_replaces :
    let t := result (insertEach [0, 4, 8, 12] (encoding .eAdv mf2Window))
    t.map (fun t => (t.found.mlen.toNat, t.found.mpos.toNat)) = some (4, 0) ∧
    link .right t 82 = some 12 ∧ link .parent t 12 = some 82 ∧ link .left t 12 = some 8 ∧ link .right t 12 = some 4 ∧
    link .parent t 4 = some 12 ∧ link .parent t 8 = some 12 ∧ link .parent t 0 = some 16 := by decide

/-- MF-1: 8, the predecessor, takes 0's place. -/
theorem test_remove_takes_the_predecessor :
    let t := result (insertEach [0, 2, 4, 6, 8] (encoding .eAdv mf1Window) >>= mfRemove 0)
    link .right t 82 = some 8 ∧ link .left t 8 = some 2 ∧ link .right t 8 = some 4 ∧ link .right t 2 = some 16 ∧
    link .parent t 8 = some 82 ∧ link .parent t 2 = some 8 ∧ link .parent t 4 = some 8 ∧ link .parent t 0 = some 16 ∧
    link .parent t 6 = some 2 := by decide

/-- MF-1, then the leaf 6 goes. -/
theorem test_remove_leaf :
    let t := result (insertEach [0, 2, 4, 6, 8] (encoding .eAdv mf1Window) >>= mfRemove 0 >>= mfRemove 6)
    link .left t 2 = some 16 ∧ link .parent t 6 = some 16 := by decide

/-- MF-3: a position in no tree is not removed twice. -/
theorem test_remove_absent :
    (result (mfRemove 6 (encoding .eAdv mf1Window))).map (fun t => (t.left, t.right, t.parent)) =
      some ((encoding .eAdv mf1Window).left, (encoding .eAdv mf1Window).right, (encoding .eAdv mf1Window).parent) := by
  decide +kernel

/-- MF-4: a tree of another byte is empty. -/
theorem test_insert_other_tree :
    let t := result (mfInsert 1 (encoding .eAdv mf1Window))
    link .right t 94 = some 1 ∧ link .parent t 1 = some 94 ∧ link .left t 1 = some 16 ∧ link .right t 1 = some 16 ∧
    t.map (fun t => t.found.mlen.toNat) = some 0 := by decide

/-- R173: a position already in a tree is a fault of the model. -/
theorem test_insert_present_faults :
    faultOf (insertEach [0, 0] (encoding .eAdv mf1Window)) = some .insertPresent := by decide

/-! The encoder. -/

/-- ENC-8's reference, by hand with R115: MPOS 0xFDC, MLEN 4, T 2 gives DC F1. -/
theorem test_pack_bytes : packByte1 0xFDC = 0xDC ∧ packByte2 0xFDC 4 2 = 0xF1 := by decide

/-- ENC-20: the fill run at R = 12 packs the reference 08 00 with flag 0. -/
theorem test_token_reference :
    (after (step { encoding .eToken (List.replicate 19 0x20) with found := { mlen := 4, mpos := 8 }, enc := { State.reset.enc with r := 12, len := 3 } })).map
      (fun t => (t.enc.cb.toList.take 3, t.enc.cbptr, t.enc.cmask, t.enc.lastlen, t.seq)) =
      some ([0x00, 0x08, 0x00], 3, 0x02, 3, .eAdv) := by decide

/-! Witnesses: for every obligation with hypotheses, states and operands that meet them together, clause by clause and at
the ends of the ranges. -/

/-- DecodedBitsAreTheEncoding: a word that decodes. -/
theorem witness_decoded : decode (.segment .wRef [0x00, 0xF0]) = .ok (.ref 0xF00 0) := rfl

/-- StreamOfGroupsDecodesToItsTokens: a full group, then a partial one, in no more fuel than groups. -/
theorem witness_stream :
    let gs := [Group.mk 0xFF (List.replicate 8 (.lit 0x41)), Group.mk 0x02 [.ref 0xFEE 0, .lit 0x42]]
    (∀ g ∈ gs, g.wellFormed = true) ∧ (∀ g ∈ gs.dropLast, g.tokens.length = 8) ∧ gs.length ≤ 2 := by decide

/-- PackedMatchIsReadBack: the shortest and the longest match of T = 2. -/
theorem witness_packed :
    (((2 : Pos).toNat < (3 : Pos).toNat ∧ (3 : Pos).toNat ≤ (2 : Pos).toNat + 16) ∧
     ((2 : Pos).toNat < (18 : Pos).toNat ∧ (18 : Pos).toNat ≤ (2 : Pos).toNat + 16)) := by decide

/-- StepRunsTheDecodedInstruction, first clause: a literal at hand, no turn. -/
theorem witness_step_segment :
    let s := { running .decompress .dLit with seg := [0x41] }
    s.host.script = [] ∧ fetched s = some (.segment .wLit [0x41]) ∧ decode (.segment .wLit [0x41]) = .ok (.lit 0x41) :=
  ⟨rfl, rfl, rfl⟩

/-- StepRunsTheDecodedInstruction, second clause: the engine's turn. -/
theorem witness_step_engine_turn :
    let s := turns [.engine, .accept] { running .decompress .dRef with seg := [0xEE, 0xF7] }
    s.host.script = .engine :: [.accept] ∧ fetched (nextTurn [.accept] s) = some (.segment .wRef [0xEE, 0xF7]) ∧
    decode (.segment .wRef [0xEE, 0xF7]) = .ok (.ref 0xFEE 7) := ⟨rfl, rfl, rfl⟩

/-- StepRunsTheDecodedInstruction, third clause: a write to CMD. -/
theorem witness_step_command :
    (turns [.write 0 2] State.reset).host.script = .write 0 2 :: [] ∧ decode (.command 2) = .ok .decompress := ⟨rfl, rfl⟩

/-- EngineStandsStillExactlyWhenItWaits, ConfigurationDoesNotReachTheSession and EngineStepMakesAtMostOnePortEvent: the
engine answers when idle, when it waits for input, when it waits for output, and when it moves. -/
theorem witness_engine_answers :
    (after (engineStep (idleSmall .compress))).isSome = true ∧
    ((running .compress .eLoad).WaitsForInput ∧ (after (engineStep (running .compress .eLoad))).isSome = true) ∧
    ((running .decompress .dCopy).WaitsForOutput ∧ (after (engineStep (running .decompress .dCopy))).isSome = true) ∧
    (after (engineStep (running .decompress .dNext))).isSome = true := by decide

/-- NopChangesNothing, second clause. -/
theorem witness_nop_write : (turns [.write 0 0, .engine] (running .compress .eLoad)).host.script = .write 0 0 :: [.engine] :=
  rfl

/-- CompressStartsASession and DecompressStartsASession: idle, a legal configuration, the mode. -/
theorem witness_start :
    ((idleSmall .compress).status.busy = false ∧ (idleSmall .compress).cfg.Legal ∧ (idleSmall .compress).cfg.mode = .compress) ∧
    ((idleSmall .decompress).status.busy = false ∧ (idleSmall .decompress).cfg.Legal ∧
      (idleSmall .decompress).cfg.mode = .decompress) := by decide

/-- WriteToCmdFollowsTheCommandPath and FirstFailingCheckIsReported: busy; the word 0; an illegal word; an illegal
configuration (H-10, T = F); a mode that differs; and both starts accepted. -/
theorem witness_command_path :
    ((turns [.write 0 3] (running .compress .eLoad)).host.script = .write 0 3 :: [] ∧
      (nextTurn [] (turns [.write 0 3] (running .compress .eLoad))).status.busy = true) ∧
    (turns [.write 0 0] State.reset).host.script = .write 0 0 :: [] ∧
    ((turns [.write 0 3] State.reset).status.busy = false ∧ (3 : Word) ≠ 0 ∧ (3 : Word) ≠ 1 ∧ (3 : Word) ≠ 2) ∧
    ¬ ({ smallCfg .compress with minLen := 4 } : Cfg).Legal ∧
    ((smallCfg .decompress).Legal ∧ (smallCfg .decompress).mode ≠ .compress) ∧
    ((smallCfg .compress).Legal ∧ (smallCfg .compress).mode = .compress) ∧
    ((smallCfg .decompress).Legal ∧ (smallCfg .decompress).mode = .decompress) := by decide

/-- RejectedCommandChangesOnlyStatus: an idle engine, an illegal word, an error after the step. -/
theorem witness_rejected :
    let s := turns [.write 0 4] State.reset
    s.host.script = .write 0 4 :: [] ∧ s.status.busy = false ∧ (4 : Word) ≠ 0 ∧
      (after (step s)).map (fun t => t.status.err) = some .illegalCmd := by decide

/-- CommandWhileBusyOnlySetsIgn, first and third clause: a busy engine; the third with the turn `accept`. -/
theorem witness_busy_command :
    ((turns [.write 0 1] (running .compress .eLoad)).status.busy = true ∧ (1 : Word) ≠ 0) ∧
    ((turns [.accept] (running .compress .eLoad)).host.script = .accept :: [] ∧
      (turns [.accept] (running .compress .eLoad)).status.busy = true ∧
      (after (step (turns [.accept] (running .compress .eLoad)))).isSome = true) := by decide

/-- CommandWhileBusyOnlySetsIgn, second clause: IGN stays over an engine step, and a start while idle clears it. -/
theorem witness_ign :
    let s := { running .compress .eLoad with status := { Status.started .compress with ign := true } }
    let u := turns [.write 0 1] { idleSmall .compress with status := { State.reset.status with ign := true } }
    (s.status.ign = true ∧ (after (step s)).map (fun t => t.status.ign) = some true) ∧
    (u.status.ign = true ∧ (after (step u)).map (fun t => t.status.ign) = some false) := by decide

/-- ValidConfigurationsAreTheLegalOnes: both sides hold at the smallest and at the largest window, and fail at 2F > N. -/
theorem witness_valid :
    validConfig 4 3 2 1 = true ∧ validConfig 4096 4095 18 2 = true ∧ validConfig 8 0 5 2 = false := by decide

/-- ErrorStaysUntilTheNextCommand: ERR changes by a command while idle, and by a reset. -/
theorem witness_error_changes :
    let s := turns [.write 0 3] State.reset
    let u := turns [.reset] { State.reset with status := { State.reset.status with err := .illegalCmd } }
    ((after (step s)).map (fun t => t.status.err) = some .illegalCmd ∧ s.status.err = .none) ∧
    ((after (step u)).map (fun t => t.status.err) = some .none ∧ u.status.err = .illegalCmd) := by decide

/-- CommandsFrame: each command answers, one with BUSY as before and one that starts. -/
theorem witness_commands_frame :
    (after (exec .nop (idleSmall .compress))).isSome = true ∧
    (after (exec .decompress (idleSmall .compress))).map (fun t => t.status.busy) = some false ∧
    (after (exec .compress (idleSmall .compress))).map (fun t => t.status.busy) = some true := by decide

/-- HostReadReturnsTheRegister: reads of CMD, STATUS, OUT_COUNT and the last reserved register. -/
theorem witness_host_read (n : BitVec 4) : (turns [.read n] State.reset).host.script = .read n :: [] := rfl

/-- HostWriteStoresTheMaskedField: the registers at the ends of its ranges. -/
theorem witness_host_write :
    (∀ n : BitVec 4, (turns [.write n 0xFFFFFFFF] State.reset).host.script = .write n 0xFFFFFFFF :: []) ∧
    ((1 : BitVec 4) ≠ 0 ∧ (1 : BitVec 4).toNat = 1) ∧ (2 ≤ (2 : BitVec 4).toNat ∧ (7 : BitVec 4).toNat ≤ 7) ∧
    (8 ≤ (8 : BitVec 4).toNat ∧ 8 ≤ (15 : BitVec 4).toNat) := ⟨fun _ => rfl, by decide⟩

/-- ParametersChangeOnlyAtAStart: they change by a start under SMALL, and by a reset in a SMALL session. -/
theorem witness_parameters_change :
    let s := turns [.write 0 1] { State.reset with cfg := smallCfg .compress }
    (after (step s)).map (fun t => decide (t.par ≠ s.par)) = some true ∧
    (after (step (turns [.reset] (idleSmall .compress)))).map (fun t => decide (t.par ≠ smallPar)) = some true := by decide

/-- InReadTakesOneItem: each clause. -/
theorem witness_in_read :
    ({ running .compress .eLoad with inEof := true }).inEof = true ∧
    ((running .compress .eLoad).inEof = false ∧ (running .compress .eLoad).host.input = []) ∧
    (offered [.eof, .eof] (running .compress .eLoad)).host.input = .eof :: [.eof] ∧
    (offered [.byte 0x41] (running .compress .eLoad)).host.input = .byte 0x41 :: [] ∧
    (after (engineStep { running .decompress .dCtrl with inEof := true })).isSome = true := by decide

/-- LiteralIsWrittenOut and ReferenceIsAssembled: a legal session, a byte accepted, the cursor at the window's end; and
none accepted. -/
theorem witness_literal :
    let s := accepting 1 { running .decompress .dLit with dec := { State.reset.dec with wr := 15 } }
    (s.SessionInv ∧ s.host.credit = 0 + 1) ∧ (running .decompress .dLit).host.credit = 0 := by decide

/-- TokensFrame: each token answers. -/
theorem witness_tokens_frame :
    (after (exec (.ctrl 0xFF) (running .decompress .dCtrl))).isSome = true ∧
    (after (exec (.lit 0x41) (accepting 1 (running .decompress .dLit)))).isSome = true ∧
    (after (exec (.ref 0xFFF 15) (running .decompress .dRef))).isSome = true := by decide

/-- NextFlagChoosesTheToken: the label and no turn; the counts of shifts 0, 7 and 8. -/
theorem witness_next :
    ((running .decompress .dNext).seq = .dNext ∧ (running .decompress .dNext).host.script = []) ∧
    (0 ≤ 8 ∧ 7 ≤ 7 ∧ 8 ≤ 8) := by decide

/-- StreamEndIsReported: an end marker, at D_CTRL, at D_LIT, and at D_REF before and after the first byte. -/
theorem witness_stream_end :
    (∀ q : Seq, ∃ u, inRead (offered [.eof] (running .decompress q)) = .eof u) ∧
    (∃ u, inRead (offered [.eof] { running .decompress .dRef with seg := [0xEE] }) = .eof u) ∧
    (offered [.eof] (running .decompress .dCtrl)).seg = [] ∧ (offered [.eof] (running .decompress .dCtrl)).host.script = [] :=
  ⟨fun _ => ⟨_, rfl⟩, ⟨_, rfl⟩, rfl, rfl⟩

/-- CopyMovesOneByte: the last byte of a copy, K = L, from an aliased position (DEC-16). -/
theorem witness_copy_byte :
    let s := accepting 1 { running .decompress .dCopy with dec := { State.reset.dec with dist := 0x1F, l := 2, k := 2 } }
    s.SessionInv ∧ s.seq = .dCopy ∧ s.host.script = [] ∧ s.dec.k.toNat ≤ s.dec.l.toNat ∧ s.dec.l.toNat < 4095 ∧
      s.host.credit = 0 + 1 ∧ Memory.read s.win ((s.dec.dist.toNat + s.dec.k.toNat) % s.par.n.toNat) = some 0x20 := by decide

/-- CopyRunsToItsEnd: a copy of three bytes whose cursor wraps, one more byte accepted than it needs. -/
theorem witness_copy :
    let s := accepting 4 { running .decompress .dCopy with dec := { State.reset.dec with dist := 14, l := 2, wr := 15 } }
    s.SessionInv ∧ s.seq = .dCopy ∧ s.host.script = [] ∧ s.dec.k = 0 ∧ s.dec.l.toNat < 4095 ∧
      s.dec.wr.toNat < s.par.n.toNat ∧ s.host.credit = s.dec.l.toNat + 1 + 1 ∧
      ∀ i < s.par.n.toNat, Memory.read s.win i = some 0x20 := by decide

/-- DecompressionRunsTheListing: DEC-16's stream, then the end marker and a byte for the next session. -/
theorem witness_decompression :
    let s := accepting 3 (offered [.byte 0x00, .byte 0x1F, .byte 0x00, .eof, .byte 0x41] (running .decompress .dStart))
    s.SessionInv ∧ s.seq = .dStart ∧ s.seg = [] ∧ s.inEof = false ∧ s.host.script = [] ∧
      s.win = Memory.fill 0 s.par.winSize s.par.fill ∧
      s.host.input = ([0x00, 0x1F, 0x00] : List Byte).map Item.byte ++ Item.eof :: [.byte 0x41] ∧
      s.host.credit = (listing s.par 4 0x0000#16 s.par.r0.toNat (fun _ => s.par.fill) [0x00, 0x1F, 0x00]).1.length + 0 := by
  decide

/-- DecodingDoesNotDependOnF and DecompressionNeverFaults: a legal session about to copy its window. -/
theorem witness_decoding :
    let s := accepting 1 (running .decompress .dCopy)
    s.SessionInv ∧ s.WindowInv ∧ s.SegmentInv ∧ s.seq.mode = some .decompress ∧ 1 ≤ (1 : Pos).toNat := by decide

/-- MirroredWriteKeepsTheCopy, before MF_INIT: no PARENT is written (log 23). -/
theorem witness_mirror_before_init :
    let s := running .compress .eStart
    s.SessionInv ∧ 1 < s.par.n.toNat ∧ keyFree s 1 = true ∧ 1 < s.par.f.toNat - 1 := by decide

/-- MirroredWriteKeepsTheCopy: the last position with a copy, the first without, and the last of the window. -/
theorem witness_mirror :
    let s := encoding .eLoad (List.replicate 19 0x20)
    s.SessionInv ∧ (2 < s.par.n.toNat ∧ keyFree s 2 = true ∧ 2 < s.par.f.toNat - 1) ∧
      (3 < s.par.n.toNat ∧ keyFree s 3 = true ∧ ¬ 3 < s.par.f.toNat - 1) ∧
      (15 < s.par.n.toNat ∧ keyFree s 15 = true) := by decide

/-- MaskedAccessIsModuloN, InitEmptiesEveryTree, RemovedPositionIsInNoTree's second clause and InsertIntoAnEmptyTree: a
legal session with empty trees, the first and the last position. -/
theorem witness_empty_trees :
    let s := encoding .eAdv (List.replicate 19 0x20)
    s.SessionInv ∧ tailMirrored s = true ∧ (0 < s.par.n.toNat ∧ 15 < s.par.n.toNat) ∧ Memory.read s.win 15 = some 0x20 ∧
      link .parent (some s) 0 = some s.par.nil ∧ link .parent (some s) 15 = some s.par.nil ∧
      link .right (some s) (s.par.root 0x20) = some s.par.nil := by decide

/-- The state of MF-2 after three insertions: node 8 is a leaf under 0's left link, node 4 under its right link. -/
def mf2Trees : State :=
  match result (insertEach [0, 4, 8] (encoding .eAdv mf2Window)) with
  | some s => s
  | none => State.reset

/-- MatchFoundIsReal: an insertion that answers, with a match of F bytes, child links that are positions or NIL. -/
theorem witness_match :
    mf2Trees.SessionInv ∧ (∀ c ∈ mf2Trees.left, c.2.toNat ≤ mf2Trees.par.nil) ∧
      (∀ c ∈ mf2Trees.right, c.2.toNat ≤ mf2Trees.par.nil) ∧
      (result (mfInsert 12 mf2Trees)).map (fun t => t.found.mlen.toNat) = some 4 := by decide +kernel

/-- The tree for 'A' in MF-2's state has the nodes 0, 4 and 8 only. -/
theorem mf2Trees_nodes {p : Nat} (h : InTree mf2Trees 0x41 p) : p = 0 ∨ p = 4 ∨ p = 8 := by
  have links : linkRead .right mf2Trees (mf2Trees.par.root 0x41) = .ok 0 ∧
      (linkRead .left mf2Trees 0 = .ok 8 ∧ linkRead .right mf2Trees 0 = .ok 4) ∧
      (linkRead .left mf2Trees 4 = .ok 16 ∧ linkRead .right mf2Trees 4 = .ok 16) ∧
      (linkRead .left mf2Trees 8 = .ok 16 ∧ linkRead .right mf2Trees 8 = .ok 16) :=
    ⟨link_some (by decide), ⟨link_some (by decide), link_some (by decide)⟩,
      ⟨link_some (by decide), link_some (by decide)⟩, ⟨link_some (by decide), link_some (by decide)⟩⟩
  have nil : mf2Trees.par.nil = 16 := by decide
  induction h with
  | top hq _ => simp_all
  | left _ hq hn ih => rcases ih with rfl | rfl | rfl <;> simp_all
  | right _ hq hn ih => rcases ih with rfl | rfl | rfl <;> simp_all

/-- MatchFoundIsReal, the clause about byte 0: the inserted position holds 'A' and so does every node of its tree, which is
not empty. -/
theorem witness_match_tree :
    Memory.read mf2Trees.win 12 = some 0x41 ∧ InTree mf2Trees 0x41 0 ∧
      ∀ p, InTree mf2Trees 0x41 p → Memory.read mf2Trees.win p = some 0x41 := by
  refine ⟨by decide, .top (link_some (by decide)) (by decide), fun p h => ?_⟩
  rcases mf2Trees_nodes h with rfl | rfl | rfl <;> decide

/-- RemoveUnlinksALeaf, the left clause: node 8 under the left link of node 0, whose right link is node 4. -/
theorem witness_remove_left :
    mf2Trees.SessionInv ∧ tailMirrored mf2Trees = true ∧ 8 < mf2Trees.par.n.toNat ∧
      link .parent (some mf2Trees) 8 = some 0 ∧ 0 ≠ mf2Trees.par.nil ∧
      link .left (some mf2Trees) 8 = some mf2Trees.par.nil ∧ link .right (some mf2Trees) 8 = some mf2Trees.par.nil ∧
      link .right (some mf2Trees) 0 = some 4 ∧ (4 : Nat) ≠ 8 ∧ link .left (some mf2Trees) 0 = some 8 := by decide

/-- RemovedPositionIsInNoTree's first clause and RemoveUnlinksALeaf's right clause: node 4 under the right link of node 0. -/
theorem witness_remove :
    (result (mfRemove 4 mf2Trees)).isSome = true ∧ mf2Trees.SessionInv ∧ tailMirrored mf2Trees = true ∧
      4 < mf2Trees.par.n.toNat ∧ link .parent (some mf2Trees) 4 = some 0 ∧ 0 ≠ mf2Trees.par.nil ∧
      link .left (some mf2Trees) 4 = some mf2Trees.par.nil ∧ link .right (some mf2Trees) 4 = some mf2Trees.par.nil ∧
      link .right (some mf2Trees) 0 = some 4 := by decide

/-- EncoderStartInitialises and EmptyInputEndsTheSession: E_START, the end marker offered first. -/
theorem witness_encoder_start :
    let s := offered [.eof] (running .compress .eStart)
    s.SessionInv ∧ s.seq = .eStart ∧ s.host.script = [] ∧ s.inEof = false ∧ s.host.input = .eof :: [] := by decide

/-- LiteralIsPacked: a match of T bytes exactly, as token 0 and, with seven literals before it, as token 7. -/
theorem witness_literal_packed :
    let s := { encoding .eToken (List.replicate 19 0x20) with found := { mlen := 2, mpos := 8 } }
    let u := { s with enc := { s.enc with cbptr := 8, cmask := 0x80 } }
    (s.SessionInv ∧ s.seq = .eToken ∧ s.host.script = [] ∧ groupHolds s 0 ∧
      min s.found.mlen.toNat s.enc.len.toNat ≤ s.par.t.toNat ∧ s.enc.r.toNat < s.par.n.toNat ∧
      Memory.read s.win s.enc.r.toNat = some 0x20) ∧
    (u.SessionInv ∧ groupHolds u 7 ∧ min u.found.mlen.toNat u.enc.len.toNat ≤ u.par.t.toNat) := by decide

/-- ReferenceIsPacked: a match clamped to LEN = T + 1, as token 0 and, with seven references before it, as token 7. -/
theorem witness_reference_packed :
    let s := { encoding .eToken (List.replicate 19 0x20) with
      found := { mlen := 4, mpos := 8 }, enc := { State.reset.enc with r := 12, len := 3 } }
    let u := { s with enc := { s.enc with cbptr := 15, cmask := 0x80 } }
    (s.SessionInv ∧ s.seq = .eToken ∧ s.host.script = [] ∧ groupHolds s 0 ∧
      (3 : Pos).toNat = min s.found.mlen.toNat s.enc.len.toNat ∧ s.par.t.toNat < (3 : Pos).toNat) ∧
    (u.SessionInv ∧ groupHolds u 7) := by decide

/-- FullGroupIsFlushed: eight references, the largest group. -/
theorem witness_flush :
    let s := accepting 17 (running .compress .eFlush)
    let s := { s with enc := { s.enc with cbptr := 17, cmask := 0x00 } }
    s.seq = .eFlush ∧ s.host.script = [] ∧ s.outIdx = 0 ∧ groupHolds s 8 ∧ s.host.credit = s.enc.cbptr.toNat + 0 := by decide

/-- LastGroupIsWrittenAndTheSessionEnds: an empty group, and a group of seven references. -/
theorem witness_last_group :
    let s := running .compress .eFinal
    let u := accepting 15 { s with enc := { s.enc with cbptr := 15, cmask := 0x80 } }
    (s.seq = .eFinal ∧ s.host.script = [] ∧ s.outIdx = 0 ∧ groupHolds s 0 ∧ ¬ 1 < s.enc.cbptr.toNat ∧ s.host.credit = 0 + 0) ∧
    (groupHolds u 7 ∧ 1 < u.enc.cbptr.toNat ∧
      u.host.credit = (u.enc.cb.toList.take u.enc.cbptr.toNat).length + 0) := by decide

/-- A pass of E_ADV: SMALL, empty trees, one byte offered, S = 0 with its copy in the tail. -/
def advancing : State :=
  let s := offered [.byte 0x41] (encoding .eAdv (List.replicate 19 0x20))
  { s with enc := { s.enc with lastlen := 1 } }

/-- AdvanceTakesOneByte: the pass answers. -/
theorem witness_advance :
    advancing.SessionInv ∧ advancing.seq = .eAdv ∧ advancing.host.script = [] ∧
      advancing.enc.i.toNat < advancing.enc.lastlen.toNat ∧ advancing.inEof = false ∧
      advancing.host.input = .byte 0x41 :: [] ∧ (after (step advancing)).isSome = true := by decide

/-- AdvanceTakesOneByte at the ends of the mirrored range: S = F - 2 has a copy in the tail, S = F - 1 has none, and S = N - 1
wraps. -/
theorem witness_advance_edges :
    let at_ (p : Pos) : State := { advancing with enc := { advancing.enc with s := p } }
    ((at_ 2).enc.s.toNat < advancing.par.f.toNat - 1 ∧ (after (step (at_ 2))).isSome = true) ∧
    (¬ (at_ 3).enc.s.toNat < advancing.par.f.toNat - 1 ∧ (after (step (at_ 3))).isSome = true) ∧
    (after (step (at_ 15))).isSome = true := by decide

/-- A pass at S = 2 by hand: the byte is at position 2 and at 2 + N in the tail. -/
theorem test_advance_copies :
    (after (step { advancing with enc := { advancing.enc with s := 2 } })).map
      (fun t => (Memory.read t.win 2, Memory.read t.win 18, t.enc.s.toNat, t.enc.r.toNat)) =
      some (some 0x41, some 0x41, 3, 13) := by decide

/-- The statements about every step: a compression session that meets every invariant and steps (TailStaysACopy,
NoWindowFault, WindowStaysWritten, ChildLinksStayPositions, CursorsStayLocked, GroupBufferStaysInRange,
StatusAgreesWithTheSequencer, MemoryStaysCanonical, LatchHoldsAtMostASegment). -/
theorem witness_invariants_encoder :
    (advancing.MemoryInv ∧ advancing.SessionInv ∧ advancing.StatusInv ∧ advancing.SegmentInv) ∧
    (advancing.WindowInv ∧ advancing.CursorInv ∧ advancing.TailInv ∧ advancing.ChildInv ∧ advancing.GroupInv) ∧
    ∃ t, step advancing = .next t := ⟨by decide +kernel, by decide +kernel, answers (by decide)⟩

/-- The same for a decompression session that copies. -/
theorem witness_invariants_decoder :
    let s := accepting 1 (running .decompress .dCopy)
    (s.MemoryInv ∧ s.SessionInv ∧ s.StatusInv ∧ s.SegmentInv) ∧
    (s.WindowInv ∧ s.CursorInv ∧ s.TailInv ∧ s.ChildInv ∧ s.GroupInv) ∧
    ∃ t, step s = .next t := ⟨by decide +kernel, by decide +kernel, answers (by decide)⟩

/-- HardwareResetAbortsTheSession: a reset in a running session (H-26). -/
theorem witness_reset : (turns [.reset] (running .compress .eLoad)).host.script = .reset :: [] := rfl

end Sys2Proof.Tests
end

section
/-! PROOF. O8: what each operation does to the two ports and their counters (spec/00_scope.md R5, spec/10_state.md R39, R40,
spec/20_memory.md R90, R91), and from it that an engine step makes at most one port event. An operation either leaves the
ports alone (`SamePorts`) or is one `InRead` or `OutWrite` among operations that do. -/

namespace Sys2Proof.Machine

/-- From `s` to `t` nothing happened at a port: the host's side and both counters stand. -/
structure SamePorts (s t : State) : Prop where
  host : t.host = s.host
  inCount : t.inCount = s.inCount
  outCount : t.outCount = s.outCount

/-- From `s` to `t` at most one port event happened, and the counters counted it: the items `taken` left the input's
front, the bytes `given` joined the output's end (R39, R40, R90, R91). -/
def OnePortEvent (s t : State) : Prop :=
  ∃ (taken : List Item) (given : List Byte),
    s.host.input = taken ++ t.host.input ∧ t.host.output = s.host.output ++ given ∧
    taken.length + given.length ≤ 1 ∧
    s.host.credit = t.host.credit + given.length ∧
    t.inCount = s.inCount + BitVec.ofNat 32 (taken.filter (fun x => x ≠ .eof)).length ∧
    t.outCount = s.outCount + BitVec.ofNat 32 given.length

/-! Operations that leave the ports alone. -/

theorem SamePorts.refl (s : State) : SamePorts s s := ⟨rfl, rfl, rfl⟩

theorem SamePorts.trans {s t u : State} (h : SamePorts s t) (k : SamePorts t u) : SamePorts s u :=
  ⟨k.host.trans h.host, k.inCount.trans h.inCount, k.outCount.trans h.outCount⟩

theorem SameButTrees.samePorts {s t : State} (h : SameButTrees s t) : SamePorts s t :=
  ⟨h.host, h.inCount, h.outCount⟩

theorem winSetMirror_samePorts {s t : State} {a : Nat} {c : Byte} (h : winSetMirror s a c = .ok t) : SamePorts s t := by
  obtain ⟨-, -, rfl⟩ := winSetMirror_ok h
  exact ⟨rfl, rfl, rfl⟩

theorem eLoadEnd_samePorts (s : State) : SamePorts s (eLoadEnd s) := by
  unfold eLoadEnd
  split <;> exact ⟨rfl, rfl, rfl⟩

theorem ePrime_samePorts {s t : State} (h : ePrime s = .ok t) : SamePorts s t := by
  obtain ⟨u, v, hu, hv, rfl⟩ := ePrime_cases h
  exact ((insertEach_frame hu).trans (mfInsert_frame hv)).samePorts.trans ⟨rfl, rfl, rfl⟩

theorem clampMatch_samePorts (s : State) : SamePorts s (clampMatch s) := by
  unfold clampMatch
  split <;> exact ⟨rfl, rfl, rfl⟩

theorem packToken_samePorts {s t : State} (h : packToken s = .ok t) : SamePorts s t := by
  unfold packToken at h
  split at h
  · obtain ⟨b, hp, -, rfl⟩ := packLiteral_cases h
    exact ⟨rfl, rfl, rfl⟩
  · obtain ⟨hp, rfl⟩ := packReference_cases h
    exact ⟨rfl, rfl, rfl⟩

theorem tokenPacked_samePorts (s : State) : SamePorts s (tokenPacked s) := by
  unfold tokenPacked
  dsimp only
  split <;> exact ⟨rfl, rfl, rfl⟩

theorem eToken_samePorts {s t : State} (h : eToken s = .ok t) : SamePorts s t := by
  obtain ⟨u, hu, h⟩ := bind_ok.1 h
  cases h
  exact (clampMatch_samePorts s).trans <| (packToken_samePorts hu).trans (tokenPacked_samePorts u)

theorem eDrain_samePorts {s t : State} (h : eDrain s = .ok t) : SamePorts s t := by
  obtain ⟨-, rfl⟩ | ⟨-, v, hv, hend⟩ := eDrain_cases h
  · exact ⟨rfl, rfl, rfl⟩
  · have hs : SamePorts s (drained v) := by
      have hr := (mfRemove_frame hv).1.samePorts
      exact ⟨hr.host, hr.inCount, hr.outCount⟩
    obtain ⟨-, rfl⟩ | ⟨-, hi⟩ := hend
    · exact hs
    · exact hs.trans (mfInsert_frame hi).samePorts

theorem eLoop_samePorts (s : State) : SamePorts s (eLoop s) := by
  unfold eLoop
  split <;> exact ⟨rfl, rfl, rfl⟩

/-! The two ports: an event, and no second one after it. -/

theorem SamePorts.onePortEvent {s t : State} (h : SamePorts s t) : OnePortEvent s t :=
  ⟨[], [], by simp [h.host, h.inCount, h.outCount]⟩

theorem OnePortEvent.trans_samePorts {s t u : State} (h : OnePortEvent s t) (k : SamePorts t u) : OnePortEvent s u := by
  unfold OnePortEvent
  rw [k.host, k.inCount, k.outCount]
  exact h

/-- `InRead` that answers a byte takes it and IN_COUNT counts it (R39, R90). -/
theorem onePortEvent_of_inRead_byte {s t : State} {b : Byte} (h : inRead s = .byte b t) : OnePortEvent s t := by
  obtain ⟨-, rest, hr, rfl⟩ := inRead_byte.1 h
  exact ⟨[.byte b], [], by simp [hr]⟩

/-- `InRead` that answers `EOF` takes the end marker or nothing, and IN_COUNT counts neither (R39, R90). -/
theorem onePortEvent_of_inRead_eof {s t : State} (h : inRead s = .eof t) : OnePortEvent s t := by
  obtain ⟨-, rfl⟩ | ⟨-, rest, hr, rfl⟩ := inRead_eof.1 h
  · exact (SamePorts.refl t).onePortEvent
  · exact ⟨[.eof], [], by simp [hr]⟩

/-- `OutWrite` that is accepted gives one byte and OUT_COUNT counts it (R40, R91). -/
theorem onePortEvent_of_outWrite {s t : State} {b : Byte} (h : outWrite b s = some t) : OnePortEvent s t := by
  obtain ⟨n, hn, rfl⟩ := outWrite_some.1 h
  exact ⟨[], [b], by simp [hn]⟩

/-! The labels and the literal, each with one port. -/

theorem emitByte_onePortEvent {c : Byte} {after : State → State} {s t : State} (h : emitByte c after s = .ok t)
    (hafter : ∀ u, SamePorts u (after u)) : OnePortEvent s t := by
  obtain ⟨-, rfl⟩ | ⟨n, hn, -, rfl⟩ := emitByte_ok h
  · exact (SamePorts.refl t).onePortEvent
  · have hout := onePortEvent_of_outWrite (outWrite_some.2 ⟨n, hn, rfl⟩ : outWrite c s = some _)
    refine (hout.trans_samePorts ?_).trans_samePorts (hafter _)
    exact ⟨rfl, rfl, rfl⟩

theorem execLit_onePortEvent {b : Byte} {s t : State} (h : execLit b s = .next t) : OnePortEvent s t :=
  emitByte_onePortEvent (outcomeOf_next.1 h) (fun _ => ⟨rfl, rfl, rfl⟩)

theorem dCopy_onePortEvent {s t : State} (h : dCopy s = .ok t) : OnePortEvent s t := by
  unfold dCopy at h
  split at h
  · obtain ⟨c, -, h⟩ := bind_ok.1 h
    exact emitByte_onePortEvent h (fun _ => ⟨rfl, rfl, rfl⟩)
  · cases h
    exact SamePorts.onePortEvent ⟨rfl, rfl, rfl⟩

theorem fetchByte_onePortEvent (f : Format) (s : State) : OnePortEvent s (fetchByte f s) := by
  unfold fetchByte
  split
  · exact (SamePorts.refl s).onePortEvent
  · next t hi => exact (onePortEvent_of_inRead_eof hi).trans_samePorts ⟨rfl, rfl, rfl⟩
  · next b t hi => exact (onePortEvent_of_inRead_byte hi).trans_samePorts ⟨rfl, rfl, rfl⟩

theorem eLoad_onePortEvent {s t : State} (h : eLoad s = .ok t) : OnePortEvent s t := by
  obtain ⟨-, rfl⟩ | ⟨-, ⟨-, rfl⟩ | ⟨u, hi, rfl⟩ | ⟨c, u, v, hi, hv, rfl⟩⟩ := eLoad_cases h
  · exact (eLoadEnd_samePorts s).onePortEvent
  · exact (SamePorts.refl t).onePortEvent
  · exact (onePortEvent_of_inRead_eof hi).trans_samePorts (eLoadEnd_samePorts u)
  · exact (onePortEvent_of_inRead_byte hi).trans_samePorts ((winSetMirror_samePorts hv).trans ⟨rfl, rfl, rfl⟩)

theorem eAdv_onePortEvent {s t : State} (h : eAdv s = .ok t) : OnePortEvent s t := by
  obtain ⟨-, rfl⟩ | ⟨-, ⟨-, rfl⟩ | ⟨u, hi, rfl⟩ | ⟨c, u, v, w, x, hi, hv, hw, hx, rfl⟩⟩ := eAdv_cases h
  · exact SamePorts.onePortEvent ⟨rfl, rfl, rfl⟩
  · exact (SamePorts.refl t).onePortEvent
  · exact (onePortEvent_of_inRead_eof hi).trans_samePorts ⟨rfl, rfl, rfl⟩
  · have hwrite : SamePorts u w := (mfRemove_frame hv).1.samePorts.trans (winSetMirror_samePorts hw)
    have hcursors : SamePorts w (advanceCursors w) := ⟨rfl, rfl, rfl⟩
    have hinsert : SamePorts (advanceCursors w) x := (mfInsert_frame hx).samePorts
    exact (onePortEvent_of_inRead_byte hi).trans_samePorts
      (hwrite.trans <| hcursors.trans <| hinsert.trans ⟨rfl, rfl, rfl⟩)

theorem outputGroupByte_onePortEvent {s t : State} (h : outputGroupByte s = .ok t) : OnePortEvent s t := by
  obtain ⟨hi, ⟨-, rfl⟩ | ⟨n, hn, rfl⟩⟩ := outputGroupByte_cases h
  · exact (SamePorts.refl t).onePortEvent
  · have hout := onePortEvent_of_outWrite (outWrite_some.2 ⟨n, hn, rfl⟩ : outWrite s.enc.cb[s.outIdx.toNat] s = some _)
    exact hout.trans_samePorts ⟨rfl, rfl, rfl⟩

theorem eFlush_onePortEvent {s t : State} (h : eFlush s = .ok t) : OnePortEvent s t := by
  unfold eFlush at h
  split at h
  · exact outputGroupByte_onePortEvent h
  · cases h
    exact SamePorts.onePortEvent ⟨rfl, rfl, rfl⟩

theorem eFinal_onePortEvent {s t : State} (h : eFinal s = .ok t) : OnePortEvent s t := by
  unfold eFinal at h
  split at h
  · exact outputGroupByte_onePortEvent h
  · cases h
    exact SamePorts.onePortEvent ⟨rfl, rfl, rfl⟩

/-! The engine's step. -/

theorem microStep_onePortEvent {s t : State} (h : microStep s = .ok t) : OnePortEvent s t := by
  cases hq : s.seq <;> simp only [microStep, hq] at h
  case idle => cases h; exact (SamePorts.refl s).onePortEvent
  case eStart => cases h; exact SamePorts.onePortEvent ⟨rfl, rfl, rfl⟩
  case eLoad => exact eLoad_onePortEvent h
  case ePrime => exact (ePrime_samePorts h).onePortEvent
  case eToken => exact (eToken_samePorts h).onePortEvent
  case eFlush => exact eFlush_onePortEvent h
  case eAdv => exact eAdv_onePortEvent h
  case eDrain => exact (eDrain_samePorts h).onePortEvent
  case eLoop => cases h; exact (eLoop_samePorts s).onePortEvent
  case eFinal => exact eFinal_onePortEvent h
  case dStart => cases h; exact SamePorts.onePortEvent ⟨rfl, rfl, rfl⟩
  case dNext => cases h; exact SamePorts.onePortEvent ⟨rfl, rfl, rfl⟩
  case dCtrl => cases h; exact fetchByte_onePortEvent .wCtrl s
  case dLit => cases h; exact fetchByte_onePortEvent .wLit s
  case dRef => cases h; exact fetchByte_onePortEvent .wRef s
  case dCopy => exact dCopy_onePortEvent h

theorem engineStep_onePortEvent {s t : State} (h : engineStep s = .next t) : OnePortEvent s t := by
  obtain ⟨c, -, -, h⟩ | ⟨b, -, -, h⟩ | ⟨b1, b2, -, -, h⟩ | ⟨-, h⟩ := engineStep_cases h
  · cases h
    exact SamePorts.onePortEvent ⟨rfl, rfl, rfl⟩
  · exact execLit_onePortEvent h
  · cases h
    exact SamePorts.onePortEvent ⟨rfl, rfl, rfl⟩
  · exact microStep_onePortEvent h

/-- Settles O8: every operation of a step leaves the ports alone or is its one port event. -/
theorem engineStepMakesAtMostOnePortEvent : Obligations.EngineStepMakesAtMostOnePortEvent :=
  fun _ _ h => engineStep_onePortEvent h

end Sys2Proof.Machine
end

section
/-! PROOF. O21: every operation of the engine commutes with a change of the configuration registers, which none of
them reads or writes (spec/10_state.md R42, R43). One equation for each operation, tagged `@[simp]`, so that the
equation of a sequence of operations follows from its parts' by pushing the change through `bind`. -/

namespace Sys2Proof.Machine

/-- What an operation answers, with the configuration registers holding `c`; its fault stays. -/
def underCfg (c : Cfg) (x : Except Fault State) : Except Fault State :=
  (fun t => t.withCfg c) <$> x

section

variable (s : State) (c : Cfg)

@[simp] theorem underCfg_ok : underCfg c (.ok s) = .ok (s.withCfg c) := rfl

@[simp] theorem underCfg_error (e : Fault) : underCfg c (.error e) = .error e := rfl

@[simp] theorem underCfg_ite (p : Prop) {_ : Decidable p} (x y : Except Fault State) :
    underCfg c (if p then x else y) = if p then underCfg c x else underCfg c y :=
  apply_ite (underCfg c) p x y

theorem withCfg_ite (p : Prop) {_ : Decidable p} (t u : State) :
    (if p then t else u).withCfg c = if p then t.withCfg c else u.withCfg c :=
  apply_ite (fun v : State => v.withCfg c) p t u

@[simp] theorem underCfg_bind {α : Type} (x : Except Fault α) (f : α → Except Fault State) :
    underCfg c (x >>= f) = x >>= fun a => underCfg c (f a) := by
  cases x <;> rfl

@[simp] theorem bind_underCfg (x : Except Fault State) (f : State → Except Fault State) :
    underCfg c x >>= f = x >>= fun t => f (t.withCfg c) := by
  cases x <;> rfl

theorem outcomeOf_underCfg (x : Except Fault State) :
    outcomeOf (underCfg c x) = mapNext (fun t => t.withCfg c) (outcomeOf x) := by
  cases x <;> rfl

/-! Field updates. -/

@[simp] theorem withCfg_withFound (v : MatchState) : (s.withCfg c).withFound v = (s.withFound v).withCfg c := rfl
@[simp] theorem withCfg_withEnc (v : Encoder) : (s.withCfg c).withEnc v = (s.withEnc v).withCfg c := rfl
@[simp] theorem withCfg_goto (q : Seq) : (s.withCfg c).goto q = (s.goto q).withCfg c := rfl
@[simp] theorem withCfg_setP (v : Nat) : setP (s.withCfg c) v = (setP s v).withCfg c := rfl
@[simp] theorem withCfg_setQ (v : Nat) : setQ (s.withCfg c) v = (setQ s v).withCfg c := rfl
@[simp] theorem withCfg_setCmp (v : Int) : setCmp (s.withCfg c) v = (setCmp s v).withCfg c := rfl
@[simp] theorem withCfg_setJ (v : Nat) : setJ (s.withCfg c) v = (setJ s v).withCfg c := rfl
@[simp] theorem withCfg_gotoAdv : gotoAdv (s.withCfg c) = (gotoAdv s).withCfg c := rfl
@[simp] theorem withCfg_emptyGroup : emptyGroup (s.withCfg c) = (emptyGroup s).withCfg c := rfl
@[simp] theorem withCfg_advanceCursors : advanceCursors (s.withCfg c) = (advanceCursors s).withCfg c := rfl
@[simp] theorem withCfg_advanceWrite : advanceWrite (s.withCfg c) = (advanceWrite s).withCfg c := rfl
@[simp] theorem withCfg_finish (r : EndReason) : finish r (s.withCfg c) = (finish r s).withCfg c := rfl

/-! Reads and writes of the RAMs and the group buffer. -/

@[simp] theorem winGetLin_withCfg (i : Nat) : winGetLin (s.withCfg c) i = winGetLin s i := rfl

@[simp] theorem winGetCirc_withCfg (i : Nat) : winGetCirc (s.withCfg c) i = winGetCirc s i := rfl

@[simp] theorem linkRead_withCfg (k : Link) (i : Nat) : linkRead k (s.withCfg c) i = linkRead k s i := by
  cases k <;> rfl

@[simp] theorem groupRead_withCfg (i : Nat) : groupRead (s.withCfg c) i = groupRead s i := rfl

@[simp] theorem keyFree_withCfg (a : Nat) : keyFree (s.withCfg c) a = keyFree s a := rfl

@[simp] theorem tailMirrored_withCfg : tailMirrored (s.withCfg c) = tailMirrored s := rfl

@[simp] theorem winWrite_withCfg (i : Nat) (v : Byte) : winWrite (s.withCfg c) i v = underCfg c (winWrite s i v) := by
  simp only [winWrite, underCfg_ite]
  rfl

@[simp] theorem linkWrite_withCfg (k : Link) (i v : Nat) :
    linkWrite k (s.withCfg c) i v = underCfg c (linkWrite k s i v) := by
  simp only [linkWrite, underCfg_ite]
  cases k <;> rfl

@[simp] theorem groupWrite_withCfg (i : Nat) (v : Byte) :
    groupWrite (s.withCfg c) i v = underCfg c (groupWrite s i v) := by
  unfold groupWrite
  split <;> rfl

@[simp] theorem winSetMirror_withCfg (a : Nat) (b : Byte) :
    winSetMirror (s.withCfg c) a b = underCfg c (winSetMirror s a b) := by
  simp [winSetMirror]

@[simp] theorem winSetCirc_withCfg (a : Nat) (b : Byte) :
    winSetCirc (s.withCfg c) a b = underCfg c (winSetCirc s a b) :=
  winWrite_withCfg s c _ b

/-! The match finder. -/

@[simp] theorem mfCompare_withCfg (fuel r : Nat) :
    mfCompare fuel r (s.withCfg c) = underCfg c (mfCompare fuel r s) := by
  induction fuel generalizing s with
  | zero => rfl
  | succ n ih => simp [mfCompare, ih]

@[simp] theorem mfMeasure_withCfg (r : Nat) : mfMeasure r (s.withCfg c) = underCfg c (mfMeasure r s) := by
  simp [mfMeasure]
  rfl

@[simp] theorem mfReplace_withCfg (r : Nat) : mfReplace r (s.withCfg c) = underCfg c (mfReplace r s) := by
  simp [mfReplace]
  rfl

@[simp] theorem mfWalk_withCfg (fuel r : Nat) : mfWalk fuel r (s.withCfg c) = underCfg c (mfWalk fuel r s) := by
  induction fuel generalizing s with
  | zero => rfl
  | succ n ih =>
    simp [mfWalk, ih]
    rfl

@[simp] theorem mfInsertCheck_withCfg (r : Nat) : mfInsertCheck r (s.withCfg c) = mfInsertCheck r s := by
  unfold mfInsertCheck
  simp only [State.withCfg_par, linkRead_withCfg, tailMirrored_withCfg]
  rfl

@[simp] theorem mfInsert_withCfg (r : Nat) : mfInsert r (s.withCfg c) = underCfg c (mfInsert r s) := by
  simp [mfInsert]

@[simp] theorem mfRightmost_withCfg (fuel : Nat) :
    mfRightmost fuel (s.withCfg c) = underCfg c (mfRightmost fuel s) := by
  induction fuel generalizing s with
  | zero => rfl
  | succ n ih => simp [mfRightmost, ih]

@[simp] theorem mfPredecessor_withCfg (p : Nat) :
    mfPredecessor p (s.withCfg c) = underCfg c (mfPredecessor p s) := by
  simp [mfPredecessor]

@[simp] theorem mfUnlink_withCfg (p : Nat) : mfUnlink p (s.withCfg c) = underCfg c (mfUnlink p s) := by
  simp [mfUnlink]

@[simp] theorem mfTwoChildren_withCfg (p : Nat) :
    mfTwoChildren p (s.withCfg c) = underCfg c (mfTwoChildren p s) := by
  simp [mfTwoChildren]

@[simp] theorem mfSuccessor_withCfg (p : Nat) : mfSuccessor p (s.withCfg c) = underCfg c (mfSuccessor p s) := by
  simp [mfSuccessor]

@[simp] theorem mfSplice_withCfg (p : Nat) : mfSplice p (s.withCfg c) = underCfg c (mfSplice p s) := by
  simp [mfSplice]

@[simp] theorem mfRemove_withCfg (p : Nat) : mfRemove p (s.withCfg c) = underCfg c (mfRemove p s) := by
  simp [mfRemove]

@[simp] theorem insertEach_withCfg (rs : List Nat) :
    insertEach rs (s.withCfg c) = underCfg c (insertEach rs s) := by
  induction rs generalizing s with
  | nil => rfl
  | cons r rs ih => simp [insertEach, ih]

/-! The labels. -/

/-- What `InRead` gives, with the configuration registers holding `c`. -/
def Taken.withCfg : Taken → Taken
  | .wait => .wait
  | .eof t => .eof (t.withCfg c)
  | .byte b t => .byte b (t.withCfg c)

theorem inRead_withCfg : inRead (s.withCfg c) = (inRead s).withCfg c := by
  cases he : s.inEof with
  | true => simp [inRead, he, Taken.withCfg]
  | false =>
    rcases hi : s.host.input with _ | ⟨_ | _, _⟩ <;>
      simp [inRead, he, hi, Taken.withCfg] <;> rfl

@[simp] theorem eLoadEnd_withCfg : eLoadEnd (s.withCfg c) = (eLoadEnd s).withCfg c := by
  simp only [eLoadEnd, withCfg_ite]
  rfl

@[simp] theorem eLoad_withCfg : eLoad (s.withCfg c) = underCfg c (eLoad s) := by
  unfold eLoad
  rw [inRead_withCfg]
  cases inRead s <;> simp [Taken.withCfg]

@[simp] theorem ePrime_withCfg : ePrime (s.withCfg c) = underCfg c (ePrime s) := by
  simp [ePrime]

@[simp] theorem clampMatch_withCfg : clampMatch (s.withCfg c) = (clampMatch s).withCfg c := by
  simp only [clampMatch, withCfg_ite]
  rfl

@[simp] theorem packToken_withCfg : packToken (s.withCfg c) = underCfg c (packToken s) := by
  simp [packToken, packLiteral, packReference]

@[simp] theorem tokenPacked_withCfg : tokenPacked (s.withCfg c) = (tokenPacked s).withCfg c := by
  simp only [tokenPacked, withCfg_ite]
  rfl

@[simp] theorem eToken_withCfg : eToken (s.withCfg c) = underCfg c (eToken s) := by
  simp [eToken]

theorem outWrite_withCfg (b : Byte) : outWrite b (s.withCfg c) = (outWrite b s).map (fun t => t.withCfg c) := by
  simp only [outWrite, State.withCfg_host]
  cases s.host.credit <;> rfl

@[simp] theorem outputGroupByte_withCfg : outputGroupByte (s.withCfg c) = underCfg c (outputGroupByte s) := by
  unfold outputGroupByte
  simp only [State.withCfg_outIdx, groupRead_withCfg, underCfg_bind]
  refine congrArg _ (funext fun b => ?_)
  rw [outWrite_withCfg]
  cases outWrite b s <;> rfl

@[simp] theorem eFlush_withCfg : eFlush (s.withCfg c) = underCfg c (eFlush s) := by
  simp [eFlush]

@[simp] theorem eAdv_withCfg : eAdv (s.withCfg c) = underCfg c (eAdv s) := by
  unfold eAdv
  rw [inRead_withCfg]
  cases inRead s <;> simp [Taken.withCfg] <;> rfl

@[simp] theorem eDrain_withCfg : eDrain (s.withCfg c) = underCfg c (eDrain s) := by
  simp only [eDrain, State.withCfg_enc, withCfg_withEnc, withCfg_advanceCursors, withCfg_goto, mfRemove_withCfg,
    mfInsert_withCfg, bind_underCfg, underCfg_bind, underCfg_ite, underCfg_ok]

@[simp] theorem eLoop_withCfg : eLoop (s.withCfg c) = (eLoop s).withCfg c := by
  simp only [eLoop, withCfg_ite]
  rfl

@[simp] theorem eFinal_withCfg : eFinal (s.withCfg c) = underCfg c (eFinal s) := by
  simp [eFinal]

theorem emitByte_withCfg (b : Byte) {after : State → State}
    (h : ∀ t : State, after (t.withCfg c) = (after t).withCfg c) :
    emitByte b after (s.withCfg c) = underCfg c (emitByte b after s) := by
  unfold emitByte
  rw [outWrite_withCfg]
  cases outWrite b s <;> simp [h]

@[simp] theorem dCopy_withCfg : dCopy (s.withCfg c) = underCfg c (dCopy s) := by
  have hemit (b : Byte) : emitByte b advanceCopy (s.withCfg c) = underCfg c (emitByte b advanceCopy s) :=
    emitByte_withCfg s c b fun _ => rfl
  simp [dCopy, hemit]

@[simp] theorem fetchByte_withCfg (f : Format) : fetchByte f (s.withCfg c) = (fetchByte f s).withCfg c := by
  unfold fetchByte
  rw [inRead_withCfg]
  cases inRead s <;> rfl

theorem microStep_withCfg : microStep (s.withCfg c) = underCfg c (microStep s) := by
  cases hq : s.seq <;> simp [microStep, hq] <;> rfl

theorem execLit_withCfg (b : Byte) :
    execLit b (s.withCfg c) = mapNext (fun t => t.withCfg c) (execLit b s) := by
  unfold execLit
  rw [emitByte_withCfg s c b fun _ => rfl, outcomeOf_underCfg]

/-- A segment of the wire decodes to a token or a control byte, never to a command (R126). -/
theorem decode_segment_ok {f : Format} {bytes : List Byte} {i : Instr} (h : decode (.segment f bytes) = .ok i) :
    (∃ c, i = .ctrl c) ∨ (∃ b, i = .lit b) ∨ ∃ pos ln, i = .ref pos ln := by
  unfold decode at h
  cases f with
  | wCtrl =>
    rcases bytes with _ | ⟨b, _ | _⟩ <;> cases h
    exact .inl ⟨b, rfl⟩
  | wLit =>
    rcases bytes with _ | ⟨b, _ | _⟩ <;> cases h
    exact .inr (.inl ⟨b, rfl⟩)
  | wRef =>
    rcases bytes with _ | ⟨b1, _ | ⟨b2, _ | _⟩⟩ <;> cases h
    exact .inr (.inr ⟨_, _, rfl⟩)

theorem exec_withCfg {f : Format} {bytes : List Byte} {i : Instr} (h : decode (.segment f bytes) = .ok i) :
    exec i (s.withCfg c) = mapNext (fun t => t.withCfg c) (exec i s) := by
  obtain ⟨b, rfl⟩ | ⟨b, rfl⟩ | ⟨pos, ln, rfl⟩ := decode_segment_ok h
  · rfl
  · exact execLit_withCfg s c b
  · rfl

theorem engineStep_withCfg : engineStep (s.withCfg c) = mapNext (fun t => t.withCfg c) (engineStep s) := by
  have hfetched : fetched (s.withCfg c) = fetched s := rfl
  unfold engineStep
  rw [hfetched]
  cases hf : fetched s with
  | none => simp only [microStep_withCfg, outcomeOf_underCfg]
  | some x =>
    obtain ⟨f, -, -, rfl⟩ := fetched_some hf
    cases hd : decode (.segment f s.seg) with
    | ok i => simp only [hd, exec_withCfg s c hd]
    | error e => simp only [hd]; rfl

end

/-- Settles O21: each operation of the engine's step commutes with a change of the configuration registers. -/
theorem configurationDoesNotReachTheSession : Obligations.ConfigurationDoesNotReachTheSession :=
  engineStep_withCfg

end Sys2Proof.Machine
end

section
/-! PROOF. What a step changes, in the terms the invariants of spec/10_state.md use: the frame of `InRead`, the cases of the
labels that `Laws/Step.lean` leaves out, what an engine step does to the session, and the packaging of "every step keeps
it". -/

namespace Sys2Proof.Machine

/-! The ports. -/

theorem inRead_eof_frame {s t : State} (h : inRead s = .eof t) :
    ∃ host inEof, t = (s.withHost host).withInEof inEof := by
  obtain ⟨-, rfl⟩ | ⟨-, rest, -, rfl⟩ := inRead_eof.1 h
  · exact ⟨t.host, t.inEof, rfl⟩
  · exact ⟨_, _, rfl⟩

theorem inRead_byte_frame {s t : State} {b : Byte} (h : inRead s = .byte b t) :
    ∃ host inCount, t = (s.withHost host).withInCount inCount := by
  obtain ⟨-, rest, -, rfl⟩ := inRead_byte.1 h
  exact ⟨_, _, rfl⟩

/-! The labels. -/

/-- MF_INIT changes the link arrays only (R163). -/
theorem mfInit_frame (s : State) : SameButLinks s (mfInit s) :=
  ⟨⟨rfl, rfl, rfl, rfl, rfl, rfl, rfl, rfl, rfl, rfl, rfl, rfl, rfl⟩, rfl⟩

/-- E_START empties the trees and the group (R191). -/
theorem eStart_cases (s : State) :
    ∃ enc, enc.cbptr = 1 ∧ enc.cmask = 0x01 ∧ eStart s = ((mfInit s).withEnc enc).goto .eLoad :=
  ⟨_, rfl, rfl, rfl⟩

theorem eLoadEnd_cases (s : State) : eLoadEnd s = gotoOutput .eFinal s ∨ eLoadEnd s = s.goto .ePrime := by
  unfold eLoadEnd
  split
  · exact .inl rfl
  · exact .inr rfl

theorem eLoop_cases (s : State) : eLoop s = gotoOutput .eFinal s ∨ eLoop s = s.goto .eToken := by
  unfold eLoop
  split
  · exact .inl rfl
  · exact .inr rfl

theorem clampMatch_frame (s : State) : ∃ found, clampMatch s = s.withFound found := by
  unfold clampMatch
  split
  · exact ⟨_, rfl⟩
  · exact ⟨s.found, rfl⟩

theorem packToken_frame {s t : State} (h : packToken s = .ok t) :
    ∃ found enc, t = (s.withFound found).withEnc enc := by
  unfold packToken at h
  split at h
  · obtain ⟨b, hp, -, rfl⟩ := packLiteral_cases h
    exact ⟨_, _, rfl⟩
  · obtain ⟨hp, rfl⟩ := packReference_cases h
    exact ⟨s.found, _, rfl⟩

theorem eToken_cases {s t : State} (h : eToken s = .ok t) :
    ∃ u, packToken (clampMatch s) = .ok u ∧ t = tokenPacked u := by
  obtain ⟨u, hu, h⟩ := bind_ok.1 h
  cases h
  exact ⟨u, hu, rfl⟩

/-- Part 2 of E_TOKEN goes to E_FLUSH when the mask's bit is shifted out, else to E_ADV (R198). -/
theorem tokenPacked_cases (s : State) :
    let enc := { s.enc with cmask := shiftMask s.enc.cmask, lastlen := s.found.mlen }
    (enc.cmask = 0 ∧ tokenPacked s = gotoOutput .eFlush (s.withEnc enc)) ∨
    (enc.cmask ≠ 0 ∧ tokenPacked s = gotoAdv (s.withEnc enc)) := by
  by_cases h : shiftMask s.enc.cmask = 0
  · exact .inl ⟨h, if_pos h⟩
  · exact .inr ⟨h, if_neg h⟩

/-- E_TOKEN changes the match state, the encoder's registers, the output loops' index and the label (R195 to R198). -/
theorem eToken_frame {s t : State} (h : eToken s = .ok t) :
    ∃ found enc outIdx q, (q = .eFlush ∨ q = .eAdv) ∧
      t = (((s.withFound found).withEnc enc).withOutIdx outIdx).goto q := by
  obtain ⟨u, hu, rfl⟩ := eToken_cases h
  obtain ⟨clamped, hc⟩ := clampMatch_frame s
  rw [hc] at hu
  obtain ⟨found, enc, rfl⟩ := packToken_frame hu
  have hpacked (e : Encoder) : gotoAdv (((s.withFound found).withEnc enc).withEnc e) =
      (((s.withFound found).withEnc { e with i := 0 }).withOutIdx s.outIdx).goto .eAdv := rfl
  obtain ⟨-, h⟩ | ⟨-, h⟩ := tokenPacked_cases ((s.withFound found).withEnc enc)
  · exact ⟨found, _, 0, .eFlush, .inl rfl, h⟩
  · exact ⟨found, _, s.outIdx, .eAdv, .inr rfl, h.trans (hpacked _)⟩

theorem eFlush_cases {s t : State} (h : eFlush s = .ok t) :
    (s.outIdx.toNat < s.enc.cbptr.toNat ∧ outputGroupByte s = .ok t) ∨
    (s.enc.cbptr.toNat ≤ s.outIdx.toNat ∧ t = gotoAdv (emptyGroup s)) := by
  unfold eFlush at h
  split at h
  · next hl => exact .inl ⟨hl, h⟩
  · next hl => cases h; exact .inr ⟨not_lt.1 hl, rfl⟩

theorem eFinal_cases {s t : State} (h : eFinal s = .ok t) :
    ((1 < s.enc.cbptr.toNat ∧ s.outIdx.toNat < s.enc.cbptr.toNat) ∧ outputGroupByte s = .ok t) ∨
    (¬ (1 < s.enc.cbptr.toNat ∧ s.outIdx.toNat < s.enc.cbptr.toNat) ∧ t = finish .encComplete s) := by
  unfold eFinal at h
  split at h
  · next hl => exact .inl ⟨hl, h⟩
  · next hl => cases h; exact .inr ⟨hl, rfl⟩

theorem outputGroupByte_frame {s t : State} (h : outputGroupByte s = .ok t) :
    ∃ host outCount outIdx, t = ((s.withHost host).withOutCount outCount).withOutIdx outIdx := by
  obtain ⟨_, ⟨-, rfl⟩ | ⟨_, -, rfl⟩⟩ := outputGroupByte_cases h
  · exact ⟨t.host, t.outCount, t.outIdx, rfl⟩
  · exact ⟨_, _, _, rfl⟩

theorem fetchByte_cases (f : Format) (s : State) :
    (inRead s = .wait ∧ fetchByte f s = s) ∨
    (∃ u, inRead s = .eof u ∧ fetchByte f s = finish (endReasonOf f s.seg) u) ∨
    (∃ b u, inRead s = .byte b u ∧ fetchByte f s = latchByte f b u) := by
  unfold fetchByte
  cases hi : inRead s with
  | wait => exact .inl ⟨rfl, rfl⟩
  | eof u => exact .inr (.inl ⟨u, rfl, rfl⟩)
  | byte b u => exact .inr (.inr ⟨b, u, rfl, rfl⟩)

/-- A byte of the decoder's output changes the window, the write cursor and the output, before what comes after it. -/
theorem emitByte_frame {c : Byte} {after : State → State} {s t : State} (h : emitByte c after s = .ok t) :
    t = s ∨ ∃ host outCount win dec,
      t = after ((((s.withHost host).withOutCount outCount).withWin win).withDec dec) := by
  obtain ⟨-, rfl⟩ | ⟨n, -, -, rfl⟩ := emitByte_ok h
  · exact .inl rfl
  · exact .inr ⟨_, _, _, _, rfl⟩

theorem dCopy_frame {s t : State} (h : dCopy s = .ok t) :
    t = s.goto .dNext ∨ t = s ∨ ∃ host outCount win dec,
      t = advanceCopy ((((s.withHost host).withOutCount outCount).withWin win).withDec dec) := by
  unfold dCopy at h
  split at h
  · obtain ⟨c, -, h⟩ := bind_ok.1 h
    exact .inr (emitByte_frame h)
  · cases h
    exact .inl rfl

theorem execLit_frame {b : Byte} {s t : State} (h : execLit b s = .next t) :
    t = s ∨ ∃ host outCount win dec,
      t = (((((s.withHost host).withOutCount outCount).withWin win).withDec dec).withSeg []).goto .dNext :=
  emitByte_frame (outcomeOf_next.1 h)

theorem Seq.mode_eq_none {q : Seq} : q.mode = none ↔ q = .idle := by
  cases q <;> simp [Seq.mode]

theorem tokenLabel_mode (flags : BitVec 16) : (tokenLabel flags).mode = some .decompress := by
  unfold tokenLabel
  split <;> rfl

theorem nextLabel_mode (flags : BitVec 16) : (nextLabel flags).mode = some .decompress := by
  unfold nextLabel
  split
  · rfl
  · exact tokenLabel_mode flags

theorem endReasonOf_ne_none (f : Format) (taken : List Byte) : endReasonOf f taken ≠ .none := by
  unfold endReasonOf
  split <;> simp

/-! The engine's step and the session. -/

/-- From `s` to `t` the session goes on: the parameters and STATUS stand and the label is of the same mode. -/
structure SessionRuns (s t : State) : Prop where
  par : t.par = s.par
  status : t.status = s.status
  mode : t.seq.mode = s.seq.mode

theorem SameButTrees.sessionRuns {s t : State} (h : SameButTrees s t) : SessionRuns s t :=
  ⟨h.par, h.status, by rw [h.seq]⟩

theorem SessionRuns.refl (s : State) : SessionRuns s s := ⟨rfl, rfl, rfl⟩

theorem SessionRuns.trans {s t u : State} (h : SessionRuns s t) (k : SessionRuns t u) : SessionRuns s u :=
  ⟨k.par.trans h.par, k.status.trans h.status, k.mode.trans h.mode⟩

theorem SessionRuns.ofEnc (s : State) (enc : Encoder) : SessionRuns s (s.withEnc enc) := ⟨rfl, rfl, rfl⟩

/-- What an engine step does to the session: it goes on, or `finish` ends it (R63). -/
inductive SessionMove (s t : State) : Prop where
  | runs (h : SessionRuns s t)
  | ends (reason : EndReason) (hreason : reason ≠ .none) (hseq : s.seq ≠ .idle) (hpar : t.par = s.par)
      (hstatus : t.status = s.status.finished reason) (hidle : t.seq = .idle)

theorem SessionMove.par {s t : State} (h : SessionMove s t) : t.par = s.par := by
  cases h with
  | runs h => exact h.par
  | ends _ _ _ hpar => exact hpar

/-- An engine step that comes to a label of a session comes from one of the same mode. -/
theorem SessionMove.mode {s t : State} {m : Mode} (h : SessionMove s t) (ht : t.seq.mode = some m) :
    s.seq.mode = some m := by
  cases h with
  | runs h => rw [← h.mode, ht]
  | ends _ _ _ _ _ hidle => simp [hidle, Seq.mode] at ht

theorem eLoadEnd_runs {s : State} (hq : s.seq.mode = some .compress) : SessionRuns s (eLoadEnd s) := by
  obtain h | h := eLoadEnd_cases s <;> rw [h] <;> exact ⟨rfl, rfl, hq.symm⟩

theorem eLoad_runs {s t : State} (hq : s.seq.mode = some .compress) (h : eLoad s = .ok t) : SessionRuns s t := by
  obtain ⟨-, rfl⟩ | ⟨-, ⟨-, rfl⟩ | ⟨u, hi, rfl⟩ | ⟨c, u, v, hi, hv, rfl⟩⟩ := eLoad_cases h
  · exact eLoadEnd_runs hq
  · exact .refl t
  · obtain ⟨host, inEof, rfl⟩ := inRead_eof_frame hi
    have hend := eLoadEnd_runs (s := (s.withHost host).withInEof inEof) hq
    exact ⟨hend.par, hend.status, hend.mode⟩
  · obtain ⟨_, _, rfl⟩ := inRead_byte_frame hi
    obtain ⟨-, -, rfl⟩ := winSetMirror_ok hv
    exact ⟨rfl, rfl, rfl⟩

theorem eAdv_runs {s t : State} (hq : s.seq.mode = some .compress) (h : eAdv s = .ok t) : SessionRuns s t := by
  obtain ⟨-, rfl⟩ | ⟨-, ⟨-, rfl⟩ | ⟨u, hi, rfl⟩ | ⟨c, u, v, w, x, hi, hv, hw, hx, rfl⟩⟩ := eAdv_cases h
  · exact ⟨rfl, rfl, hq.symm⟩
  · exact .refl t
  · obtain ⟨_, _, rfl⟩ := inRead_eof_frame hi
    exact ⟨rfl, rfl, hq.symm⟩
  · have hread : SessionRuns s u := by
      obtain ⟨_, _, rfl⟩ := inRead_byte_frame hi
      exact ⟨rfl, rfl, rfl⟩
    have hwrite : SessionRuns v w := by
      obtain ⟨-, -, rfl⟩ := winSetMirror_ok hw
      exact ⟨rfl, rfl, rfl⟩
    exact hread.trans <| (mfRemove_frame hv).1.sessionRuns.trans <| hwrite.trans <| (SessionRuns.ofEnc w _).trans <|
      (mfInsert_frame hx).sessionRuns.trans (.ofEnc x _)

theorem eDrain_runs {s t : State} (hq : s.seq.mode = some .compress) (h : eDrain s = .ok t) : SessionRuns s t := by
  obtain ⟨-, rfl⟩ | ⟨-, v, hv, hend⟩ := eDrain_cases h
  · exact ⟨rfl, rfl, hq.symm⟩
  · have hdrained : SessionRuns s (drained v) :=
      (SessionRuns.ofEnc s _).trans <| (mfRemove_frame hv).1.sessionRuns.trans (.ofEnc v _)
    obtain ⟨-, rfl⟩ | ⟨-, hi⟩ := hend
    · exact hdrained
    · exact hdrained.trans (mfInsert_frame hi).sessionRuns

theorem outputGroupByte_runs {s t : State} (h : outputGroupByte s = .ok t) : SessionRuns s t := by
  obtain ⟨_, _, _, rfl⟩ := outputGroupByte_frame h
  exact ⟨rfl, rfl, rfl⟩

theorem eFinal_move {s t : State} (hq : s.seq ≠ .idle) (h : eFinal s = .ok t) : SessionMove s t := by
  obtain ⟨-, h⟩ | ⟨-, rfl⟩ := eFinal_cases h
  · exact .runs (outputGroupByte_runs h)
  · exact .ends .encComplete (by decide) hq rfl rfl rfl

theorem fetchByte_move (f : Format) {s : State} (hq : s.seq ≠ .idle) : SessionMove s (fetchByte f s) := by
  obtain ⟨-, h⟩ | ⟨u, hi, h⟩ | ⟨b, u, hi, h⟩ := fetchByte_cases f s <;> rw [h]
  · exact .runs (.refl s)
  · obtain ⟨_, _, rfl⟩ := inRead_eof_frame hi
    exact .ends _ (endReasonOf_ne_none f s.seg) hq rfl rfl rfl
  · obtain ⟨_, _, rfl⟩ := inRead_byte_frame hi
    exact .runs ⟨rfl, rfl, rfl⟩

theorem dCopy_runs {s t : State} (hq : s.seq.mode = some .decompress) (h : dCopy s = .ok t) : SessionRuns s t := by
  obtain rfl | rfl | ⟨_, _, _, _, rfl⟩ := dCopy_frame h
  · exact ⟨rfl, rfl, hq.symm⟩
  · exact .refl t
  · exact ⟨rfl, rfl, rfl⟩

theorem microStep_move {s t : State} (h : microStep s = .ok t) : SessionMove s t := by
  cases hq : s.seq <;> have hmode := congrArg Seq.mode hq <;> simp only [microStep, hq] at h
  case idle => cases h; exact .runs (.refl s)
  case eStart =>
    cases h
    obtain ⟨enc, -, -, h⟩ := eStart_cases s
    have hinit := (mfInit_frame s).1.sessionRuns
    exact .runs (h ▸ ⟨hinit.par, hinit.status, hmode.symm⟩)
  case eLoad => exact .runs (eLoad_runs hmode h)
  case ePrime =>
    obtain ⟨u, v, hu, hv, rfl⟩ := ePrime_cases h
    have hinsert := ((insertEach_frame hu).trans (mfInsert_frame hv)).sessionRuns
    exact .runs ⟨hinsert.par, hinsert.status, hmode.symm⟩
  case eToken =>
    obtain ⟨_, _, _, q, rfl | rfl, rfl⟩ := eToken_frame h <;> exact .runs ⟨rfl, rfl, hmode.symm⟩
  case eFlush =>
    obtain ⟨-, h⟩ | ⟨-, rfl⟩ := eFlush_cases h
    · exact .runs (outputGroupByte_runs h)
    · exact .runs ⟨rfl, rfl, hmode.symm⟩
  case eAdv => exact .runs (eAdv_runs hmode h)
  case eDrain => exact .runs (eDrain_runs hmode h)
  case eLoop =>
    cases h
    obtain h | h := eLoop_cases s <;> rw [h] <;> exact .runs ⟨rfl, rfl, hmode.symm⟩
  case eFinal => exact eFinal_move (by simp [hq]) h
  case dStart => cases h; exact .runs ⟨rfl, rfl, hmode.symm⟩
  case dNext => cases h; exact .runs ⟨rfl, rfl, (nextLabel_mode _).trans hmode.symm⟩
  case dCtrl => cases h; exact fetchByte_move .wCtrl (by simp [hq])
  case dLit => cases h; exact fetchByte_move .wLit (by simp [hq])
  case dRef => cases h; exact fetchByte_move .wRef (by simp [hq])
  case dCopy => exact .runs (dCopy_runs hmode h)

theorem engineStep_move {s t : State} (h : engineStep s = .next t) : SessionMove s t := by
  obtain ⟨c, hq, -, h⟩ | ⟨b, hq, -, h⟩ | ⟨b1, b2, hq, -, h⟩ | ⟨-, h⟩ := engineStep_cases h
  · cases h
    exact .runs ⟨rfl, rfl, (tokenLabel_mode _).trans (by rw [hq]; rfl)⟩
  · obtain rfl | ⟨_, _, _, _, rfl⟩ := execLit_frame h
    · exact .runs (.refl t)
    · exact .runs ⟨rfl, rfl, by rw [hq]; rfl⟩
  · cases h
    exact .runs ⟨rfl, rfl, by rw [hq]; rfl⟩
  · exact microStep_move h

end Sys2Proof.Machine
end

section
/-! PROOF. Every step, in one place: what the host's turns change, and the packaging of an invariant's proof. -/

namespace Sys2Proof.Machine

/-- A write to a register other than CMD changes the configuration only (R268). -/
theorem hostWrite_frame (n : BitVec 4) (v : Word) (s : State) : ∃ cfg, hostWrite n v s = s.withCfg cfg := by
  unfold hostWrite
  split
  case h_7 => exact ⟨s.cfg, rfl⟩
  all_goals exact ⟨_, rfl⟩

/-- A turn of the host is a reset, or changes the configuration and the host's side only. -/
theorem hostTurn_cases (turn : Turn) (s : State) :
    (turn = .reset ∧ hostTurn turn s = State.reset.withHost s.host) ∨
    ∃ cfg host, hostTurn turn s = (s.withCfg cfg).withHost host := by
  cases turn with
  | read n => exact .inr ⟨s.cfg, _, rfl⟩
  | write n v =>
    obtain ⟨cfg, h⟩ := hostWrite_frame n v s
    exact .inr ⟨cfg, s.host, h⟩
  | offer x => exact .inr ⟨s.cfg, _, rfl⟩
  | accept => exact .inr ⟨s.cfg, _, rfl⟩
  | reset => exact .inl ⟨rfl, rfl⟩
  | engine => exact .inr ⟨s.cfg, s.host, rfl⟩

/-- Every step keeps what the configuration and the host's side do not touch, a write to CMD keeps, the state after reset
meets, and the engine's step keeps. -/
theorem step_keeps {P : State → Prop} (hframe : ∀ s cfg host, P s → P ((s.withCfg cfg).withHost host))
    (hcommand : ∀ v s, P s → P (commandWrite v s)) (hreset : P State.reset)
    (hengine : ∀ s t, P s → engineStep s = .next t → P t) {s t : State} (hs : P s) (h : step s = .next t) : P t := by
  have hnext (ts : List Turn) : P (nextTurn ts s) := hframe s s.cfg _ hs
  obtain ⟨-, h⟩ | ⟨ts, -, h⟩ | ⟨v, ts, -, rfl⟩ | ⟨turn, ts, -, -, -, rfl⟩ := step_cases h
  · exact hengine s t hs h
  · exact hengine _ t (hnext ts) h
  · exact hcommand v _ (hnext ts)
  · obtain ⟨-, h⟩ | ⟨cfg, host, h⟩ := hostTurn_cases turn (nextTurn ts s) <;> rw [h]
    · exact hframe State.reset State.reset.cfg _ hreset
    · exact hframe _ cfg host (hnext ts)

/-- A write to CMD changes STATUS only, or starts a session under a legal configuration while idle (R261, R289). -/
theorem commandWrite_status_or_start (v : Word) (s : State) :
    (∃ status, commandWrite v s = s.withStatus status) ∨
    (s.status.busy = false ∧ s.cfg.valid = true ∧
      commandWrite v s = startSession (commandMode v) (clearResult s)) := by
  obtain ⟨-, -, h⟩ | ⟨-, -, h⟩ | ⟨-, -, h⟩ | ⟨-, -, -, h⟩ | ⟨-, -, -, h⟩ | ⟨-, -, -, -, h⟩ | ⟨hb, -, hv, -, h⟩ :=
    commandWrite_cases v s
  · exact .inl ⟨s.status, h⟩
  · exact .inl ⟨_, h⟩
  · exact .inl ⟨s.status, h⟩
  · exact .inl ⟨_, h⟩
  · exact .inl ⟨_, h⟩
  · exact .inl ⟨_, h⟩
  · exact .inr ⟨hb, hv, h⟩

/-- A write to CMD keeps what STATUS does not touch and the start of a session under a legal configuration meets. -/
theorem commandWrite_keeps {P : State → Prop} (hstatus : ∀ s status, P s → P (s.withStatus status))
    (hstart : ∀ mode s, s.cfg.valid = true → P (startSession mode s)) (v : Word) (s : State) (hs : P s) :
    P (commandWrite v s) := by
  obtain ⟨status, h⟩ | ⟨-, hv, h⟩ := commandWrite_status_or_start v s <;> rw [h]
  · exact hstatus s status hs
  · exact hstart _ _ hv

/-! The settings. -/

theorem validConfig_iff {n r0 f t : Nat} : validConfig n r0 f t = true ↔ LegalSettings n r0 f t := by
  simp only [validConfig, LegalSettings, Bool.and_eq_true, decide_eq_true_eq, and_assoc]
  rfl

theorem Cfg.valid_iff {c : Cfg} : c.valid = true ↔ c.Legal := validConfig_iff

theorem Session.valid_iff {p : Session} :
    p.valid = true ↔ LegalSettings p.n.toNat p.r0.toNat p.f.toNat p.t.toNat := validConfig_iff

end Sys2Proof.Machine
end

section
/-! PROOF. O22 and O55: the session's parameters and STATUS (spec/10_state.md R32, R43, R63), from what an engine step does
to the session (`SessionMove`) and the cases of the command path. -/

namespace Sys2Proof.Machine

/-- Settles O22: an engine step keeps the parameters, and so does every turn of the host but a reset and an accepted
start. -/
theorem parametersChangeOnlyAtAStart : Obligations.ParametersChangeOnlyAtAStart := by
  intro s t h hpar
  obtain ⟨-, h⟩ | ⟨ts, -, h⟩ | ⟨v, ts, hs, rfl⟩ | ⟨turn, ts, hs, -, -, rfl⟩ := step_cases h
  · exact absurd (engineStep_move h).par hpar
  · exact absurd (engineStep_move h).par hpar
  · obtain ⟨status, h⟩ | ⟨hb, hv, h⟩ := commandWrite_status_or_start v (nextTurn ts s) <;> rw [h] at hpar ⊢
    · exact absurd rfl hpar
    · exact .inr ⟨v, ts, hs, hb, Cfg.valid_iff.1 hv, rfl, rfl⟩
  · obtain ⟨rfl, h⟩ | ⟨cfg, host, h⟩ := hostTurn_cases turn (nextTurn ts s) <;> rw [h] at hpar ⊢
    · exact .inl ⟨ts, hs, rfl⟩
    · exact absurd rfl hpar

/-- The invariant speaks of the label through its mode alone. -/
theorem statusInv_iff {s : State} : s.StatusInv ↔
    (s.status.busy = true ↔ s.seq.mode ≠ none) ∧
    (s.status.busy = true → s.status.done = false ∧ s.status.err = .none ∧ s.status.endReason = .none) ∧
    (s.status.done = true ↔ s.status.endReason ≠ .none) ∧
    (s.status.done = true → s.status.err = .none) ∧
    s.status.trunc = s.status.endReason.truncates ∧
    (s.seq.mode = none ∨ s.seq.mode = some s.status.smode) := by
  rw [State.StatusInv, ne_eq s.seq.mode, Seq.mode_eq_none]

theorem State.StatusInv.idle {s : State} (hs : s.StatusInv) (hb : s.status.busy = false) : s.seq = .idle := by
  obtain ⟨hbusy, -⟩ := hs
  simpa [hb] using hbusy

theorem engineStep_statusInv {s t : State} (hs : s.StatusInv) (h : engineStep s = .next t) : t.StatusInv := by
  cases engineStep_move h with
  | runs h =>
    rw [statusInv_iff] at hs ⊢
    rw [h.status, h.mode]
    exact hs
  | ends reason hreason hseq _ hstatus hidle =>
    obtain ⟨hbusy, hruns, -⟩ := hs
    obtain ⟨-, herr, -⟩ := hruns (hbusy.2 hseq)
    rw [State.StatusInv, hstatus, hidle]
    simp [Status.finished, hreason, herr, Seq.mode]

theorem startSession_statusInv (mode : Mode) (s : State) : (startSession mode (clearResult s)).StatusInv := by
  have hstatus : (startSession mode (clearResult s)).status = Status.started mode := rfl
  have hseq : (startSession mode (clearResult s)).seq = mode.start := rfl
  rw [State.StatusInv, hstatus, hseq]
  cases mode <;> decide

theorem commandWrite_statusInv (v : Word) (s : State) (hs : s.StatusInv) : (commandWrite v s).StatusInv := by
  have hrejected (code : ErrCode) (hb : s.status.busy = false) : (raiseError code (clearResult s)).StatusInv := by
    simp [State.StatusInv, raiseError, clearResult, Status.cleared, hb, hs.idle hb, EndReason.truncates, Seq.mode]
  obtain ⟨-, -, h⟩ | ⟨-, -, h⟩ | ⟨-, -, h⟩ | ⟨hb, -, -, h⟩ | ⟨hb, -, -, h⟩ | ⟨hb, -, -, -, h⟩ | ⟨-, -, -, -, h⟩ :=
    commandWrite_cases v s <;> rw [h]
  · exact hs
  · exact hs
  · exact hs
  · exact hrejected .illegalCmd hb
  · exact hrejected .configInvalid hb
  · exact hrejected .modeMismatch hb
  · exact startSession_statusInv (commandMode v) s

/-- Settles O55: an engine step goes on in the same mode or ends the session by `finish`, and a command that is not ignored
finds the engine idle. -/
theorem statusAgreesWithTheSequencer : Obligations.StatusAgreesWithTheSequencer :=
  fun _ _ => step_keeps (fun _ _ _ hs => hs) commandWrite_statusInv (by decide) fun _ _ => engineStep_statusInv

end Sys2Proof.Machine
end

section
/-! PROOF. O37: the tail (spec/10_state.md R45, spec/40_window.md R140, R142, R146). WIN_FILL makes the tail a copy,
WIN_SET_MIRROR keeps it one, and a compression session writes its window in no other way. -/

namespace Sys2Proof.Machine

/-- In a session of mode compress the engine's step is the label's micro-operation. -/
theorem engineStep_compress {s : State} (hq : s.seq.mode = some .compress) :
    engineStep s = outcomeOf (microStep s) := by
  have hfetched : fetched s = none := by
    have hformat : segmentFormat s.seq = none := by
      revert hq
      cases s.seq <;> simp [Seq.mode, segmentFormat]
    simp only [fetched, hformat]
  simp only [engineStep, hfetched]

theorem tailMirrored_iff {s : State} : tailMirrored s = true ↔ ∀ j < s.par.f.toNat - 1,
    (Memory.read s.win j).isSome = true ∧ Memory.read s.win (s.par.n.toNat + j) = Memory.read s.win j := by
  simp [tailMirrored]

/-- The tail invariant speaks of the window and the parameters. -/
theorem tailMirrored_congr {s t : State} (hpar : t.par = s.par) (hwin : t.win = s.win) :
    tailMirrored t = tailMirrored s := by
  simp only [tailMirrored, hpar, hwin]

/-- A read of the filled window gives FILL in the window and its tail (R140). -/
theorem read_startSession (mode : Mode) (s : State) {a : Nat} (ha : a < s.cfg.latch.winSize) :
    Memory.read (startSession mode s).win a = some s.cfg.fill := by
  have hwin : (startSession mode s).win = Memory.fill 0 s.cfg.latch.winSize s.cfg.fill := rfl
  rw [hwin, Memory.read_fill, if_pos ⟨Nat.zero_le a, by omega⟩]

theorem tailMirrored_startSession {mode : Mode} {s : State} (hv : s.cfg.valid = true) :
    tailMirrored (startSession mode s) = true := by
  have hpar : (startSession mode s).par = s.cfg.latch := rfl
  have hf : 2 * s.cfg.latch.f.toNat ≤ s.cfg.latch.n.toNat := by
    obtain ⟨-, -, -, -, -, hf⟩ := Cfg.valid_iff.1 hv
    exact hf
  rw [tailMirrored_iff, hpar]
  intro j hj
  have hwindow : j < s.cfg.latch.winSize := by unfold Session.winSize; omega
  have htail : s.cfg.latch.n.toNat + j < s.cfg.latch.winSize := by unfold Session.winSize; omega
  rw [read_startSession mode s hwindow, read_startSession mode s htail]
  exact ⟨rfl, rfl⟩

/-- WIN_SET_MIRROR keeps the tail a copy: the write reaches `j` and `N + j` both or neither, for `F - 1 ≤ N` (R146). -/
theorem tailMirrored_winSetMirror {s t : State} {a : Nat} {c : Byte} (hv : s.SessionInv) (hs : tailMirrored s = true)
    (h : winSetMirror s a c = .ok t) : tailMirrored t = true := by
  obtain ⟨ha, -, rfl⟩ := winSetMirror_ok h
  obtain ⟨-, -, -, -, -, hf⟩ := Session.valid_iff.1 hv
  rw [tailMirrored_iff] at hs ⊢
  intro j hj
  replace hj : j < s.par.f.toNat - 1 := hj
  obtain ⟨hsome, hcopy⟩ := hs j hj
  simp only [State.withWin_win, State.withWin_par]
  split <;> simp only [Memory.read_write] <;> grind

theorem eLoad_tail {s t : State} (hv : s.SessionInv) (hs : tailMirrored s = true) (h : eLoad s = .ok t) :
    tailMirrored t = true := by
  have hend (u : State) : tailMirrored (eLoadEnd u) = tailMirrored u := by
    obtain h | h := eLoadEnd_cases u <;> rw [h] <;> rfl
  obtain ⟨-, rfl⟩ | ⟨-, ⟨-, rfl⟩ | ⟨u, hi, rfl⟩ | ⟨c, u, v, hi, hw, rfl⟩⟩ := eLoad_cases h
  · rw [hend, hs]
  · exact hs
  · obtain ⟨_, _, rfl⟩ := inRead_eof_frame hi
    rw [hend]
    exact hs
  · obtain ⟨host, inCount, rfl⟩ := inRead_byte_frame hi
    have hwrite := tailMirrored_winSetMirror (s := (s.withHost host).withInCount inCount) hv hs hw
    exact hwrite

theorem SameButTrees.tail {s t : State} (h : SameButTrees s t) (hs : tailMirrored s = true) :
    tailMirrored t = true := by
  rw [tailMirrored_congr h.par h.win, hs]

theorem eAdv_tail {s t : State} (hv : s.SessionInv) (hs : tailMirrored s = true) (h : eAdv s = .ok t) :
    tailMirrored t = true := by
  obtain ⟨-, rfl⟩ | ⟨-, ⟨-, rfl⟩ | ⟨u, hi, rfl⟩ | ⟨c, u, v, w, x, hi, hremove, hw, hinsert, rfl⟩⟩ := eAdv_cases h
  · exact hs
  · exact hs
  · obtain ⟨_, _, rfl⟩ := inRead_eof_frame hi
    exact hs
  · obtain ⟨_, _, rfl⟩ := inRead_byte_frame hi
    have hframe := (mfRemove_frame hremove).1
    have hvalid : v.SessionInv := by rw [State.SessionInv, hframe.par]; exact hv
    have hwrite : tailMirrored w = true := tailMirrored_winSetMirror hvalid (hframe.tail hs) hw
    have hadvance : tailMirrored (advanceCursors w) = true := hwrite
    exact (mfInsert_frame hinsert).tail hadvance

theorem eDrain_tail {s t : State} (hs : tailMirrored s = true) (h : eDrain s = .ok t) : tailMirrored t = true := by
  obtain ⟨-, rfl⟩ | ⟨-, v, hremove, hend⟩ := eDrain_cases h
  · exact hs
  · have hv : tailMirrored (drained v) = true := by
      rw [tailMirrored_congr (s := v) (t := drained v) rfl rfl]
      exact (mfRemove_frame hremove).1.tail hs
    obtain ⟨-, rfl⟩ | ⟨-, hinsert⟩ := hend
    · exact hv
    · exact (mfInsert_frame hinsert).tail hv

theorem outputGroupByte_tail {s t : State} (hs : tailMirrored s = true) (h : outputGroupByte s = .ok t) :
    tailMirrored t = true := by
  obtain ⟨_, _, _, rfl⟩ := outputGroupByte_frame h
  exact hs

/-- Every label of a compression session keeps the tail a copy. -/
theorem microStep_tail {s t : State} (hq : s.seq.mode = some .compress) (hv : s.SessionInv) (hs : tailMirrored s = true)
    (h : microStep s = .ok t) : tailMirrored t = true := by
  cases hl : s.seq <;> simp only [microStep, hl] at h <;> rw [hl] at hq
  case eStart =>
    cases h
    obtain ⟨enc, -, -, h⟩ := eStart_cases s
    have hinit : tailMirrored (((mfInit s).withEnc enc).goto .eLoad) = true := (mfInit_frame s).1.tail hs
    rw [h, hinit]
  case eLoad => exact eLoad_tail hv hs h
  case ePrime =>
    obtain ⟨u, v, hu, hv, rfl⟩ := ePrime_cases h
    exact ((insertEach_frame hu).trans (mfInsert_frame hv)).tail hs
  case eToken => obtain ⟨_, _, _, _, -, rfl⟩ := eToken_frame h; exact hs
  case eFlush =>
    obtain ⟨-, h⟩ | ⟨-, rfl⟩ := eFlush_cases h
    · exact outputGroupByte_tail hs h
    · exact hs
  case eAdv => exact eAdv_tail hv hs h
  case eDrain => exact eDrain_tail hs h
  case eLoop => cases h; obtain h | h := eLoop_cases s <;> rw [h] <;> exact hs
  case eFinal =>
    obtain ⟨-, h⟩ | ⟨-, rfl⟩ := eFinal_cases h
    · exact outputGroupByte_tail hs h
    · exact hs
  all_goals simp [Seq.mode] at hq

theorem engineStep_sessionInv {s t : State} (hs : s.SessionInv) (h : engineStep s = .next t) : t.SessionInv := by
  rw [State.SessionInv, (engineStep_move h).par]
  exact hs

theorem engineStep_tailInv {s t : State} (hv : s.SessionInv) (hs : s.TailInv) (h : engineStep s = .next t) :
    t.TailInv := by
  intro ht
  have hq := (engineStep_move h).mode ht
  rw [engineStep_compress hq] at h
  exact microStep_tail hq hv (hs hq) (outcomeOf_next.1 h)

/-- Settles O37: the tail is a copy at the start of a session, and every label of a compression session keeps it one. -/
theorem tailStaysACopy : Obligations.TailStaysACopy := by
  intro s t hv hs h
  refine step_keeps (P := fun s => s.SessionInv ∧ s.TailInv) (fun _ _ _ hs => hs) ?_ (by decide) ?_ ⟨hv, hs⟩ h
  · exact commandWrite_keeps (fun _ _ hs => hs) fun mode s hvalid =>
      ⟨hvalid, fun _ => tailMirrored_startSession hvalid⟩
  · rintro s t ⟨hv, hs⟩ h
    exact ⟨engineStep_sessionInv hv h, engineStep_tailInv hv hs h⟩

end Sys2Proof.Machine
end

section
/-! PROOF. O45: the child links (spec/10_state.md R47). Whatever MF_INSERT and MF_REMOVE write into LEFT and RIGHT is NIL, the
inserted position, or a value they read there, at once or through the register Q (spec/41_match_finder.md R165, R166,
R169). -/

namespace Sys2Proof.Machine

/-- Every listed child link is at most `n`. -/
def ChildrenBounded (n : Nat) (s : State) : Prop :=
  (∀ c ∈ s.left, c.2.toNat ≤ n) ∧ (∀ c ∈ s.right, c.2.toNat ≤ n)

section

variable {n r p : Nat} {s t : State}

theorem linkRead_bounded {k : Link} {i v : Nat} (hs : ChildrenBounded n s) (hk : k ≠ .parent)
    (h : linkRead k s i = .ok v) : v ≤ n := by
  obtain ⟨hleft, hright⟩ := hs
  obtain ⟨-, x, hx, rfl⟩ := linkRead_ok.1 h
  cases k with
  | left => exact hleft _ (Memory.mem_of_read hx)
  | right => exact hright _ (Memory.mem_of_read hx)
  | parent => exact absurd rfl hk

theorem mem_write_bounded {m : List (Nat × Idx)} {i v : Nat} (hm : ∀ c ∈ m, c.2.toNat ≤ n) (hv : v ≤ n) :
    ∀ c ∈ Memory.write m i (BitVec.ofNat 13 v), c.2.toNat ≤ n := by
  intro c hc
  obtain rfl | hc := Memory.mem_write hc
  · exact (BitVec.toNat_ofNat v 13 ▸ Nat.mod_le v _).trans hv
  · exact hm c hc

theorem childrenBounded_linkWrite {k : Link} {i v : Nat} (hs : ChildrenBounded n s) (hv : k ≠ .parent → v ≤ n)
    (h : linkWrite k s i v = .ok t) : ChildrenBounded n t := by
  obtain ⟨hleft, hright⟩ := hs
  obtain ⟨-, rfl⟩ := linkWrite_ok.1 h
  cases k with
  | left => exact ⟨mem_write_bounded hleft (hv (by decide)), hright⟩
  | right => exact ⟨hleft, mem_write_bounded hright (hv (by decide))⟩
  | parent => exact ⟨hleft, hright⟩

theorem childrenBounded_parentWrite {i v : Nat} (hs : ChildrenBounded n s) (h : linkWrite .parent s i v = .ok t) :
    ChildrenBounded n t :=
  childrenBounded_linkWrite hs (absurd rfl) h

theorem linkWrite_walk {k : Link} {i v : Nat} (h : linkWrite k s i v = .ok t) : t.walk = s.walk := by
  obtain ⟨-, rfl⟩ := linkWrite_ok.1 h
  cases k <;> rfl

/-! MF_INSERT. -/

theorem mfReplace_bounded (hr : r ≤ n) (hs : ChildrenBounded n s) (h : mfReplace r s = .ok t) :
    ChildrenBounded n t := by
  unfold mfReplace at h
  obtain ⟨_, -, h⟩ := bind_ok.1 h
  obtain ⟨s1, h1, h⟩ := bind_ok.1 h
  replace h1 := childrenBounded_parentWrite hs h1
  obtain ⟨left, hleft, h⟩ := bind_ok.1 h
  obtain ⟨s2, h2, h⟩ := bind_ok.1 h
  replace h2 := childrenBounded_linkWrite h1 (fun hk => linkRead_bounded h1 hk hleft) h2
  obtain ⟨right, hright, h⟩ := bind_ok.1 h
  obtain ⟨s3, h3, h⟩ := bind_ok.1 h
  replace h3 := childrenBounded_linkWrite h2 (fun hk => linkRead_bounded h2 hk hright) h3
  obtain ⟨_, -, h⟩ := bind_ok.1 h
  obtain ⟨s4, h4, h⟩ := bind_ok.1 h
  obtain ⟨_, -, h⟩ := bind_ok.1 h
  obtain ⟨s5, h5, h⟩ := bind_ok.1 h
  replace h5 := childrenBounded_parentWrite (childrenBounded_parentWrite h3 h4) h5
  obtain ⟨up, -, h⟩ := bind_ok.1 h
  obtain ⟨child, -, h⟩ := bind_ok.1 h
  obtain ⟨s6, h6, h⟩ := bind_ok.1 h
  exact childrenBounded_parentWrite (childrenBounded_linkWrite h5 (fun _ => hr) h6) h

theorem mfMeasure_bounded (hs : ChildrenBounded n s) (h : mfMeasure r s = .ok t) : ChildrenBounded n t := by
  unfold mfMeasure at h
  obtain ⟨u, hu, h⟩ := bind_ok.1 h
  obtain ⟨cmp, j, rfl⟩ := mfCompare_frame hu
  split at h <;> cases h <;> exact hs

theorem mfWalk_bounded {fuel : Nat} (hr : r ≤ n) (hs : ChildrenBounded n s) (h : mfWalk fuel r s = .ok t) :
    ChildrenBounded n t := by
  induction fuel generalizing s with
  | zero => cases h
  | succ k ih =>
    unfold mfWalk at h
    simp only at h
    obtain ⟨next, -, h⟩ := bind_ok.1 h
    split at h
    · obtain ⟨u, hu, h⟩ := bind_ok.1 h
      exact childrenBounded_parentWrite (childrenBounded_linkWrite hs (fun _ => hr) hu) h
    · obtain ⟨u, hu, h⟩ := bind_ok.1 h
      have hmeasured : ChildrenBounded n u := mfMeasure_bounded (s := setP s next) hs hu
      split at h
      · exact mfReplace_bounded hr hmeasured h
      · exact ih hmeasured h

/-- MF_INSERT writes NIL, the inserted position and child links into the child links. -/
theorem mfInsert_bounded (hs : ChildrenBounded s.par.nil s) (h : mfInsert r s = .ok t) :
    ChildrenBounded s.par.nil t := by
  unfold mfInsert at h
  obtain ⟨_, hcheck, h⟩ := bind_ok.1 h
  obtain ⟨hr, -, -⟩ := mfInsertCheck_ok.1 hcheck
  obtain ⟨c, -, h⟩ := bind_ok.1 h
  obtain ⟨s1, h1, h⟩ := bind_ok.1 h
  have hb1 : ChildrenBounded s.par.nil s1 :=
    childrenBounded_linkWrite (s := setP (setCmp s 1) (s.par.root c)) hs (fun _ => le_rfl) h1
  obtain ⟨s2, h2, h⟩ := bind_ok.1 h
  have hb2 : ChildrenBounded s.par.nil s2 :=
    childrenBounded_linkWrite hb1 (fun _ => (congrArg Session.nil (SameButTrees.ofLinkWrite h1).par).le) h2
  exact mfWalk_bounded (s := s2.withFound { s2.found with mlen := 0 }) (Nat.le_of_lt hr) hb2 h

/-! MF_REMOVE. -/

theorem setQ_le {v : Nat} (hv : v ≤ n) : (setQ s v).walk.q.toNat ≤ n :=
  (BitVec.toNat_ofNat v 13 ▸ Nat.mod_le v _ :).trans hv

/-- The predecessor that the descent leaves in Q was read from a right link. -/
theorem mfRightmost_bounded {fuel : Nat} (hs : ChildrenBounded n s) (h : mfRightmost fuel s = .ok t) :
    t.walk.q.toNat ≤ n := by
  induction fuel generalizing s with
  | zero => cases h
  | succ k ih =>
    unfold mfRightmost at h
    obtain ⟨q, hq, h⟩ := bind_ok.1 h
    simp only at h
    obtain ⟨next, -, h⟩ := bind_ok.1 h
    split at h
    · cases h
      exact setQ_le (linkRead_bounded hs (by decide) hq)
    · exact ih (s := setQ s q) hs h

theorem mfPredecessor_bounded (hs : ChildrenBounded n s) (h : mfPredecessor p s = .ok t) :
    ChildrenBounded n t ∧ t.walk.q.toNat ≤ n := by
  unfold mfPredecessor at h
  obtain ⟨s0, h0, h⟩ := bind_ok.1 h
  have hq : s0.walk.q.toNat ≤ n := mfRightmost_bounded hs h0
  have hb0 : ChildrenBounded n s0 := by
    obtain ⟨q, rfl⟩ := mfRightmost_frame h0
    exact hs
  obtain ⟨_, -, h⟩ := bind_ok.1 h
  obtain ⟨below, hbelow, h⟩ := bind_ok.1 h
  obtain ⟨s1, h1, h⟩ := bind_ok.1 h
  have hb1 := childrenBounded_linkWrite hb0 (fun _ => linkRead_bounded hb0 (by decide) hbelow) h1
  obtain ⟨_, -, h⟩ := bind_ok.1 h
  obtain ⟨_, -, h⟩ := bind_ok.1 h
  obtain ⟨s2, h2, h⟩ := bind_ok.1 h
  have hb2 := childrenBounded_parentWrite hb1 h2
  obtain ⟨left, hleft, h⟩ := bind_ok.1 h
  obtain ⟨s3, h3, h⟩ := bind_ok.1 h
  have hb3 := childrenBounded_linkWrite hb2 (fun _ => linkRead_bounded hb2 (by decide) hleft) h3
  obtain ⟨_, -, h⟩ := bind_ok.1 h
  refine ⟨childrenBounded_parentWrite hb3 h, ?_⟩
  rw [linkWrite_walk h, linkWrite_walk h3, linkWrite_walk h2, linkWrite_walk h1]
  exact hq

theorem mfTwoChildren_bounded (hs : ChildrenBounded n s) (hq : s.walk.q.toNat ≤ n) (h : mfTwoChildren p s = .ok t) :
    ChildrenBounded n t ∧ t.walk.q.toNat ≤ n := by
  unfold mfTwoChildren at h
  obtain ⟨s1, h1, h⟩ := bind_ok.1 h
  have hs1 : ChildrenBounded n s1 ∧ s1.walk.q.toNat ≤ n := by
    unfold mfUnlink at h1
    obtain ⟨below, -, h1⟩ := bind_ok.1 h1
    split at h1
    · exact mfPredecessor_bounded hs h1
    · cases h1; exact ⟨hs, hq⟩
  obtain ⟨hb1, hq1⟩ := hs1
  simp only at h
  obtain ⟨right, hright, h⟩ := bind_ok.1 h
  obtain ⟨s2, h2, h⟩ := bind_ok.1 h
  obtain ⟨_, -, h⟩ := bind_ok.1 h
  have hb2 := childrenBounded_linkWrite hb1 (fun _ => linkRead_bounded hb1 (by decide) hright) h2
  refine ⟨childrenBounded_parentWrite hb2 h, ?_⟩
  rw [linkWrite_walk h, linkWrite_walk h2]
  exact hq1

/-- The successor in Q was read from a child link. -/
theorem mfSuccessor_bounded (hs : ChildrenBounded n s) (h : mfSuccessor p s = .ok t) :
    ChildrenBounded n t ∧ t.walk.q.toNat ≤ n := by
  unfold mfSuccessor at h
  obtain ⟨right, hright, h⟩ := bind_ok.1 h
  split at h
  · obtain ⟨left, hleft, h⟩ := bind_ok.1 h
    cases h
    exact ⟨hs, setQ_le (linkRead_bounded hs (by decide) hleft)⟩
  · obtain ⟨left, hleft, h⟩ := bind_ok.1 h
    split at h
    · cases h
      exact ⟨hs, setQ_le (linkRead_bounded hs (by decide) hright)⟩
    · exact mfTwoChildren_bounded (s := setQ s left) hs (setQ_le (linkRead_bounded hs (by decide) hleft)) h

theorem mfSplice_bounded (hs : ChildrenBounded n s) (hq : s.walk.q.toNat ≤ n) (h : mfSplice p s = .ok t) :
    ChildrenBounded n t := by
  unfold mfSplice at h
  obtain ⟨_, -, h⟩ := bind_ok.1 h
  obtain ⟨s1, h1, h⟩ := bind_ok.1 h
  obtain ⟨up, -, h⟩ := bind_ok.1 h
  obtain ⟨child, -, h⟩ := bind_ok.1 h
  obtain ⟨s2, h2, h⟩ := bind_ok.1 h
  exact childrenBounded_parentWrite (childrenBounded_linkWrite (childrenBounded_parentWrite hs h1) (fun _ => hq) h2) h

/-- MF_REMOVE writes child links into the child links. -/
theorem mfRemove_bounded (hs : ChildrenBounded n s) (h : mfRemove p s = .ok t) : ChildrenBounded n t := by
  unfold mfRemove at h
  split at h
  · cases h
  · split at h
    · obtain ⟨up, -, h⟩ := bind_ok.1 h
      split at h
      · cases h; exact hs
      · obtain ⟨s1, h1, h⟩ := bind_ok.1 h
        obtain ⟨hb1, hq1⟩ := mfSuccessor_bounded hs h1
        exact mfSplice_bounded hb1 hq1 h
    · cases h

/-! The labels. The bound is that of the state's own parameters, which no label changes. -/

theorem insertEach_bounded {rs : List Nat} (hs : ChildrenBounded s.par.nil s) (h : insertEach rs s = .ok t) :
    ChildrenBounded s.par.nil t := by
  induction rs generalizing s with
  | nil => cases h; exact hs
  | cons r rs ih =>
    obtain ⟨u, hu, h⟩ := bind_ok.1 h
    have hpar := (mfInsert_frame hu).par
    rw [← hpar]
    exact ih (hpar ▸ mfInsert_bounded hs hu) h

theorem mfInit_bounded (s : State) : ChildrenBounded s.par.nil (mfInit s) := by
  refine ⟨fun c hc => absurd hc (List.not_mem_nil), fun c hc => ?_⟩
  obtain ⟨a, -, rfl⟩ := List.mem_map.1 (show c ∈ Memory.fill _ _ _ from hc)
  exact BitVec.toNat_ofNat s.par.nil 13 ▸ Nat.mod_le _ _

/-- The child links and the parameters are those of `s`. -/
structure SameChildren (s t : State) : Prop where
  par : t.par = s.par
  left : t.left = s.left
  right : t.right = s.right

theorem SameChildren.bounded (h : SameChildren s t) (hs : ChildrenBounded s.par.nil s) :
    ChildrenBounded t.par.nil t := by
  unfold ChildrenBounded
  rw [h.par, h.left, h.right]
  exact hs

theorem eLoadEnd_children (s : State) : SameChildren s (eLoadEnd s) := by
  obtain h | h := eLoadEnd_cases s <;> rw [h] <;> exact ⟨rfl, rfl, rfl⟩

theorem eLoad_children (h : eLoad s = .ok t) : SameChildren s t := by
  obtain ⟨-, rfl⟩ | ⟨-, ⟨-, rfl⟩ | ⟨u, hi, rfl⟩ | ⟨c, u, v, hi, hw, rfl⟩⟩ := eLoad_cases h
  · exact eLoadEnd_children s
  · exact ⟨rfl, rfl, rfl⟩
  · obtain ⟨host, inEof, rfl⟩ := inRead_eof_frame hi
    have hend := eLoadEnd_children ((s.withHost host).withInEof inEof)
    exact ⟨hend.par, hend.left, hend.right⟩
  · obtain ⟨_, _, rfl⟩ := inRead_byte_frame hi
    obtain ⟨-, -, rfl⟩ := winSetMirror_ok hw
    exact ⟨rfl, rfl, rfl⟩

theorem outputGroupByte_children (h : outputGroupByte s = .ok t) : SameChildren s t := by
  obtain ⟨_, _, _, rfl⟩ := outputGroupByte_frame h
  exact ⟨rfl, rfl, rfl⟩

theorem mfInsert_childrenBounded (hs : ChildrenBounded s.par.nil s) (h : mfInsert r s = .ok t) :
    ChildrenBounded t.par.nil t := by
  rw [(mfInsert_frame h).par]
  exact mfInsert_bounded hs h

theorem mfRemove_childrenBounded (hs : ChildrenBounded s.par.nil s) (h : mfRemove p s = .ok t) :
    ChildrenBounded t.par.nil t := by
  rw [(mfRemove_frame h).1.par]
  exact mfRemove_bounded hs h

theorem eAdv_bounded (hs : ChildrenBounded s.par.nil s) (h : eAdv s = .ok t) : ChildrenBounded t.par.nil t := by
  obtain ⟨-, rfl⟩ | ⟨-, ⟨-, rfl⟩ | ⟨u, hi, rfl⟩ | ⟨c, u, v, w, x, hi, hremove, hw, hinsert, rfl⟩⟩ := eAdv_cases h
  · exact hs
  · exact hs
  · obtain ⟨_, _, rfl⟩ := inRead_eof_frame hi
    exact hs
  · have hread : SameChildren s u := by
      obtain ⟨_, _, rfl⟩ := inRead_byte_frame hi
      exact ⟨rfl, rfl, rfl⟩
    have hwrite : SameChildren v (advanceCursors w) := by
      obtain ⟨-, -, rfl⟩ := winSetMirror_ok hw
      exact ⟨rfl, rfl, rfl⟩
    have hx : ChildrenBounded x.par.nil x :=
      mfInsert_childrenBounded (hwrite.bounded (mfRemove_childrenBounded (hread.bounded hs) hremove)) hinsert
    exact hx

theorem eDrain_bounded (hs : ChildrenBounded s.par.nil s) (h : eDrain s = .ok t) : ChildrenBounded t.par.nil t := by
  obtain ⟨-, rfl⟩ | ⟨-, v, hremove, hend⟩ := eDrain_cases h
  · exact hs
  · have hcount : SameChildren s (s.withEnc { s.enc with i := s.enc.i + 1 }) := ⟨rfl, rfl, rfl⟩
    have hv : ChildrenBounded v.par.nil v := mfRemove_childrenBounded (hcount.bounded hs) hremove
    have hdrained : ChildrenBounded (drained v).par.nil (drained v) := SameChildren.bounded ⟨rfl, rfl, rfl⟩ hv
    obtain ⟨-, rfl⟩ | ⟨-, hinsert⟩ := hend
    · exact hdrained
    · exact mfInsert_childrenBounded hdrained hinsert

/-- Every label of a compression session past E_START keeps the child links bounded, and E_START makes them so. -/
theorem microStep_bounded (hq : s.seq.mode = some .compress)
    (hs : s.seq.encoderRuns = true → ChildrenBounded s.par.nil s) (h : microStep s = .ok t) :
    ChildrenBounded t.par.nil t := by
  cases hl : s.seq <;> simp only [microStep, hl] at h <;> rw [hl] at hq hs
  case eStart =>
    cases h
    obtain ⟨enc, -, -, h⟩ := eStart_cases s
    rw [h]
    exact mfInit_bounded s
  case eLoad => exact (eLoad_children h).bounded (hs rfl)
  case ePrime =>
    obtain ⟨u, v, hu, hv, rfl⟩ := ePrime_cases h
    have hprime : ChildrenBounded u.par.nil u := by
      rw [(insertEach_frame hu).par]
      exact insertEach_bounded (hs rfl) hu
    have hx : ChildrenBounded v.par.nil v := mfInsert_childrenBounded hprime hv
    exact hx
  case eToken => obtain ⟨_, _, _, _, -, rfl⟩ := eToken_frame h; exact hs rfl
  case eFlush =>
    obtain ⟨-, h⟩ | ⟨-, rfl⟩ := eFlush_cases h
    · exact (outputGroupByte_children h).bounded (hs rfl)
    · exact hs rfl
  case eAdv => exact eAdv_bounded (hs rfl) h
  case eDrain => exact eDrain_bounded (hs rfl) h
  case eLoop => cases h; obtain h | h := eLoop_cases s <;> rw [h] <;> exact hs rfl
  case eFinal =>
    obtain ⟨-, h⟩ | ⟨-, rfl⟩ := eFinal_cases h
    · exact (outputGroupByte_children h).bounded (hs rfl)
    · exact hs rfl
  all_goals simp [Seq.mode] at hq

end

theorem Seq.encoderRuns_mode {q : Seq} (h : q.encoderRuns = true) : q.mode = some .compress := by
  cases q <;> simp_all [Seq.encoderRuns, Seq.mode]

theorem engineStep_childInv {s t : State} (hs : s.ChildInv) (h : engineStep s = .next t) : t.ChildInv := by
  intro ht
  have hq := (engineStep_move h).mode (Seq.encoderRuns_mode ht)
  rw [engineStep_compress hq] at h
  exact microStep_bounded hq hs (outcomeOf_next.1 h)

theorem startSession_not_encoderRuns (mode : Mode) (s : State) : (startSession mode s).seq.encoderRuns = false := by
  cases mode <;> rfl

/-- Settles O45: E_START empties the trees, every label after it keeps the child links bounded, and a session starts
before them. -/
theorem childLinksStayPositions : Obligations.ChildLinksStayPositions := by
  intro s t hv hs h
  refine step_keeps (P := fun s => s.SessionInv ∧ s.ChildInv) (fun _ _ _ hs => hs) ?_ (by decide) ?_ ⟨hv, hs⟩ h
  · refine commandWrite_keeps (fun _ _ hs => hs) fun mode s hvalid => ⟨hvalid, fun hruns => ?_⟩
    exact absurd hruns (by simp [startSession_not_encoderRuns])
  · rintro s t ⟨hv, hs⟩ h
    exact ⟨engineStep_sessionInv hv h, engineStep_childInv hs h⟩

end Sys2Proof.Machine
end

section
/-! PROOF. O54, the invariant: the group buffer (spec/10_state.md R51, R52). A token adds one or two bytes and shifts the
mask's bit, so that the bit is shifted out with the 8th token (spec/42_encoder.md R196 to R198). -/

namespace Sys2Proof.Machine

/-- A group that is not full: `k` tokens, `k < 8`. -/
def GroupOpen (s : State) : Prop :=
  ∃ k ∈ List.range 8, groupHolds s k

/-- The group's registers, but for its bytes, are those of `s`. -/
structure SameGroup (s t : State) : Prop where
  cmask : t.enc.cmask = s.enc.cmask
  cbptr : t.enc.cbptr = s.enc.cbptr

section

variable {s t u : State}

theorem SameGroup.trans (h : SameGroup s t) (k : SameGroup t u) : SameGroup s u :=
  ⟨k.cmask.trans h.cmask, k.cbptr.trans h.cbptr⟩

theorem sameGroup_of_enc (h : t.enc = s.enc) : SameGroup s t := ⟨by rw [h], by rw [h]⟩

theorem GroupOpen.congr (hs : GroupOpen s) (h : SameGroup s t) : GroupOpen t := by
  unfold GroupOpen groupHolds
  rw [h.cmask, h.cbptr]
  exact hs

theorem groupOpen_of_empty (hptr : s.enc.cbptr = 1) (hmask : s.enc.cmask = 0x01) : GroupOpen s :=
  ⟨0, by decide, by rw [groupHolds, hptr, hmask]; decide⟩

/-- A group that is not full leaves room for a reference. -/
theorem GroupOpen.cbptr_le (hs : GroupOpen s) : s.enc.cbptr.toNat ≤ 15 := by
  obtain ⟨k, hk, -, -, hle⟩ := hs
  have := List.mem_range.1 hk
  omega

theorem State.GroupInv.isOpen (hs : s.GroupInv) (hruns : s.seq.encoderRuns = true) (hflush : s.seq ≠ .eFlush) :
    GroupOpen s := by
  obtain ⟨-, hopen, -⟩ := hs hruns
  exact hopen hflush

theorem GroupOpen.inv (hs : GroupOpen s) (hflush : s.seq ≠ .eFlush)
    (hfinal : s.seq = .eFinal → s.outIdx.toNat ≤ s.enc.cbptr.toNat) : s.GroupInv :=
  fun _ => ⟨fun h => absurd h hflush, fun _ => hs, hfinal⟩

/-- A label that is neither of the two output loops asks for a group that is not full. -/
theorem GroupOpen.inv_of_seq (q : Seq) (hs : GroupOpen s) (hq : s.seq = q) (hflush : q ≠ .eFlush)
    (hfinal : q ≠ .eFinal) : s.GroupInv :=
  hs.inv (hq ▸ hflush) fun h => absurd (hq ▸ h) hfinal

theorem GroupOpen.inv_goto (q : Seq) (hs : GroupOpen s) (hflush : q ≠ .eFlush) (hfinal : q ≠ .eFinal) :
    (s.goto q).GroupInv :=
  GroupOpen.inv_of_seq (s := s.goto q) q hs rfl hflush hfinal

theorem GroupOpen.inv_eFinal (hs : GroupOpen s) : (gotoOutput .eFinal s).GroupInv :=
  GroupOpen.inv (s := gotoOutput .eFinal s) hs (show Seq.eFinal ≠ .eFlush by decide) fun _ => Nat.zero_le _

/-! E_TOKEN. -/

theorem shiftMask_bit (k : Nat) : shiftMask (1#8 <<< k) = 1#8 <<< (k + 1) :=
  (BitVec.shiftLeft_add _ _ _).symm

/-- A token of one or two bytes joins the group (R196, R197). -/
theorem packToken_group {k : Nat} (_hk : k < 8) (hs : groupHolds s k) (h : packToken s = .ok t) :
    t.enc.cmask = 1#8 <<< k ∧ 1 + (k + 1) ≤ t.enc.cbptr.toNat ∧ t.enc.cbptr.toNat ≤ 1 + 2 * (k + 1) := by
  obtain ⟨hmask, hge, hle⟩ := hs
  unfold packToken at h
  split at h
  · obtain ⟨b, hp, -, rfl⟩ := packLiteral_cases h
    have hptr : (s.enc.cbptr + 1).toNat = s.enc.cbptr.toNat + 1 := by bv_omega
    refine ⟨hmask, ?_⟩
    simp only [State.withEnc_enc, hptr]
    omega
  · obtain ⟨hp, rfl⟩ := packReference_cases h
    have hptr : (s.enc.cbptr + 2).toNat = s.enc.cbptr.toNat + 2 := by bv_omega
    refine ⟨hmask, ?_⟩
    simp only [State.withEnc_enc, hptr]
    omega

/-- The mask's bit is shifted out with the 8th token (R198). -/
theorem bit_shifted_out : ∀ k < 8, 1#8 <<< (k + 1) = 0 ↔ k = 7 := by decide

theorem eToken_group (hs : GroupOpen s) (h : eToken s = .ok t) : t.GroupInv := by
  obtain ⟨k, hk, hs⟩ := hs
  replace hk := List.mem_range.1 hk
  obtain ⟨u, hu, rfl⟩ := eToken_cases h
  obtain ⟨found, hc⟩ := clampMatch_frame s
  rw [hc] at hu
  obtain ⟨hmask, hge, hle⟩ := packToken_group (s := s.withFound found) hk hs hu
  have hshift : shiftMask u.enc.cmask = 1#8 <<< (k + 1) := by rw [hmask, shiftMask_bit]
  obtain ⟨h0, h⟩ | ⟨h0, h⟩ := tokenPacked_cases u <;> rw [h] <;> simp only [hshift] at h0
  · have hfull : k = 7 := (bit_shifted_out k hk).1 h0
    subst hfull
    intro _
    exact ⟨fun _ => ⟨⟨hshift, hge, hle⟩, Nat.zero_le _⟩, fun hne => absurd rfl hne, fun h => by cases h⟩
  · have hopen : k ≠ 7 := fun hk7 => h0 ((bit_shifted_out k hk).2 hk7)
    exact GroupOpen.inv_of_seq .eAdv ⟨k + 1, List.mem_range.2 (by omega), hshift, hge, hle⟩ rfl (by decide) (by decide)

/-! The other labels. -/

theorem eLoadEnd_group (hs : GroupOpen s) : (eLoadEnd s).GroupInv := by
  obtain h | h := eLoadEnd_cases s <;> rw [h]
  · exact hs.inv_eFinal
  · exact hs.inv_goto .ePrime (by decide) (by decide)

theorem eLoad_group (hq : s.seq = .eLoad) (hs : GroupOpen s) (h : eLoad s = .ok t) : t.GroupInv := by
  obtain ⟨-, rfl⟩ | ⟨-, ⟨-, rfl⟩ | ⟨u, hi, rfl⟩ | ⟨c, u, v, hi, hw, rfl⟩⟩ := eLoad_cases h
  · exact eLoadEnd_group hs
  · exact hs.inv_of_seq _ hq (by decide) (by decide)
  · obtain ⟨host, inEof, rfl⟩ := inRead_eof_frame hi
    exact eLoadEnd_group (s := (s.withHost host).withInEof inEof) hs
  · obtain ⟨_, _, rfl⟩ := inRead_byte_frame hi
    obtain ⟨-, -, rfl⟩ := winSetMirror_ok hw
    exact GroupOpen.inv_of_seq .eLoad (hs.congr ⟨rfl, rfl⟩) hq (by decide) (by decide)

/-- One pass of an output loop keeps the group and stays within it. -/
theorem outputGroupByte_group (hidx : s.outIdx.toNat < s.enc.cbptr.toNat) (h : outputGroupByte s = .ok t) :
    t.enc = s.enc ∧ t.seq = s.seq ∧ t.outIdx.toNat ≤ t.enc.cbptr.toNat := by
  obtain ⟨hi, ⟨-, rfl⟩ | ⟨n, -, rfl⟩⟩ := outputGroupByte_cases h
  · exact ⟨rfl, rfl, hidx.le⟩
  · have hnext : (s.outIdx + 1).toNat = s.outIdx.toNat + 1 := by bv_omega
    exact ⟨rfl, rfl, hnext ▸ hidx⟩

theorem eFlush_group (hq : s.seq = .eFlush) (hs : s.GroupInv) (h : eFlush s = .ok t) : t.GroupInv := by
  obtain ⟨hflush, -⟩ := hs (by rw [hq]; rfl)
  obtain ⟨hfull, -⟩ := hflush hq
  obtain ⟨hidx, h⟩ | ⟨-, rfl⟩ := eFlush_cases h
  · obtain ⟨henc, hseq, hle⟩ := outputGroupByte_group hidx h
    rw [hq] at hseq
    intro _
    rw [groupHolds, henc] at *
    exact ⟨fun _ => ⟨hfull, hle⟩, fun hne => absurd hseq hne, fun hf => by rw [hseq] at hf; cases hf⟩
  · exact GroupOpen.inv_of_seq .eAdv (groupOpen_of_empty rfl rfl) rfl (by decide) (by decide)

theorem eFinal_group (hq : s.seq = .eFinal) (hs : GroupOpen s) (h : eFinal s = .ok t) : t.GroupInv := by
  obtain ⟨⟨-, hidx⟩, h⟩ | ⟨-, rfl⟩ := eFinal_cases h
  · obtain ⟨henc, hseq, hle⟩ := outputGroupByte_group hidx h
    have hopen : GroupOpen t := hs.congr (sameGroup_of_enc henc)
    exact hopen.inv (by rw [hseq, hq]; decide) fun _ => hle
  · exact fun hruns => by cases hruns

theorem eAdv_group (hq : s.seq = .eAdv) (hs : GroupOpen s) (h : eAdv s = .ok t) : t.GroupInv := by
  obtain ⟨-, rfl⟩ | ⟨-, ⟨-, rfl⟩ | ⟨u, hi, rfl⟩ | ⟨c, u, v, w, x, hi, hremove, hw, hinsert, rfl⟩⟩ := eAdv_cases h
  · exact hs.inv_goto .eDrain (by decide) (by decide)
  · exact hs.inv_of_seq _ hq (by decide) (by decide)
  · obtain ⟨host, inEof, rfl⟩ := inRead_eof_frame hi
    exact GroupOpen.inv_goto (s := (s.withHost host).withInEof inEof) .eDrain hs (by decide) (by decide)
  · have hread : SameGroup s u ∧ u.seq = s.seq := by
      obtain ⟨_, _, rfl⟩ := inRead_byte_frame hi
      exact ⟨⟨rfl, rfl⟩, rfl⟩
    have hwrite : SameGroup v (advanceCursors w) ∧ (advanceCursors w).seq = v.seq := by
      obtain ⟨-, -, rfl⟩ := winSetMirror_ok hw
      exact ⟨⟨rfl, rfl⟩, rfl⟩
    have hr := (mfRemove_frame hremove).1
    have hx := mfInsert_frame hinsert
    have hseq : x.seq = .eAdv := by rw [hx.seq, hwrite.2, hr.seq, hread.2, hq]
    have hgroup : SameGroup s x :=
      hread.1.trans <| (sameGroup_of_enc hr.enc).trans <| hwrite.1.trans (sameGroup_of_enc hx.enc)
    exact GroupOpen.inv_of_seq .eAdv (hs.congr (hgroup.trans ⟨rfl, rfl⟩)) hseq (by decide) (by decide)

theorem eDrain_group (hq : s.seq = .eDrain) (hs : GroupOpen s) (h : eDrain s = .ok t) : t.GroupInv := by
  obtain ⟨-, rfl⟩ | ⟨-, v, hremove, hend⟩ := eDrain_cases h
  · exact hs.inv_goto .eLoop (by decide) (by decide)
  · have hr := (mfRemove_frame hremove).1
    have hcount : SameGroup s (s.withEnc { s.enc with i := s.enc.i + 1 }) := ⟨rfl, rfl⟩
    have hdrained : SameGroup v (drained v) := ⟨rfl, rfl⟩
    have hseq : (drained v).seq = .eDrain := hr.seq.trans hq
    have hgroup : SameGroup s (drained v) := hcount.trans <| (sameGroup_of_enc hr.enc).trans hdrained
    obtain ⟨-, rfl⟩ | ⟨-, hinsert⟩ := hend
    · exact (hs.congr hgroup).inv_of_seq _ hseq (by decide) (by decide)
    · have hx := mfInsert_frame hinsert
      exact (hs.congr (hgroup.trans (sameGroup_of_enc hx.enc))).inv_of_seq _ (hx.seq.trans hseq)
        (by decide) (by decide)

theorem microStep_group (hq : s.seq.mode = some .compress) (hs : s.GroupInv) (h : microStep s = .ok t) :
    t.GroupInv := by
  have hopen := hs.isOpen
  cases hl : s.seq <;> simp only [microStep, hl] at h <;> rw [hl] at hq hopen
  case eStart =>
    cases h
    obtain ⟨enc, hptr, hmask, h⟩ := eStart_cases s
    rw [h]
    exact GroupOpen.inv_of_seq .eLoad (groupOpen_of_empty hptr hmask) rfl (by decide) (by decide)
  case eLoad => exact eLoad_group hl (hopen rfl (by decide)) h
  case ePrime =>
    obtain ⟨u, v, hu, hv, rfl⟩ := ePrime_cases h
    have henc := ((insertEach_frame hu).trans (mfInsert_frame hv)).enc
    have hprimed : GroupOpen v := (hopen rfl (by decide)).congr (sameGroup_of_enc henc)
    exact hprimed.inv_goto .eToken (by decide) (by decide)
  case eToken => exact eToken_group (hopen rfl (by decide)) h
  case eFlush => exact eFlush_group hl hs h
  case eAdv => exact eAdv_group hl (hopen rfl (by decide)) h
  case eDrain => exact eDrain_group hl (hopen rfl (by decide)) h
  case eLoop =>
    cases h
    have hs := hopen rfl (by decide)
    obtain h | h := eLoop_cases s <;> rw [h]
    · exact hs.inv_eFinal
    · exact hs.inv_goto .eToken (by decide) (by decide)
  case eFinal => exact eFinal_group hl (hopen rfl (by decide)) h
  all_goals simp [Seq.mode] at hq

theorem engineStep_groupInv (hs : s.GroupInv) (h : engineStep s = .next t) : t.GroupInv := by
  intro ht
  have hq := (engineStep_move h).mode (Seq.encoderRuns_mode ht)
  rw [engineStep_compress hq] at h
  exact microStep_group hq hs (outcomeOf_next.1 h) ht

theorem step_groupInv (hs : s.GroupInv) (h : step s = .next t) : t.GroupInv := by
  refine step_keeps (fun _ _ _ hs => hs) (commandWrite_keeps (fun _ _ hs => hs) fun mode s _ hruns => ?_) (by decide)
    (fun _ _ => engineStep_groupInv) hs h
  exact absurd hruns (by simp [startSession_not_encoderRuns])

end

end Sys2Proof.Machine
end

section
/-! PROOF. O54, the faults: which operation can stop with which fault. The window, the links and the match finder stop with
faults of their own (spec/60_exceptions.md R287, R323), so only the token packer and the output loops can meet the group
buffer's bounds, and the invariant keeps them within it. -/

namespace Sys2Proof.Machine

/-- The faults of the window, the links and the match finder: all but the group buffer's and the latch's. -/
def Fault.ofTrees : Fault → Bool
  | .windowIndex | .windowUnwritten | .treeIndex | .treeUnwritten | .insertPresent | .tailBroken | .keyStability
  | .treeCycle => true
  | .groupIndex | .segmentMalformed => false

/-- An operation that stops, if it does, with a fault of the window, the links or the match finder. -/
def OnlyTreeFaults {α : Type} (x : Except Fault α) : Prop :=
  ∀ e, x = .error e → e.ofTrees = true

section

variable {α β : Type}

@[simp] theorem onlyTreeFaults_ok (a : α) : OnlyTreeFaults (.ok a) :=
  fun _ h => by cases h

@[simp] theorem onlyTreeFaults_error (e : Fault) : OnlyTreeFaults (α := α) (.error e) ↔ e.ofTrees = true :=
  ⟨fun h => h e rfl, fun h _ he => by cases he; exact h⟩

/-- A sequence stops with its first part's fault, or with its second's after an answer of the first. -/
@[simp] theorem onlyTreeFaults_bind (x : Except Fault α) (f : α → Except Fault β) :
    OnlyTreeFaults (x >>= f) ↔ OnlyTreeFaults x ∧ ∀ a, x = .ok a → OnlyTreeFaults (f a) := by
  cases x with
  | ok a => simp [bind, Except.bind]
  | error e => simp [bind, Except.bind]

@[simp] theorem onlyTreeFaults_ite (p : Prop) {_ : Decidable p} (x y : Except Fault α) :
    OnlyTreeFaults (if p then x else y) ↔ (p → OnlyTreeFaults x) ∧ (¬ p → OnlyTreeFaults y) := by
  split <;> simp_all

end

section

variable (s : State)

/-! The RAMs. -/

@[simp] theorem winRead_faults (i : Nat) : OnlyTreeFaults (winRead s i) := by
  unfold winRead
  cases Memory.read s.win i <;> simp [Fault.ofTrees]

@[simp] theorem winWrite_faults (i : Nat) (v : Byte) : OnlyTreeFaults (winWrite s i v) := by
  simp [winWrite, Fault.ofTrees]

@[simp] theorem winGetLin_faults (i : Nat) : OnlyTreeFaults (winGetLin s i) := winRead_faults s i

@[simp] theorem winGetCirc_faults (i : Nat) : OnlyTreeFaults (winGetCirc s i) := winRead_faults s _

@[simp] theorem winSetCirc_faults (a : Nat) (c : Byte) : OnlyTreeFaults (winSetCirc s a c) := winWrite_faults s _ c

@[simp] theorem winSetMirror_faults (a : Nat) (c : Byte) : OnlyTreeFaults (winSetMirror s a c) := by
  simp [winSetMirror, Fault.ofTrees]

@[simp] theorem linkRead_faults (k : Link) (i : Nat) : OnlyTreeFaults (linkRead k s i) := by
  unfold linkRead
  cases Memory.read (s.links k) i <;> simp [Fault.ofTrees]

@[simp] theorem linkWrite_faults (k : Link) (i v : Nat) : OnlyTreeFaults (linkWrite k s i v) := by
  simp [linkWrite, Fault.ofTrees]

/-! The match finder. -/

@[simp] theorem mfCompare_faults (fuel r : Nat) : OnlyTreeFaults (mfCompare fuel r s) := by
  induction fuel generalizing s with
  | zero => exact onlyTreeFaults_ok s
  | succ n ih => simp [mfCompare, ih]

@[simp] theorem mfMeasure_faults (r : Nat) : OnlyTreeFaults (mfMeasure r s) := by
  simp [mfMeasure]

@[simp] theorem mfReplace_faults (r : Nat) : OnlyTreeFaults (mfReplace r s) := by
  simp [mfReplace]

@[simp] theorem mfWalk_faults (fuel r : Nat) : OnlyTreeFaults (mfWalk fuel r s) := by
  induction fuel generalizing s with
  | zero => simp [mfWalk, Fault.ofTrees]
  | succ n ih => simp [mfWalk, ih]

@[simp] theorem mfInsertCheck_faults (r : Nat) : OnlyTreeFaults (mfInsertCheck r s) := by
  simp [mfInsertCheck, Fault.ofTrees]

@[simp] theorem mfInsert_faults (r : Nat) : OnlyTreeFaults (mfInsert r s) := by
  simp [mfInsert]

@[simp] theorem mfRightmost_faults (fuel : Nat) : OnlyTreeFaults (mfRightmost fuel s) := by
  induction fuel generalizing s with
  | zero => simp [mfRightmost, Fault.ofTrees]
  | succ n ih => simp [mfRightmost, ih]

@[simp] theorem mfPredecessor_faults (p : Nat) : OnlyTreeFaults (mfPredecessor p s) := by
  simp [mfPredecessor]

@[simp] theorem mfTwoChildren_faults (p : Nat) : OnlyTreeFaults (mfTwoChildren p s) := by
  simp [mfTwoChildren, mfUnlink]

@[simp] theorem mfSuccessor_faults (p : Nat) : OnlyTreeFaults (mfSuccessor p s) := by
  simp [mfSuccessor]

@[simp] theorem mfSplice_faults (p : Nat) : OnlyTreeFaults (mfSplice p s) := by
  simp [mfSplice]

@[simp] theorem mfRemove_faults (p : Nat) : OnlyTreeFaults (mfRemove p s) := by
  simp [mfRemove, Fault.ofTrees]

@[simp] theorem insertEach_faults (rs : List Nat) : OnlyTreeFaults (insertEach rs s) := by
  induction rs generalizing s with
  | nil => exact onlyTreeFaults_ok s
  | cons r rs ih => simp [insertEach, ih]

/-! The group buffer, within its cells. -/

theorem groupRead_faults {i : Nat} (hi : i < 17) : OnlyTreeFaults (groupRead s i) := by
  simp [groupRead, Config.groupCells, hi]

theorem groupWrite_faults {i : Nat} (hi : i < 17) (v : Byte) : OnlyTreeFaults (groupWrite s i v) := by
  simp [groupWrite, Config.groupCells, hi]

theorem groupWrite_cbptr {s t : State} {i : Nat} {v : Byte} (h : groupWrite s i v = .ok t) :
    t.enc.cbptr = s.enc.cbptr := by
  obtain ⟨_, rfl⟩ := groupWrite_ok.1 h
  rfl

theorem packLiteral_faults (hroom : s.enc.cbptr.toNat < 17) : OnlyTreeFaults (packLiteral s) := by
  simp only [packLiteral, onlyTreeFaults_bind]
  refine ⟨groupRead_faults _ (by decide), fun control _ => ⟨groupWrite_faults _ (by decide) _, fun u hu => ?_⟩⟩
  refine ⟨winGetLin_faults u _, fun b _ => ⟨groupWrite_faults u ?_ b, fun _ _ => onlyTreeFaults_ok _⟩⟩
  rw [groupWrite_cbptr hu]
  exact hroom

theorem packReference_faults (hroom : s.enc.cbptr.toNat + 1 < 17) : OnlyTreeFaults (packReference s) := by
  simp only [packReference, onlyTreeFaults_bind]
  refine ⟨groupWrite_faults s (Nat.lt_of_succ_lt hroom) _, fun u hu => ?_⟩
  refine ⟨groupWrite_faults u ?_ _, fun _ _ => onlyTreeFaults_ok _⟩
  rw [groupWrite_cbptr hu]
  exact hroom

theorem outputGroupByte_faults (hidx : s.outIdx.toNat < 17) : OnlyTreeFaults (outputGroupByte s) := by
  unfold outputGroupByte
  rw [onlyTreeFaults_bind]
  refine ⟨groupRead_faults s hidx, fun b _ => ?_⟩
  cases outWrite b s <;> exact onlyTreeFaults_ok _

/-! The labels, under the group buffer's invariant. -/

theorem eLoad_faults : OnlyTreeFaults (eLoad s) := by
  unfold eLoad
  cases inRead s <;> simp

theorem ePrime_faults : OnlyTreeFaults (ePrime s) := by
  simp [ePrime]

theorem eToken_faults (hs : GroupOpen s) : OnlyTreeFaults (eToken s) := by
  obtain ⟨found, hc⟩ := clampMatch_frame s
  have hroom : (s.withFound found).enc.cbptr.toNat ≤ 15 := hs.cbptr_le
  have hpack : OnlyTreeFaults (packToken (clampMatch s)) := by
    rw [hc, packToken, onlyTreeFaults_ite]
    exact ⟨fun _ => packLiteral_faults _ (by omega), fun _ => packReference_faults _ (by omega)⟩
  simp [eToken, hpack]

theorem eFlush_faults (hptr : s.enc.cbptr.toNat ≤ 17) : OnlyTreeFaults (eFlush s) := by
  rw [eFlush, onlyTreeFaults_ite]
  exact ⟨fun hidx => outputGroupByte_faults s (by omega), fun _ => onlyTreeFaults_ok _⟩

theorem eFinal_faults (hptr : s.enc.cbptr.toNat ≤ 17) : OnlyTreeFaults (eFinal s) := by
  rw [eFinal, onlyTreeFaults_ite]
  exact ⟨fun ⟨_, hidx⟩ => outputGroupByte_faults s (by omega), fun _ => onlyTreeFaults_ok _⟩

theorem eAdv_faults : OnlyTreeFaults (eAdv s) := by
  unfold eAdv
  cases inRead s <;> simp

theorem eDrain_faults : OnlyTreeFaults (eDrain s) := by
  simp only [eDrain, onlyTreeFaults_ite, onlyTreeFaults_bind, onlyTreeFaults_ok, mfRemove_faults, mfInsert_faults,
    implies_true, and_self]

theorem emitByte_faults (c : Byte) (after : State → State) : OnlyTreeFaults (emitByte c after s) := by
  unfold emitByte
  cases outWrite c s <;> simp

theorem dCopy_faults : OnlyTreeFaults (dCopy s) := by
  simp [dCopy, emitByte_faults]

theorem microStep_faults {s : State} (hs : s.GroupInv) : OnlyTreeFaults (microStep s) := by
  have hopen := hs.isOpen
  cases hq : s.seq <;> simp only [microStep, hq] <;> rw [hq] at hopen
  case eLoad => exact eLoad_faults s
  case ePrime => exact ePrime_faults s
  case eToken => exact eToken_faults s (hopen rfl (by decide))
  case eFlush =>
    obtain ⟨hflush, -⟩ := hs (by rw [hq]; rfl)
    obtain ⟨⟨-, -, hptr⟩, -⟩ := hflush hq
    exact eFlush_faults s hptr
  case eAdv => exact eAdv_faults s
  case eDrain => exact eDrain_faults s
  case eFinal =>
    have hptr := (hopen rfl (by decide)).cbptr_le
    exact eFinal_faults s (by omega)
  case dCopy => exact dCopy_faults s
  all_goals exact onlyTreeFaults_ok _

/-- Under the group buffer's invariant the engine stops, if it does, at a malformed latch or with a fault of the window,
the links or the match finder. -/
theorem engineStep_fault {s : State} (hs : s.GroupInv) {e : Fault} (h : engineStep s = .fault e) :
    e = .segmentMalformed ∨ e.ofTrees = true := by
  have houtcome {x : Except Fault State} (hx : OnlyTreeFaults x) (he : outcomeOf x = .fault e) : e.ofTrees = true := by
    cases x with
    | ok t => cases he
    | error e' => cases he; exact hx e rfl
  unfold engineStep at h
  split at h
  · next x hx =>
    obtain ⟨f, -, -, rfl⟩ := fetched_some hx
    split at h
    · next i hi =>
      obtain ⟨c, rfl⟩ | ⟨b, rfl⟩ | ⟨pos, ln, rfl⟩ := decode_segment_ok hi
      · cases h
      · exact .inr (houtcome (emitByte_faults s b _) h)
      · cases h
    · cases h; exact .inl rfl
  · exact .inr (houtcome (microStep_faults hs) h)

end

/-- Settles O54: every label keeps the number of tokens in the group, adds one, or empties it, and within 17 cells nothing
faults on the group buffer. -/
theorem groupBufferStaysInRange : Obligations.GroupBufferStaysInRange := by
  refine ⟨fun _ _ => step_groupInv, fun s hs h => ?_⟩
  obtain h | h := engineStep_fault hs h
  · cases h
  · cases h

end Sys2Proof.Machine
end

section
/-! PROOF. O7: waiting (spec/10_state.md R64, log 3). At each label the engine either waits, with nothing changed, or changes
a register of its own: the label, a counter, the latch or the port. -/

namespace Sys2Proof.Machine

section

variable {s t : State}

/-! What a change of one field excludes. -/

theorem ne_of_seq {q : Seq} (q' : Seq) (hs : s.seq = q) (ht : t.seq = q') (h : q' ≠ q) : t ≠ s := by
  rintro rfl
  exact h (ht.symm.trans hs)

theorem ne_of_seg (h : t.seg ≠ s.seg) : t ≠ s := fun he => h (he ▸ rfl)

theorem ne_of_encI (h : t.enc.i ≠ s.enc.i) : t ≠ s := fun he => h (he ▸ rfl)

/-- An item that `InRead` takes leaves the port. -/
theorem ne_of_inRead_byte {u : State} {b : Byte} (h : inRead s = .byte b u) (ht : t.host = u.host) : t ≠ s := by
  obtain ⟨-, rest, hr, rfl⟩ := inRead_byte.1 h
  rintro rfl
  have hlength := congrArg (fun x => x.input.length) ht
  simp [hr] at hlength

/-- A byte that goes out uses up one of the bytes that the host accepts. -/
theorem ne_of_credit {n : Nat} (hc : s.host.credit = n + 1) (ht : t.host.credit = n) : t ≠ s := by
  rintro rfl
  omega

/-! The labels. -/

theorem eLoadEnd_seq (s : State) : (eLoadEnd s).seq = .eFinal ∨ (eLoadEnd s).seq = .ePrime := by
  obtain h | h := eLoadEnd_cases s <;> rw [h]
  · exact .inl rfl
  · exact .inr rfl

theorem eLoad_stays (hq : s.seq = .eLoad) (h : eLoad s = .ok t) :
    t = s ↔ s.enc.len.toNat < s.par.f.toNat ∧ inRead s = .wait := by
  have hend (u : State) : eLoadEnd u ≠ s := by
    obtain h | h := eLoadEnd_seq u <;> exact ne_of_seq _ hq h (by decide)
  obtain ⟨hl, rfl⟩ | ⟨hl, ⟨hi, rfl⟩ | ⟨u, hi, rfl⟩ | ⟨c, u, v, hi, hw, rfl⟩⟩ := eLoad_cases h
  · exact iff_of_false (hend s) (by omega)
  · exact iff_of_true rfl ⟨hl, hi⟩
  · exact iff_of_false (hend u) (by simp [hi])
  · obtain ⟨-, -, rfl⟩ := winSetMirror_ok hw
    exact iff_of_false (ne_of_inRead_byte hi rfl) (by simp [hi])

theorem eAdv_stays (hq : s.seq = .eAdv) (h : eAdv s = .ok t) :
    t = s ↔ s.enc.i.toNat < s.enc.lastlen.toNat ∧ inRead s = .wait := by
  have hend (u : State) : u.goto .eDrain ≠ s := ne_of_seq .eDrain hq rfl (by decide)
  obtain ⟨hl, rfl⟩ | ⟨hl, ⟨hi, rfl⟩ | ⟨u, hi, rfl⟩ | ⟨c, u, v, w, x, hi, hremove, hw, hinsert, rfl⟩⟩ := eAdv_cases h
  · exact iff_of_false (hend s) (by omega)
  · exact iff_of_true rfl ⟨hl, hi⟩
  · exact iff_of_false (hend u) (by simp [hi])
  · have hhost : x.host = u.host := by
      obtain ⟨-, -, rfl⟩ := winSetMirror_ok hw
      exact (mfInsert_frame hinsert).host.trans (mfRemove_frame hremove).1.host
    exact iff_of_false (ne_of_inRead_byte hi hhost) (by simp [hi])

theorem eDrain_moves (hq : s.seq = .eDrain) (h : eDrain s = .ok t) : t ≠ s := by
  obtain ⟨-, rfl⟩ | ⟨-, v, hremove, hend⟩ := eDrain_cases h
  · exact ne_of_seq .eLoop hq rfl (by decide)
  · have hi : (drained v).enc.i = s.enc.i + 1 := congrArg Encoder.i (mfRemove_frame hremove).1.enc
    have hcount : s.enc.i + 1 ≠ s.enc.i := by bv_omega
    obtain ⟨-, rfl⟩ | ⟨-, hinsert⟩ := hend
    · exact ne_of_encI (hi ▸ hcount)
    · exact ne_of_encI (by rw [(mfInsert_frame hinsert).enc, hi]; exact hcount)

theorem outputGroupByte_stays (h : outputGroupByte s = .ok t) : t = s ↔ s.host.credit = 0 := by
  obtain ⟨_, ⟨hc, rfl⟩ | ⟨n, hc, rfl⟩⟩ := outputGroupByte_cases h
  · exact iff_of_true rfl hc
  · exact iff_of_false (ne_of_credit hc rfl) (by omega)

theorem eFlush_stays (hq : s.seq = .eFlush) (h : eFlush s = .ok t) :
    t = s ↔ s.host.credit = 0 ∧ s.outIdx.toNat < s.enc.cbptr.toNat := by
  obtain ⟨hidx, h⟩ | ⟨hidx, rfl⟩ := eFlush_cases h
  · rw [outputGroupByte_stays h, and_iff_left hidx]
  · exact iff_of_false (ne_of_seq .eAdv hq rfl (by decide)) (by omega)

theorem eFinal_stays (hq : s.seq = .eFinal) (h : eFinal s = .ok t) :
    t = s ↔ s.host.credit = 0 ∧ 1 < s.enc.cbptr.toNat ∧ s.outIdx.toNat < s.enc.cbptr.toNat := by
  obtain ⟨hidx, h⟩ | ⟨hidx, rfl⟩ := eFinal_cases h
  · rw [outputGroupByte_stays h, and_iff_left hidx]
  · exact iff_of_false (ne_of_seq .idle hq rfl (by decide)) fun hc => hidx hc.2

theorem fetchByte_stays (f : Format) (hq : s.seq ≠ .idle) : fetchByte f s = s ↔ inRead s = .wait := by
  obtain ⟨hi, h⟩ | ⟨u, hi, h⟩ | ⟨b, u, hi, h⟩ := fetchByte_cases f s <;> rw [h]
  · exact iff_of_true rfl hi
  · exact iff_of_false (ne_of_seq .idle rfl rfl hq.symm) (by simp [hi])
  · exact iff_of_false (ne_of_inRead_byte hi rfl) (by simp [hi])

theorem dCopy_stays (hq : s.seq = .dCopy) (h : dCopy s = .ok t) :
    t = s ↔ s.host.credit = 0 ∧ s.dec.k.toNat ≤ s.dec.l.toNat := by
  obtain ⟨hk, rfl⟩ | ⟨hk, c, -, ⟨hc, rfl⟩ | ⟨n, hc, -, rfl⟩⟩ := dCopy_cases h
  · exact iff_of_false (ne_of_seq .dNext hq rfl (by decide)) (by omega)
  · exact iff_of_true rfl ⟨hc, hk⟩
  · exact iff_of_false (ne_of_credit hc rfl) (by omega)

theorem nextLabel_ne (flags : BitVec 16) : nextLabel flags ≠ .dNext := by
  unfold nextLabel tokenLabel
  split
  · decide
  · split <;> decide

/-- Without a whole segment at hand the latch is shorter than the label's segment. -/
theorem seg_length_of_not_fetched {f : Format} (hf : segmentFormat s.seq = some f) (hn : fetched s = none) :
    s.seg.length < f.length := by
  simpa [fetched, hf] using hn

theorem microStep_stays (hn : fetched s = none) (h : microStep s = .ok t) :
    t = s ↔ s.seq = .idle ∨ s.WaitsForInput ∨ s.WaitsForOutput := by
  have hseg {f : Format} := seg_length_of_not_fetched (s := s) (f := f)
  cases hq : s.seq <;> simp only [microStep, hq] at h <;> rw [hq] at hseg
  all_goals simp only [State.WaitsForInput, State.WaitsForOutput, hq, reduceCtorEq, true_and, false_and, false_or,
    or_false, and_false]
  case idle => cases h; simp
  case eStart =>
    cases h
    obtain ⟨enc, -, -, h⟩ := eStart_cases s
    exact iff_of_false (ne_of_seq .eLoad hq (by rw [h]; rfl) (by decide)) not_false
  case eLoad => rw [eLoad_stays hq h, inRead_wait]; tauto
  case ePrime =>
    obtain ⟨u, v, -, -, rfl⟩ := ePrime_cases h
    exact iff_of_false (ne_of_seq .eToken hq rfl (by decide)) not_false
  case eToken =>
    obtain ⟨_, _, _, q, hlabel, rfl⟩ := eToken_frame h
    refine iff_of_false (ne_of_seq q hq rfl ?_) not_false
    obtain rfl | rfl := hlabel <;> decide
  case eFlush => rw [eFlush_stays hq h]
  case eAdv => rw [eAdv_stays hq h, inRead_wait]; tauto
  case eDrain => exact iff_of_false (eDrain_moves hq h) not_false
  case eLoop =>
    cases h
    obtain h | h := eLoop_cases s <;> rw [h]
    · exact iff_of_false (ne_of_seq .eFinal hq rfl (by decide)) not_false
    · exact iff_of_false (ne_of_seq .eToken hq rfl (by decide)) not_false
  case eFinal => rw [eFinal_stays hq h]
  case dStart => cases h; exact iff_of_false (ne_of_seq .dNext hq rfl (by decide)) not_false
  case dNext => cases h; exact iff_of_false (ne_of_seq _ hq rfl (nextLabel_ne _)) not_false
  case dCtrl =>
    have hempty : s.seg = [] := List.eq_nil_of_length_eq_zero (Nat.lt_one_iff.1 (hseg rfl hn))
    cases h
    rw [fetchByte_stays .wCtrl (by simp [hq]), inRead_wait]
    tauto
  case dLit =>
    have hempty : s.seg = [] := List.eq_nil_of_length_eq_zero (Nat.lt_one_iff.1 (hseg rfl hn))
    cases h
    rw [fetchByte_stays .wLit (by simp [hq]), inRead_wait]
    tauto
  case dRef =>
    have hshort : s.seg.length < 2 := hseg rfl hn
    cases h
    rw [fetchByte_stays .wRef (by simp [hq]), inRead_wait]
    tauto
  case dCopy => rw [dCopy_stays hq h]

theorem engineStep_stays (h : engineStep s = .next t) :
    t = s ↔ s.seq = .idle ∨ s.WaitsForInput ∨ s.WaitsForOutput := by
  obtain ⟨c, hq, hseg, h⟩ | ⟨b, hq, hseg, h⟩ | ⟨b1, b2, hq, hseg, h⟩ | ⟨hn, h⟩ := engineStep_cases h
  · cases h
    refine iff_of_false (ne_of_seg ?_) ?_
    · simp [hseg]
    · simp [State.WaitsForInput, State.WaitsForOutput, hq, hseg]
  · have hwaits : (s.seq = .idle ∨ s.WaitsForInput ∨ s.WaitsForOutput) ↔ s.host.credit = 0 := by
      simp [State.WaitsForInput, State.WaitsForOutput, hq, hseg]
    rw [hwaits]
    obtain ⟨hc, rfl⟩ | ⟨n, hc, -, rfl⟩ := execLit_cases h
    · exact iff_of_true rfl hc
    · exact iff_of_false (ne_of_credit hc rfl) (by omega)
  · cases h
    refine iff_of_false (ne_of_seg ?_) ?_
    · simp [hseg]
    · simp [State.WaitsForInput, State.WaitsForOutput, hq, hseg]
  · exact microStep_stays hn h

end

/-- Settles O7: label by label, the engine waits with nothing changed or changes one of the label, the latch, the port and
the counter I. -/
theorem engineStandsStillExactlyWhenItWaits : Obligations.EngineStandsStillExactlyWhenItWaits :=
  fun _ _ => engineStep_stays

end Sys2Proof.Machine
end

section
/-! PROOF. O20: a register write (spec/10_state.md R42, spec/44_host_commands.md R268). -/

namespace Sys2Proof.Machine

/-- A turn that writes a register other than CMD makes that write. -/
theorem step_write {s : State} {n : BitVec 4} {v : Word} {ts : List Turn} (hs : s.host.script = .write n v :: ts)
    (hn : n ≠ 0) : step s = .next (hostWrite n v (nextTurn ts s)) := by
  simp only [step, hs, if_neg hn, hostTurn]

/-- Storing the low `k` bits of a word is storing its AND with the mask of `k` ones (R42). -/
theorem setWidth_setWidth_eq_and (k : Nat) (v mask : Word) (hk : k ≤ 32) (hmask : mask.toNat = 2 ^ k - 1) :
    (v.setWidth k).setWidth 32 = v &&& mask := by
  apply BitVec.eq_of_toNat_eq
  have hpow : 2 ^ k ≤ 2 ^ 32 := Nat.pow_le_pow_right (by decide) hk
  have hlt : v.toNat % 2 ^ k < 2 ^ 32 := (Nat.mod_lt _ (by positivity)).trans_le hpow
  rw [BitVec.toNat_setWidth, BitVec.toNat_setWidth, BitVec.toNat_and, hmask, Nat.and_two_pow_sub_one_eq_mod,
    Nat.mod_eq_of_lt hlt]

/-- CFG_MODE reads as the one bit it stores (R38). -/
theorem modeOfBit_code (v : Word) : BitVec.ofNat 32 (modeOfBit (v.getLsbD 0)).code = v &&& 0x1#32 := by
  rw [BitVec.and_one_eq_setWidth_ofBool_getLsbD]
  cases v.getLsbD 0 <;> rfl

/-- A configuration register reads as the value written, ANDed with its field mask. -/
theorem readRegister_hostWrite_same (s : State) (n : BitVec 4) (v : Word) (hlo : 2 ≤ n.toNat) (hhi : n.toNat ≤ 7) :
    readRegister (hostWrite n v s) n = v &&& fieldMask n.toNat := by
  have hcases : n = 2 ∨ n = 3 ∨ n = 4 ∨ n = 5 ∨ n = 6 ∨ n = 7 := by
    bv_omega
  obtain rfl | rfl | rfl | rfl | rfl | rfl := hcases
  · exact setWidth_setWidth_eq_and 13 v _ (by decide) (by decide)
  · exact setWidth_setWidth_eq_and 8 v _ (by decide) (by decide)
  · exact setWidth_setWidth_eq_and 12 v _ (by decide) (by decide)
  · exact setWidth_setWidth_eq_and 12 v _ (by decide) (by decide)
  · exact setWidth_setWidth_eq_and 12 v _ (by decide) (by decide)
  · exact modeOfBit_code v

/-- The other registers ignore a write. -/
theorem hostWrite_ignored (s : State) (n : BitVec 4) (v : Word) (hn : n.toNat < 2 ∨ 8 ≤ n.toNat) :
    hostWrite n v s = s := by
  unfold hostWrite
  split
  case h_7 => rfl
  all_goals omega

theorem readRegister_hostWrite_other (s : State) {n m : BitVec 4} (v : Word) (hm : m ≠ n) :
    readRegister (hostWrite n v s) m = readRegister s m := by
  have hne : m.toNat ≠ n.toNat := fun h => hm (BitVec.eq_of_toNat_eq h)
  unfold hostWrite
  split
  case h_7 => rfl
  all_goals
    unfold readRegister
    split <;> simp_all

/-- Settles O20: the field is stored at its width, and the turn does nothing else. -/
theorem hostWriteStoresTheMaskedField : Obligations.HostWriteStoresTheMaskedField := by
  intro s n v ts hs hn
  refine ⟨_, step_write hs hn, ?_, ?_, ?_, ?_⟩
  · obtain ⟨cfg, h⟩ := hostWrite_frame n v (nextTurn ts s)
    rw [h]
    rfl
  · exact readRegister_hostWrite_same _ n v
  · exact fun hn => hostWrite_ignored _ n v (by omega)
  · intro m hm
    rw [readRegister_hostWrite_other _ v hm]
    rfl

end Sys2Proof.Machine
end

section
/-! PROOF. O6: the step and the decoder (spec/10_state.md R63, spec/30_encoding.md R126). O58 and O59: the state after reset
(R65), whose values the model evaluates. -/

namespace Sys2Proof.Machine

theorem engineStep_of_decode {s : State} {x : Fetch} {i : Instr} (hx : fetched s = some x) (hi : decode x = .ok i) :
    engineStep s = exec i s := by
  simp only [engineStep, hx, hi]

/-- Settles O6: the three ways a step comes to an instruction. -/
theorem stepRunsTheDecodedInstruction : Obligations.StepRunsTheDecodedInstruction := by
  refine ⟨fun s x i hs hx hi => ?_, fun s ts x i hs hx hi => ?_, fun s v ts i hs hi => ?_⟩
  · rw [← engineStep_of_decode hx hi]
    simp only [step, hs]
  · rw [← engineStep_of_decode hx hi]
    simp only [step, hs]
  · simp only [step, hs, if_pos, commandTurn, hi]

/-- Settles O58: reset is idle with legal parameters, empty RAMs and an empty latch. -/
theorem resetMeetsTheInvariants : Obligations.ResetMeetsTheInvariants :=
  ⟨by decide, by decide, by decide, by decide, by decide, by decide, by decide, by decide, by decide⟩

/-- Settles O59: the model's reset state holds the values of R65's table. -/
theorem resetValues : Obligations.ResetValues := by
  unfold Obligations.ResetValues
  decide

end Sys2Proof.Machine
end

section
/-! PROOF. What a predicate needs so that the engine's step keeps it: every label and every token is made of the RAMs'
writes, MF_INIT, the two ports and register updates, so a predicate that these keep is kept by the step. The match finder,
the labels and the tokens are walked through once, for every such predicate. -/

namespace Sys2Proof.Machine

/-- `x` stops, or answers a state with `P`. -/
def Answers (P : State → Prop) (x : Except Fault State) : Prop :=
  ∀ t, x = .ok t → P t

/-- `P` is kept by everything an engine step is made of. -/
structure EngineStable (P : State → Prop) : Prop where
  /-- What is neither a RAM nor at a port, and is no counter, parameter or configuration, is free. -/
  registers {s t : State} (hs : P s) (h : t = { s with
      status := t.status, found := t.found, enc := t.enc, walk := t.walk, dec := t.dec, seq := t.seq, seg := t.seg,
      outIdx := t.outIdx }) : P t
  winWrite {s : State} {i : Nat} {v : Byte} (hs : P s) : Answers P (winWrite s i v)
  linkWrite {s : State} {k : Link} {i v : Nat} (hs : P s) : Answers P (linkWrite k s i v)
  mfInit {s : State} (hs : P s) : P (mfInit s)
  inReadEof {s t : State} (hs : P s) (h : inRead s = .eof t) : P t
  inReadByte {s t : State} {b : Byte} (hs : P s) (h : inRead s = .byte b t) : P t
  outWrite {s t : State} {b : Byte} (hs : P s) (h : outWrite b s = some t) : P t

section

variable {P : State → Prop} {α : Type} {s : State}

theorem Answers.ok (hs : P s) : Answers P (.ok s) :=
  fun _ h => by cases h; exact hs

theorem Answers.error (e : Fault) : Answers P (.error e) :=
  fun _ h => by cases h

theorem Answers.ite {p : Prop} {_ : Decidable p} {x y : Except Fault State} (hx : Answers P x) (hy : Answers P y) :
    Answers P (if p then x else y) := by
  split
  · exact hx
  · exact hy

/-- What comes after an operation that answers no state answers from the state it began with. -/
theorem Answers.read {x : Except Fault α} {f : α → Except Fault State} (hf : ∀ a, Answers P (f a)) :
    Answers P (x >>= f) := by
  intro t h
  obtain ⟨a, -, h⟩ := bind_ok.1 h
  exact hf a t h

theorem Answers.bind {x : Except Fault State} {f : State → Except Fault State} (hx : Answers P x)
    (hf : ∀ u, P u → Answers P (f u)) : Answers P (x >>= f) := by
  intro t h
  obtain ⟨u, hu, h⟩ := bind_ok.1 h
  exact hf u (hx u hu) t h

end

section

variable {P : State → Prop} (hP : EngineStable P) {s t : State} (hs : P s)
include hP hs

/-! The match finder. -/

theorem mfMeasure_keeps (r : Nat) : Answers P (mfMeasure r s) := by
  refine .bind (fun u hu => ?_) fun u hu => .ite (.ok (hP.registers hu rfl)) (.ok hu)
  obtain ⟨cmp, j, rfl⟩ := mfCompare_frame hu
  exact hP.registers hs rfl

theorem mfReplace_keeps (r : Nat) : Answers P (mfReplace r s) :=
  .read fun _ => .bind (hP.linkWrite hs) fun _ h =>
  .read fun _ => .bind (hP.linkWrite h) fun _ h =>
  .read fun _ => .bind (hP.linkWrite h) fun _ h =>
  .read fun _ => .bind (hP.linkWrite h) fun _ h =>
  .read fun _ => .bind (hP.linkWrite h) fun _ h =>
  .read fun _ => .read fun _ => .bind (hP.linkWrite h) fun _ h => hP.linkWrite h

theorem mfWalk_keeps (fuel r : Nat) : Answers P (mfWalk fuel r s) := by
  induction fuel generalizing s with
  | zero => exact .error _
  | succ n ih =>
    refine .read fun next => .ite ?_ ?_
    · exact .bind (hP.linkWrite hs) fun _ h => hP.linkWrite h
    · have hp : P (setP s next) := hP.registers hs rfl
      exact .bind (mfMeasure_keeps hP hp r) fun _ h => .ite (mfReplace_keeps hP h r) (ih h)

theorem mfInsert_keeps (r : Nat) : Answers P (mfInsert r s) := by
  refine .read fun _ => .read fun c => ?_
  have hp : P (setP (setCmp s 1) (s.par.root c)) := hP.registers hs rfl
  exact .bind (hP.linkWrite hp) fun _ h => .bind (hP.linkWrite h) fun _ h => mfWalk_keeps hP (hP.registers h rfl) _ r

theorem insertEach_keeps (rs : List Nat) : Answers P (insertEach rs s) := by
  induction rs generalizing s with
  | nil => exact .ok hs
  | cons r rs ih => exact .bind (mfInsert_keeps hP hs r) fun _ h => ih h

theorem mfPredecessor_keeps (p : Nat) : Answers P (mfPredecessor p s) := by
  refine .bind (P := P) (fun u hu => ?_) fun _ h =>
    .read fun _ => .read fun _ => .bind (hP.linkWrite h) fun _ h =>
    .read fun _ => .read fun _ => .bind (hP.linkWrite h) fun _ h =>
    .read fun _ => .bind (hP.linkWrite h) fun _ h =>
    .read fun _ => hP.linkWrite h
  obtain ⟨q, rfl⟩ := mfRightmost_frame hu
  exact hP.registers hs rfl

theorem mfTwoChildren_keeps (p : Nat) : Answers P (mfTwoChildren p s) :=
  have hunlink : Answers P (mfUnlink p s) := .read fun _ => .ite (mfPredecessor_keeps hP hs p) (.ok hs)
  .bind hunlink fun _ h => .read fun _ => .bind (hP.linkWrite h) fun _ h => .read fun _ => hP.linkWrite h

theorem mfSuccessor_keeps (p : Nat) : Answers P (mfSuccessor p s) := by
  have hq (v : Nat) : P (setQ s v) := hP.registers hs rfl
  exact .read fun right => .ite (.read fun left => .ok (hq left))
    (.read fun left => .ite (.ok (hq right)) (mfTwoChildren_keeps hP (hq left) p))

theorem mfSplice_keeps (p : Nat) : Answers P (mfSplice p s) :=
  .read fun _ => .bind (hP.linkWrite hs) fun _ h =>
  .read fun _ => .read fun _ => .bind (hP.linkWrite h) fun _ h => hP.linkWrite h

theorem mfRemove_keeps (p : Nat) : Answers P (mfRemove p s) :=
  .ite (.error _) <| .ite
    (.read fun _ => .ite (.ok hs) (.bind (mfSuccessor_keeps hP hs p) fun _ h => mfSplice_keeps hP h p))
    (.error _)

/-! The window and the output. -/

theorem winSetMirror_keeps (a : Nat) (c : Byte) : Answers P (winSetMirror s a c) :=
  .ite (.error _) <| .ite
    (.bind (hP.winWrite hs) fun _ h => .ite (hP.winWrite h) (.ok h))
    (.error _)

theorem emitByte_keeps (c : Byte) {after : State → State} (hafter : ∀ u, P u → P (after u)) :
    Answers P (emitByte c after s) := by
  unfold emitByte
  cases ho : outWrite c s with
  | none => exact .ok hs
  | some u =>
    exact .bind (hP.winWrite (hP.outWrite hs ho)) fun _ h => .ok (hafter _ (hP.registers h rfl))

theorem outputGroupByte_keeps : Answers P (outputGroupByte s) := by
  refine .read fun b => ?_
  cases ho : outWrite b s with
  | none => exact .ok hs
  | some u => exact .ok (hP.registers (hP.outWrite hs ho) rfl)

/-! The labels. -/

theorem eLoadEnd_keeps : P (eLoadEnd s) := by
  obtain h | h := eLoadEnd_cases s <;> rw [h] <;> exact hP.registers hs rfl

theorem eLoad_keeps : Answers P (eLoad s) := by
  intro t h
  obtain ⟨-, rfl⟩ | ⟨-, ⟨-, rfl⟩ | ⟨u, hi, rfl⟩ | ⟨c, u, v, hi, hw, rfl⟩⟩ := eLoad_cases h
  · exact eLoadEnd_keeps hP hs
  · exact hs
  · exact eLoadEnd_keeps hP (hP.inReadEof hs hi)
  · exact hP.registers (winSetMirror_keeps hP (hP.inReadByte hs hi) _ c v hw) rfl

theorem ePrime_keeps : Answers P (ePrime s) :=
  .bind (insertEach_keeps hP hs _) fun _ h => .bind (mfInsert_keeps hP h _) fun _ h => .ok (hP.registers h rfl)

theorem eToken_keeps : Answers P (eToken s) := by
  intro t h
  obtain ⟨found, enc, outIdx, q, -, rfl⟩ := eToken_frame h
  exact hP.registers hs rfl

theorem eFlush_keeps : Answers P (eFlush s) :=
  .ite (outputGroupByte_keeps hP hs) (.ok (hP.registers hs rfl))

theorem eAdv_keeps : Answers P (eAdv s) := by
  intro t h
  obtain ⟨-, rfl⟩ | ⟨-, ⟨-, rfl⟩ | ⟨u, hi, rfl⟩ | ⟨c, u, v, w, x, hi, hremove, hw, hinsert, rfl⟩⟩ := eAdv_cases h
  · exact hP.registers hs rfl
  · exact hs
  · exact hP.registers (hP.inReadEof hs hi) rfl
  · have hv : P v := mfRemove_keeps hP (hP.inReadByte hs hi) _ v hremove
    have hadvanced : P (advanceCursors w) := hP.registers (winSetMirror_keeps hP hv _ c w hw) rfl
    exact hP.registers (mfInsert_keeps hP hadvanced _ x hinsert) rfl

theorem eDrain_keeps : Answers P (eDrain s) := by
  intro t h
  obtain ⟨-, rfl⟩ | ⟨-, v, hremove, hend⟩ := eDrain_cases h
  · exact hP.registers hs rfl
  · have hv : P v := mfRemove_keeps hP (hP.registers hs rfl) _ v hremove
    have hdrained : P (drained v) := hP.registers hv rfl
    obtain ⟨-, rfl⟩ | ⟨-, hinsert⟩ := hend
    · exact hdrained
    · exact mfInsert_keeps hP hdrained _ t hinsert

theorem eLoop_keeps : P (eLoop s) := by
  obtain h | h := eLoop_cases s <;> rw [h] <;> exact hP.registers hs rfl

theorem eFinal_keeps : Answers P (eFinal s) :=
  .ite (outputGroupByte_keeps hP hs) (.ok (hP.registers hs rfl))

theorem dCopy_keeps : Answers P (dCopy s) :=
  .ite (.read fun c => emitByte_keeps hP hs c fun _ h => hP.registers h rfl) (.ok (hP.registers hs rfl))

theorem fetchByte_keeps (f : Format) : P (fetchByte f s) := by
  obtain ⟨-, h⟩ | ⟨u, hi, h⟩ | ⟨b, u, hi, h⟩ := fetchByte_cases f s <;> rw [h]
  · exact hs
  · exact hP.registers (hP.inReadEof hs hi) rfl
  · exact hP.registers (hP.inReadByte hs hi) rfl

theorem microStep_keeps : Answers P (microStep s) := by
  cases hq : s.seq <;> simp only [microStep, hq]
  case idle => exact .ok hs
  case eStart => exact .ok (hP.registers (hP.mfInit hs) rfl)
  case eLoad => exact eLoad_keeps hP hs
  case ePrime => exact ePrime_keeps hP hs
  case eToken => exact eToken_keeps hP hs
  case eFlush => exact eFlush_keeps hP hs
  case eAdv => exact eAdv_keeps hP hs
  case eDrain => exact eDrain_keeps hP hs
  case eLoop => exact .ok (eLoop_keeps hP hs)
  case eFinal => exact eFinal_keeps hP hs
  case dStart => exact .ok (hP.registers hs rfl)
  case dNext => exact .ok (hP.registers hs rfl)
  case dCtrl => exact .ok (fetchByte_keeps hP hs .wCtrl)
  case dLit => exact .ok (fetchByte_keeps hP hs .wLit)
  case dRef => exact .ok (fetchByte_keeps hP hs .wRef)
  case dCopy => exact dCopy_keeps hP hs

/-- The engine's step keeps every predicate that its operations keep. -/
theorem engineStep_keeps (h : engineStep s = .next t) : P t := by
  obtain ⟨c, -, -, h⟩ | ⟨b, -, -, h⟩ | ⟨b1, b2, -, -, h⟩ | ⟨-, h⟩ := engineStep_cases h
  · cases h
    exact hP.registers hs rfl
  · exact emitByte_keeps hP hs b (fun _ h => hP.registers h rfl) t (outcomeOf_next.1 h)
  · cases h
    exact hP.registers hs rfl
  · exact microStep_keeps hP hs t h

end

end Sys2Proof.Machine
end

section
/-! PROOF. O56: the canonical form of the RAMs (log 7), which a write and a fill keep. -/

namespace Sys2Proof.Machine

theorem winWrite_memoryInv {s : State} {i : Nat} {v : Byte} (hs : s.MemoryInv) :
    Answers State.MemoryInv (winWrite s i v) := by
  intro t h
  obtain ⟨-, rfl⟩ := winWrite_ok.1 h
  obtain ⟨hwin, hlinks⟩ := hs
  exact ⟨Memory.write_wf i v hwin, hlinks⟩

theorem linkWrite_memoryInv {s : State} {k : Link} {i v : Nat} (hs : s.MemoryInv) :
    Answers State.MemoryInv (linkWrite k s i v) := by
  intro t h
  obtain ⟨-, rfl⟩ := linkWrite_ok.1 h
  obtain ⟨hwin, hleft, hright, hparent⟩ := hs
  cases k with
  | left => exact ⟨hwin, Memory.write_wf i _ hleft, hright, hparent⟩
  | right => exact ⟨hwin, hleft, Memory.write_wf i _ hright, hparent⟩
  | parent => exact ⟨hwin, hleft, hright, Memory.write_wf i _ hparent⟩

theorem mfInit_memoryInv {s : State} (hs : s.MemoryInv) : (mfInit s).MemoryInv := by
  obtain ⟨hwin, -⟩ := hs
  exact ⟨hwin, .nil, Memory.fill_wf _ _ _, Memory.fill_wf _ _ _⟩

theorem startSession_memoryInv {s : State} (mode : Mode) (hs : s.MemoryInv) : (startSession mode s).MemoryInv := by
  obtain ⟨-, hlinks⟩ := hs
  exact ⟨Memory.fill_wf _ _ _, hlinks⟩

theorem memoryInv_engineStable : EngineStable State.MemoryInv where
  registers hs h := by rw [h]; exact hs
  winWrite := winWrite_memoryInv
  linkWrite := linkWrite_memoryInv
  mfInit := mfInit_memoryInv
  inReadEof hs h := by obtain ⟨_, _, rfl⟩ := inRead_eof_frame h; exact hs
  inReadByte hs h := by obtain ⟨_, _, rfl⟩ := inRead_byte_frame h; exact hs
  outWrite hs h := by obtain ⟨_, -, rfl⟩ := outWrite_some.1 h; exact hs

theorem commandWrite_memoryInv (v : Word) (s : State) (hs : s.MemoryInv) : (commandWrite v s).MemoryInv := by
  obtain ⟨status, h⟩ | ⟨-, -, h⟩ := commandWrite_status_or_start v s <;> rw [h]
  · exact hs
  · exact startSession_memoryInv (s := clearResult s) _ hs

/-- Settles O56: the engine writes a RAM by `Memory.write` and `Memory.fill` only, a session starts with a filled window,
and after a reset the RAMs list nothing. -/
theorem memoryStaysCanonical : Obligations.MemoryStaysCanonical :=
  fun _ _ => step_keeps (fun _ _ _ hs => hs) commandWrite_memoryInv (by decide) fun _ _ =>
    engineStep_keeps memoryInv_engineStable

end Sys2Proof.Machine
end

section
/-! PROOF. O23: the input port (spec/20_memory.md R90). -/

namespace Sys2Proof.Machine

/-- IN_EOF is 1, and `items` stand at the port. -/
def InputEnded (items : List Item) (s : State) : Prop :=
  s.host.input = items ∧ s.inEof = true

theorem inRead_of_inEof {s : State} (h : s.inEof = true) : inRead s = .eof s :=
  inRead_eof.2 (.inl ⟨h, rfl⟩)

/-- An engine step reaches the input port by `InRead` only, which after `EOF` changes nothing. -/
theorem inputEnded_engineStable (items : List Item) : EngineStable (InputEnded items) where
  registers hs h := by rw [h]; exact hs
  winWrite hs t h := by obtain ⟨-, rfl⟩ := winWrite_ok.1 h; exact hs
  linkWrite hs t h := by
    have hframe := SameButTrees.ofLinkWrite h
    rw [InputEnded, hframe.host, hframe.inEof]
    exact hs
  mfInit hs := hs
  inReadEof hs h := by
    obtain ⟨hinput, heof⟩ := hs
    cases (inRead_of_inEof heof).symm.trans h
    exact ⟨hinput, heof⟩
  inReadByte hs h := by
    obtain ⟨-, heof⟩ := hs
    cases (inRead_of_inEof heof).symm.trans h
  outWrite hs h := by obtain ⟨_, -, rfl⟩ := outWrite_some.1 h; exact hs

/-- Settles O23: the cases of `InRead`, and the items at the port as what every engine step keeps once IN_EOF is 1. -/
theorem inReadTakesOneItem : Obligations.InReadTakesOneItem := by
  refine ⟨fun _ => inRead_of_inEof, fun s heof hinput => inRead_wait.2 ⟨heof, hinput⟩, ?_, ?_, ?_⟩
  · exact fun s rest heof hinput => inRead_eof.2 (.inr ⟨heof, rest, hinput, rfl⟩)
  · exact fun s b rest heof hinput => inRead_byte.2 ⟨heof, rest, hinput, rfl⟩
  · exact fun s t heof h => engineStep_keeps (inputEnded_engineStable s.host.input) ⟨rfl, heof⟩ h

end Sys2Proof.Machine
end

section
/-! PROOF. O1, O2, O4, O5: the encoder and the decoder (spec/30_encoding.md R111 to R115, R122). The two ways between a
reference's operands and its bytes are inverse, bit by bit; so `takeSegment` reads what `encode` writes, and writes back
what it read. -/

namespace Sys2Proof

/-! The bits of a reference. -/

/-- The mask 0xF0 selects the upper nibble. -/
theorem getLsbD_upperNibble (i : Nat) : (0xF0#8).getLsbD i = (decide (4 ≤ i) && decide (i < 8)) := by
  by_cases hi : i < 8
  · revert i
    decide
  · simp [hi, BitVec.getLsbD_of_ge _ i (not_lt.1 hi)]

/-- POS takes its bits 7:0 from `b1` and its bits 11:8 from the upper nibble of `b2` (R113, R114). -/
theorem getLsbD_posOf (b1 b2 : Byte) (i : Nat) :
    (posOf b1 b2).getLsbD i = if i < 8 then b1.getLsbD i else b2.getLsbD (i - 4) := by
  simp only [posOf, BitVec.getLsbD_or, BitVec.getLsbD_setWidth, BitVec.getLsbD_shiftLeft, BitVec.getLsbD_and,
    getLsbD_upperNibble]
  split
  · next hi =>
    have hlow : ¬ 4 ≤ i - 4 := by omega
    simp [hlow, (by omega : i < 12)]
  · next hi =>
    have hb1 : b1.getLsbD i = false := BitVec.getLsbD_of_ge b1 i (not_lt.1 hi)
    have hb2 : 12 ≤ i → b2.getLsbD (i - 4) = false := fun h => BitVec.getLsbD_of_ge b2 _ (by omega)
    grind

theorem getLsbD_lnOf (b2 : Byte) (i : Nat) : (lnOf b2).getLsbD i = (decide (i < 4) && b2.getLsbD i) :=
  BitVec.getLsbD_setWidth ..

theorem getLsbD_refByte1 (pos : BitVec 12) (i : Nat) :
    (refByte1 pos).getLsbD i = (decide (i < 8) && pos.getLsbD i) :=
  BitVec.getLsbD_setWidth ..

/-- `b2` takes its bits 3:0 from LN and its bits 7:4 from POS 11:8 (R113). -/
theorem getLsbD_refByte2 (pos : BitVec 12) (ln : BitVec 4) (i : Nat) :
    (refByte2 pos ln).getLsbD i = if i < 4 then ln.getLsbD i else pos.getLsbD (i + 4) := by
  simp only [refByte2, BitVec.getLsbD_or, BitVec.getLsbD_setWidth, BitVec.getLsbD_ushiftRight, BitVec.getLsbD_and,
    getLsbD_upperNibble]
  split
  · next hi => simp [not_le.2 hi, (by omega : i < 8)]
  · next hi =>
    have hln : ln.getLsbD i = false := BitVec.getLsbD_of_ge ln i (not_lt.1 hi)
    have hpos : 8 ≤ i → pos.getLsbD (4 + i) = false := fun h => BitVec.getLsbD_of_ge pos _ (by omega)
    grind

@[simp] theorem posOf_refBytes (pos : BitVec 12) (ln : BitVec 4) : posOf (refByte1 pos) (refByte2 pos ln) = pos := by
  refine BitVec.eq_of_getLsbD_eq fun i hi => ?_
  rw [getLsbD_posOf]
  split
  · next hlow => rw [getLsbD_refByte1, decide_eq_true hlow, Bool.true_and]
  · next hhigh => rw [getLsbD_refByte2, if_neg (by omega), Nat.sub_add_cancel (by omega)]

@[simp] theorem lnOf_refByte2 (pos : BitVec 12) (ln : BitVec 4) : lnOf (refByte2 pos ln) = ln := by
  refine BitVec.eq_of_getLsbD_eq fun i hi => ?_
  rw [getLsbD_lnOf, getLsbD_refByte2, if_pos hi, decide_eq_true hi, Bool.true_and]

@[simp] theorem refByte1_posOf (b1 b2 : Byte) : refByte1 (posOf b1 b2) = b1 := by
  refine BitVec.eq_of_getLsbD_eq fun i hi => ?_
  rw [getLsbD_refByte1, getLsbD_posOf, if_pos hi, decide_eq_true hi, Bool.true_and]

@[simp] theorem refByte2_posOf (b1 b2 : Byte) : refByte2 (posOf b1 b2) (lnOf b2) = b2 := by
  refine BitVec.eq_of_getLsbD_eq fun i hi => ?_
  rw [getLsbD_refByte2]
  split
  · next hlow => rw [getLsbD_lnOf, decide_eq_true hlow, Bool.true_and]
  · next hhigh => rw [getLsbD_posOf, if_neg (by omega), Nat.add_sub_cancel]

/-! Segments. -/

/-- The segment that an instruction is encoded as is read back from the front of any bytes. -/
theorem takeSegment_encode {i : Instr} {f : Format} {bytes : List Byte} (h : encode i = .segment f bytes)
    (rest : List Byte) : takeSegment f (bytes ++ rest) = .ok (i, rest) := by
  cases i with
  | ctrl c => cases h; rfl
  | lit b => cases h; rfl
  | ref pos ln => cases h; simp [takeSegment]
  | nop | compress | decompress => cases h

/-- What is read from the front of some bytes is an instruction's segment. -/
theorem encode_of_takeSegment {f : Format} {bytes rest : List Byte} {i : Instr}
    (h : takeSegment f bytes = .ok (i, rest)) : ∃ taken, encode i = .segment f taken ∧ bytes = taken ++ rest := by
  cases f with
  | wCtrl =>
    rcases bytes with _ | ⟨c, bytes⟩ <;> cases h
    exact ⟨[c], rfl, rfl⟩
  | wLit =>
    rcases bytes with _ | ⟨b, bytes⟩ <;> cases h
    exact ⟨[b], rfl, rfl⟩
  | wRef =>
    rcases bytes with _ | ⟨b1, _ | ⟨b2, bytes⟩⟩ <;> cases h
    exact ⟨[b1, b2], by simp [encode], rfl⟩

/-- A segment decodes exactly when its bytes are the whole of one (R118). -/
theorem decode_segment_iff {f : Format} {bytes : List Byte} {i : Instr} :
    decode (.segment f bytes) = .ok i ↔ takeSegment f bytes = .ok (i, []) := by
  rcases h : takeSegment f bytes with e | ⟨j, _ | ⟨b, rest⟩⟩ <;> simp [decode, h]

/-- A command word that decodes is the command's own (R122, R265). -/
theorem encode_of_decodeCommand {v : Word} {i : Instr} (h : decodeCommand v = .ok i) : encode i = .command v := by
  unfold decodeCommand at h
  split at h
  · next hv => cases h; rw [hv]; rfl
  · split at h
    · next hv => cases h; rw [hv]; rfl
    · split at h
      · next hv => cases h; rw [hv]; rfl
      · cases h

theorem decode_encode (i : Instr) : decode (encode i) = .ok i := by
  cases h : encode i with
  | segment f bytes =>
    rw [decode_segment_iff]
    simpa using takeSegment_encode h []
  | command v => cases i <;> cases h <;> rfl

/-- Settles O1: a segment's bytes are read back, with nothing after them; the command words are compared whole. -/
theorem decodeOfEncodeIsTheInstruction : Obligations.DecodeOfEncodeIsTheInstruction :=
  decode_encode

/-- Settles O2: a segment is what `takeSegment` took, and a command word is one of the three. -/
theorem decodedBitsAreTheEncoding : Obligations.DecodedBitsAreTheEncoding := by
  intro x i h
  cases x with
  | segment f bytes =>
    obtain ⟨taken, hi, rfl⟩ := encode_of_takeSegment (decode_segment_iff.1 h)
    rw [hi, List.append_nil]
  | command v => exact encode_of_decodeCommand h

/-- Settles O4: the words are evaluated. -/
theorem sampleWordsDecode : Obligations.SampleWordsDecode :=
  ⟨rfl, rfl, rfl, rfl, rfl, rfl, rfl, rfl⟩

end Sys2Proof

namespace Sys2Proof.Machine

/-! What the encoder packs. -/

theorem packByte1_eq (mpos : Pos) : packByte1 mpos = refByte1 mpos := by
  rw [packByte1, BitVec.ofNat_and, BitVec.ofNat_toNat]
  exact BitVec.and_allOnes

/-- The second byte carries the position's upper bits and, in LN, the length beyond `T + 1` (R115). -/
theorem packByte2_eq {mpos mlen t : Pos} (h : mlen.toNat - t.toNat - 1 < 16) :
    packByte2 mpos mlen t = refByte2 mpos (BitVec.ofNat 4 (mlen.toNat - t.toNat - 1)) := by
  rw [packByte2, refByte2, BitVec.ofNat_or, BitVec.ofNat_and, ← BitVec.toNat_ushiftRight, BitVec.ofNat_toNat,
    BitVec.setWidth_ofNat_of_le_of_lt (by decide) h]

/-- Settles O5: the packed pair is the encoding of the match's position and of its length less `T + 1`. -/
theorem packedMatchIsReadBack : Obligations.PackedMatchIsReadBack := by
  intro mpos mlen t hlong hshort
  refine ⟨BitVec.ofNat 4 (mlen.toNat - t.toNat - 1), ?_, ?_⟩
  · rw [packByte1_eq, packByte2_eq (by omega)]
    exact decode_encode (.ref mpos _)
  · have hlen := mlen.isLt
    rw [copyLast, BitVec.toNat_ofNat, BitVec.toNat_ofNat]
    omega

end Sys2Proof.Machine
end

section
/-! PROOF. O3: a stream of groups (spec/30_encoding.md R110, R111, R118, R119). A token's flag chooses its format, so the
flags of a group read its tokens back in order; the reading of a group stops after 8 tokens or where the bytes end. -/

namespace Sys2Proof

/-! One token. -/

theorem encode_token {t : Instr} (ht : t.isToken = true) :
    encode t = .segment (tokenFormat t.isLiteral) (wireBytes t) := by
  cases t with
  | lit b => rfl
  | ref pos ln => rfl
  | ctrl | nop | compress | decompress => cases ht

theorem takeSegment_token {t : Instr} (ht : t.isToken = true) (rest : List Byte) :
    takeSegment (tokenFormat t.isLiteral) (wireBytes t ++ rest) = .ok (t, rest) :=
  takeSegment_encode (encode_token ht) rest

/-! The tokens of a group. -/

/-- The bits of `control` from `i` on are the tokens' flags, 1 for a literal (R111). -/
def FlagsFrom (control : Byte) (i : Nat) (tokens : List Instr) : Prop :=
  ∀ j t, tokens[j]? = some t → control.getLsbD (i + j) = t.isLiteral

theorem flagsFrom_cons {control : Byte} {i : Nat} {t : Instr} {ts : List Instr} :
    FlagsFrom control i (t :: ts) ↔ control.getLsbD i = t.isLiteral ∧ FlagsFrom control (i + 1) ts := by
  constructor
  · refine fun h => ⟨h 0 t rfl, fun j u hu => ?_⟩
    rw [Nat.add_right_comm]
    exact h (j + 1) u hu
  · rintro ⟨ht, hts⟩ (_ | j) u hu
    · cases hu; exact ht
    · rw [← Nat.add_assoc, Nat.add_right_comm]
      exact hts j u hu

/-- No segment begins where the bytes have ended (R119). -/
theorem takeTokens_nil (control : Byte) (n i : Nat) : takeTokens control n i [] = ([], []) := by
  cases n with
  | zero => rfl
  | succ n =>
    unfold takeTokens
    cases control.getLsbD i <;> rfl

/-- Tokens that fill the `n` flags, or end with the bytes, are read back in order. -/
theorem takeTokens_wireBytes {control : Byte} {n i : Nat} {tokens : List Instr} {rest : List Byte}
    (htokens : ∀ t ∈ tokens, t.isToken = true) (hflags : FlagsFrom control i tokens) (hn : tokens.length ≤ n)
    (hend : tokens.length = n ∨ rest = []) :
    takeTokens control n i (tokens.flatMap wireBytes ++ rest) = (tokens, rest) := by
  induction tokens generalizing n i with
  | nil =>
    obtain rfl | rfl := hend
    · rfl
    · exact takeTokens_nil control n i
  | cons t ts ih =>
    obtain ⟨m, rfl⟩ := Nat.exists_eq_add_one.2 (Nat.zero_lt_of_lt hn)
    obtain ⟨ht, hts⟩ := List.forall_mem_cons.1 htokens
    obtain ⟨hflag, hflags⟩ := flagsFrom_cons.1 hflags
    have hrest := ih hts hflags (by simpa using hn) (by simpa using hend)
    rw [takeTokens, hflag, List.flatMap_cons, List.append_assoc, takeSegment_token ht]
    simp only [hrest]

/-! The stream. -/

/-- What the check of a group says (R111, R118). -/
theorem Group.wellFormed_iff {g : Group} : g.wellFormed = true ↔
    1 ≤ g.tokens.length ∧ g.tokens.length ≤ 8 ∧ (∀ t ∈ g.tokens, t.isToken = true) ∧
    ∀ i < 8, g.control.getLsbD i = Group.flagOf g.tokens i := by
  simp [Group.wellFormed, and_assoc]

theorem Group.flagsFrom {g : Group} (hg : g.wellFormed = true) : FlagsFrom g.control 0 g.tokens := by
  obtain ⟨-, hlen, -, hflags⟩ := Group.wellFormed_iff.1 hg
  intro j t ht
  have hj : j < g.tokens.length := (List.getElem?_eq_some_iff.1 ht).1
  rw [Nat.zero_add, hflags j (by omega), Group.flagOf, ht]

/-- A well-formed group with 8 tokens, or at the end of the bytes, is read back. -/
theorem streamTokens_group {g : Group} (fuel : Nat) {rest : List Byte} (hg : g.wellFormed = true)
    (hend : g.tokens.length = 8 ∨ rest = []) :
    streamTokens (fuel + 1) (groupBytes g ++ rest) = g.tokens ++ streamTokens fuel rest := by
  obtain ⟨-, hlen, htokens, -⟩ := Group.wellFormed_iff.1 hg
  rw [groupBytes, List.cons_append, streamTokens, takeTokens_wireBytes htokens (Group.flagsFrom hg) hlen hend]

/-- Settles O3, by induction on the groups: one with another after it is not the last, so it has 8 tokens. -/
theorem streamOfGroupsDecodesToItsTokens : Obligations.StreamOfGroupsDecodesToItsTokens := by
  intro gs fuel hwf hfull hfuel
  induction gs generalizing fuel with
  | nil => cases fuel <;> rfl
  | cons g gs ih =>
    obtain ⟨n, rfl⟩ := Nat.exists_eq_add_one.2 (Nat.zero_lt_of_lt hfuel)
    obtain ⟨hg, hgs⟩ := List.forall_mem_cons.1 hwf
    obtain ⟨hend, hrest⟩ : (g.tokens.length = 8 ∨ gs.flatMap groupBytes = []) ∧
        ∀ g' ∈ gs.dropLast, g'.tokens.length = 8 := by
      cases gs with
      | nil => exact ⟨.inr rfl, fun _ h => absurd h List.not_mem_nil⟩
      | cons g' gs =>
        obtain ⟨hlength, hrest⟩ := List.forall_mem_cons.1 hfull
        exact ⟨.inl hlength, hrest⟩
    rw [List.flatMap_cons, streamTokens_group n hg hend, ih n hgs hrest (by simpa using hfuel), List.flatMap_cons]

end Sys2Proof
end

section
/-! PROOF. O57: the segment latch (spec/30_encoding.md R118, log 5). Only a `fetchByte` at a label that reads a segment adds
to the latch, and only while the segment is not whole; every other operation leaves the latch or empties it. -/

namespace Sys2Proof.Machine

section

variable {s t : State}

/-! The invariant at a label. -/

theorem segmentInv_of_empty (h : s.seg = []) : s.SegmentInv := by
  simp [State.SegmentInv, h]

/-- A label that reads a segment has room for its bytes. -/
theorem segmentInv_iff_of_some {f : Format} (hf : segmentFormat s.seq = some f) :
    s.SegmentInv ↔ s.seg.length ≤ f.length := by
  simp [State.SegmentInv, hf]

/-- A label that reads none has an empty latch. -/
theorem segmentInv_iff_of_none (hf : segmentFormat s.seq = none) : s.SegmentInv ↔ s.seg = [] := by
  simp [State.SegmentInv, hf]

/-! The labels that leave the latch alone. -/

theorem eLoadEnd_seg (s : State) : (eLoadEnd s).seg = s.seg := by
  obtain h | h := eLoadEnd_cases s <;> rw [h] <;> rfl

theorem eLoad_seg (h : eLoad s = .ok t) : t.seg = s.seg := by
  obtain ⟨-, rfl⟩ | ⟨-, ⟨-, rfl⟩ | ⟨u, hi, rfl⟩ | ⟨c, u, v, hi, hw, rfl⟩⟩ := eLoad_cases h
  · exact eLoadEnd_seg s
  · rfl
  · obtain ⟨_, _, rfl⟩ := inRead_eof_frame hi
    exact eLoadEnd_seg _
  · obtain ⟨_, _, rfl⟩ := inRead_byte_frame hi
    obtain ⟨-, -, rfl⟩ := winSetMirror_ok hw
    rfl

theorem eAdv_seg (h : eAdv s = .ok t) : t.seg = s.seg := by
  obtain ⟨-, rfl⟩ | ⟨-, ⟨-, rfl⟩ | ⟨u, hi, rfl⟩ | ⟨c, u, v, w, x, hi, hremove, hw, hinsert, rfl⟩⟩ := eAdv_cases h
  · rfl
  · rfl
  · obtain ⟨_, _, rfl⟩ := inRead_eof_frame hi
    rfl
  · obtain ⟨_, _, rfl⟩ := inRead_byte_frame hi
    obtain ⟨-, -, rfl⟩ := winSetMirror_ok hw
    exact (mfInsert_frame hinsert).seg.trans (mfRemove_frame hremove).1.seg

theorem eDrain_seg (h : eDrain s = .ok t) : t.seg = s.seg := by
  obtain ⟨-, rfl⟩ | ⟨-, v, hremove, hend⟩ := eDrain_cases h
  · rfl
  · have hv : v.seg = s.seg := (mfRemove_frame hremove).1.seg
    obtain ⟨-, rfl⟩ | ⟨-, hinsert⟩ := hend
    · exact hv
    · exact (mfInsert_frame hinsert).seg.trans hv

theorem outputGroupByte_seg (h : outputGroupByte s = .ok t) : t.seg = s.seg := by
  obtain ⟨_, _, _, rfl⟩ := outputGroupByte_frame h
  rfl

/-- At a label that reads no segment the latch stands, or the session ends and empties it. -/
theorem microStep_seg (hf : segmentFormat s.seq = none) (h : microStep s = .ok t) : t.seg = s.seg ∨ t.seg = [] := by
  cases hq : s.seq <;> rw [hq] at hf <;> simp only [microStep, hq] at h
  case idle => cases h; exact .inl rfl
  case eStart => cases h; exact .inl rfl
  case eLoad => exact .inl (eLoad_seg h)
  case ePrime =>
    obtain ⟨u, v, hu, hv, rfl⟩ := ePrime_cases h
    exact .inl ((insertEach_frame hu).trans (mfInsert_frame hv)).seg
  case eToken =>
    obtain ⟨_, _, _, _, -, rfl⟩ := eToken_frame h
    exact .inl rfl
  case eFlush =>
    obtain ⟨-, h⟩ | ⟨-, rfl⟩ := eFlush_cases h
    · exact .inl (outputGroupByte_seg h)
    · exact .inl rfl
  case eAdv => exact .inl (eAdv_seg h)
  case eDrain => exact .inl (eDrain_seg h)
  case eLoop =>
    cases h
    obtain h | h := eLoop_cases s <;> rw [h] <;> exact .inl rfl
  case eFinal =>
    obtain ⟨-, h⟩ | ⟨-, rfl⟩ := eFinal_cases h
    · exact .inl (outputGroupByte_seg h)
    · exact .inr rfl
  case dStart => cases h; exact .inl rfl
  case dNext => cases h; exact .inl rfl
  case dCtrl | dLit | dRef => cases hf
  case dCopy => obtain rfl | rfl | ⟨_, _, _, _, rfl⟩ := dCopy_frame h <;> exact .inl rfl

/-! The labels that read a segment. -/

theorem latchByte_seg (f : Format) (b : Byte) (s : State) : (latchByte f b s).seg = s.seg ++ [b] := rfl

/-- A byte goes into the latch of a segment that is not whole. -/
theorem fetchByte_segmentInv {f : Format} (hf : segmentFormat s.seq = some f) (hlen : s.seg.length < f.length) :
    (fetchByte f s).SegmentInv := by
  obtain ⟨-, h⟩ | ⟨u, -, h⟩ | ⟨b, u, hi, h⟩ := fetchByte_cases f s <;> rw [h]
  · exact (segmentInv_iff_of_some hf).2 hlen.le
  · exact segmentInv_of_empty rfl
  · obtain ⟨_, _, rfl⟩ := inRead_byte_frame hi
    refine (segmentInv_iff_of_some (s := latchByte f b _) hf).2 ?_
    rw [latchByte_seg, List.length_append]
    exact hlen

/-- Such a label's micro-operation is one `InRead` of its segment. -/
theorem microStep_of_format {f : Format} (hf : segmentFormat s.seq = some f) :
    microStep s = .ok (fetchByte f s) := by
  cases hq : s.seq <;> rw [hq] at hf <;> cases hf <;> simp only [microStep, hq]

theorem microStep_segmentInv (hs : s.SegmentInv) (hn : fetched s = none) (h : microStep s = .ok t) : t.SegmentInv := by
  cases hf : segmentFormat s.seq with
  | none =>
    rw [segmentInv_iff_of_none hf] at hs
    obtain hseg | hseg := microStep_seg hf h
    · exact segmentInv_of_empty (hseg.trans hs)
    · exact segmentInv_of_empty hseg
  | some f =>
    cases (microStep_of_format hf).symm.trans h
    exact fetchByte_segmentInv hf (seg_length_of_not_fetched hf hn)

theorem engineStep_segmentInv (hs : s.SegmentInv) (h : engineStep s = .next t) : t.SegmentInv := by
  obtain ⟨c, -, -, h⟩ | ⟨b, -, -, h⟩ | ⟨b1, b2, -, -, h⟩ | ⟨hn, h⟩ := engineStep_cases h
  · cases h
    exact segmentInv_of_empty rfl
  · obtain rfl | ⟨_, _, _, _, rfl⟩ := execLit_frame h
    · exact hs
    · exact segmentInv_of_empty rfl
  · cases h
    exact segmentInv_of_empty rfl
  · exact microStep_segmentInv hs hn h

theorem commandWrite_segmentInv (v : Word) (s : State) (hs : s.SegmentInv) : (commandWrite v s).SegmentInv :=
  commandWrite_keeps (fun _ _ hs => hs) (fun _ _ _ => segmentInv_of_empty rfl) v s hs

end

/-! No malformed segment. -/

/-- An operation that does not stop at the latch. -/
def NeverMalformed {α : Type} (x : Except Fault α) : Prop :=
  x ≠ .error .segmentMalformed

section

variable {α β : Type}

theorem OnlyTreeFaults.neverMalformed {x : Except Fault α} (h : OnlyTreeFaults x) : NeverMalformed x :=
  fun hx => absurd (h _ hx) (by decide)

@[simp] theorem neverMalformed_ok (a : α) : NeverMalformed (.ok a) :=
  fun h => by cases h

@[simp] theorem neverMalformed_bind (x : Except Fault α) (f : α → Except Fault β) :
    NeverMalformed (x >>= f) ↔ NeverMalformed x ∧ ∀ a, x = .ok a → NeverMalformed (f a) := by
  cases x <;> simp [NeverMalformed, bind, Except.bind]

@[simp] theorem neverMalformed_ite (p : Prop) {_ : Decidable p} (x y : Except Fault α) :
    NeverMalformed (if p then x else y) ↔ (p → NeverMalformed x) ∧ (¬ p → NeverMalformed y) := by
  split <;> simp_all

end

section

variable (s : State)

@[simp] theorem groupRead_neverMalformed (i : Nat) : NeverMalformed (groupRead s i) := by
  unfold groupRead
  split <;> simp [NeverMalformed]

@[simp] theorem groupWrite_neverMalformed (i : Nat) (v : Byte) : NeverMalformed (groupWrite s i v) := by
  unfold groupWrite
  split <;> simp [NeverMalformed]

@[simp] theorem outputGroupByte_neverMalformed : NeverMalformed (outputGroupByte s) := by
  simp only [outputGroupByte, neverMalformed_bind, groupRead_neverMalformed, true_and]
  intro b _
  cases outWrite b s <;> exact neverMalformed_ok _

theorem eToken_neverMalformed : NeverMalformed (eToken s) := by
  have hread (u : State) (i : Nat) : NeverMalformed (winGetLin u i) := (winGetLin_faults u i).neverMalformed
  simp [eToken, packToken, packLiteral, packReference, hread]

theorem microStep_neverMalformed : NeverMalformed (microStep s) := by
  cases hq : s.seq <;> simp only [microStep, hq]
  case eLoad => exact (eLoad_faults s).neverMalformed
  case ePrime => exact (ePrime_faults s).neverMalformed
  case eToken => exact eToken_neverMalformed s
  case eFlush => simp [eFlush]
  case eAdv => exact (eAdv_faults s).neverMalformed
  case eDrain => exact (eDrain_faults s).neverMalformed
  case eFinal => simp [eFinal]
  case dCopy => exact (dCopy_faults s).neverMalformed
  all_goals exact neverMalformed_ok _

end

theorem outcomeOf_eq_fault {x : Except Fault State} {e : Fault} : outcomeOf x = .fault e ↔ x = .error e := by
  cases x <;> simp [outcomeOf]

/-- Every byte sequence of a segment's length decodes (R118, R120). -/
theorem decode_segment_of_length {f : Format} {bytes : List Byte} (h : bytes.length = f.length) :
    ∃ i, decode (.segment f bytes) = .ok i := by
  cases f with
  | wCtrl =>
    obtain ⟨c, rfl⟩ := List.length_eq_one_iff.1 h
    exact ⟨_, rfl⟩
  | wLit =>
    obtain ⟨b, rfl⟩ := List.length_eq_one_iff.1 h
    exact ⟨_, rfl⟩
  | wRef =>
    obtain ⟨b1, b2, rfl⟩ := List.length_eq_two.1 h
    exact ⟨_, rfl⟩

/-- A token or a control byte does not stop at the latch. -/
theorem exec_ne_segmentMalformed {f : Format} {bytes : List Byte} {i : Instr} (s : State)
    (hi : decode (.segment f bytes) = .ok i) : exec i s ≠ .fault .segmentMalformed := by
  obtain ⟨c, rfl⟩ | ⟨b, rfl⟩ | ⟨pos, ln, rfl⟩ := decode_segment_ok hi
  · exact fun h => by cases h
  · exact fun h => (emitByte_faults s b _).neverMalformed (outcomeOf_eq_fault.1 h)
  · exact fun h => by cases h

/-- A latch within its segment holds the whole of it when the engine runs it. -/
theorem engineStep_ne_segmentMalformed {s : State} (hs : s.SegmentInv) :
    engineStep s ≠ .fault .segmentMalformed := by
  cases hx : fetched s with
  | none =>
    simp only [engineStep, hx]
    exact fun h => microStep_neverMalformed s (outcomeOf_eq_fault.1 h)
  | some x =>
    obtain ⟨f, hf, hlen, rfl⟩ := fetched_some hx
    obtain ⟨i, hi⟩ := decode_segment_of_length (((segmentInv_iff_of_some hf).1 hs).antisymm hlen)
    rw [engineStep_of_decode hx hi]
    exact exec_ne_segmentMalformed s hi

/-- Settles O57: a byte is latched only into a segment that is not whole, so that a whole one decodes. -/
theorem latchHoldsAtMostASegment : Obligations.LatchHoldsAtMostASegment :=
  ⟨fun _ _ => step_keeps (fun _ _ _ hs => hs) commandWrite_segmentInv (segmentInv_of_empty rfl) fun _ _ =>
    engineStep_segmentInv, fun _ => engineStep_ne_segmentMalformed⟩

end Sys2Proof.Machine
end

section
/-! PROOF. O35 and O36: the accesses of the window in a legal session (spec/40_window.md R142 to R144). The mask is the
remainder modulo `N`, for `N` is a power of two. -/

namespace Sys2Proof.Machine

section

variable {p : Session} {s : State} {a i : Nat} {c : Byte}

theorem Session.wrap_eq_mod (hp : p.valid = true) (x : Nat) : p.wrap x = x % p.n.toNat := by
  obtain ⟨⟨hn, -⟩, hpow, -⟩ := Session.valid_iff.1 hp
  obtain ⟨k, hk⟩ := (Nat.and_sub_one_eq_zero_iff_isPowerOfTwo (by omega)).1 hpow
  rw [Session.wrap, Session.mask, hk, Nat.and_two_pow_sub_one_eq_mod]

theorem Session.wrap_lt (hp : p.valid = true) (x : Nat) : p.wrap x < p.n.toNat := by
  obtain ⟨⟨hn, -⟩, -⟩ := Session.valid_iff.1 hp
  rw [Session.wrap_eq_mod hp]
  exact Nat.mod_lt x (by omega)

/-- A position of the window is a cell of WIN. -/
theorem Session.lt_winSize (h : i < p.n.toNat) : i < p.winSize :=
  Nat.lt_add_right _ h

/-- So is the copy of a position below `F - 1`. -/
theorem Session.add_n_lt_winSize (h : a < p.f.toNat - 1) : a + p.n.toNat < p.winSize := by
  unfold Session.winSize
  omega

/-- So is every byte of a position's key, which is `F` bytes long. -/
theorem Session.key_lt_winSize {j : Nat} (hi : i < p.n.toNat) (hj : j < p.f.toNat) : i + j < p.winSize := by
  unfold Session.winSize
  omega

theorem winSetCirc_completes (hs : s.SessionInv) :
    winSetCirc s a c = .ok (s.withWin (Memory.write s.win (s.par.wrap a) c)) :=
  winWrite_ok.2 ⟨Session.lt_winSize (Session.wrap_lt hs a), rfl⟩

theorem winSetMirror_completes (ha : a < s.par.n.toNat) (hkey : keyFree s a = true) :
    winSetMirror s a c = .ok (s.withWin (if a < s.par.f.toNat - 1 then
      Memory.write (Memory.write s.win a c) (a + s.par.n.toNat) c else Memory.write s.win a c)) := by
  unfold winSetMirror
  rw [if_neg (not_le.2 ha), if_pos hkey]
  refine bind_ok.2 ⟨_, winWrite_ok.2 ⟨Session.lt_winSize ha, rfl⟩, ?_⟩
  by_cases hf : a < s.par.f.toNat - 1
  · rw [if_pos hf]
    exact (if_pos hf).trans (winWrite_ok.2 ⟨Session.add_n_lt_winSize hf, rfl⟩)
  · rw [if_neg hf]
    exact if_neg hf

end

/-- Settles O36: the mask is the remainder modulo `N`, which is a position of the window. -/
theorem maskedAccessIsModuloN : Obligations.MaskedAccessIsModuloN := by
  intro s i c hs
  have hmod := Session.wrap_eq_mod hs i
  refine ⟨congrArg (winRead s) hmod, _, winSetCirc_completes hs, rfl, fun a => ?_⟩
  rw [hmod]
  exact Memory.read_write s.win _ a c

/-- Settles O35: the two writes do not overlap, `N` not being 0. -/
theorem mirroredWriteKeepsTheCopy : Obligations.MirroredWriteKeepsTheCopy := by
  intro s a c hs ha hkey
  obtain ⟨⟨hn, -⟩, -⟩ := Session.valid_iff.1 hs
  have hcopy : a ≠ a + s.par.n.toNat := by omega
  refine ⟨_, winSetMirror_completes ha hkey, rfl, ?_⟩
  rw [State.withWin_win]
  by_cases hf : a < s.par.f.toNat - 1
  · rw [if_pos hf]
    refine ⟨?_, fun _ => Memory.read_write_same _ _ c, fun i hi hi' => ?_⟩
    · rw [Memory.read_write_other _ c hcopy, Memory.read_write_same]
    · rw [Memory.read_write_other _ c fun h => hi' ⟨h, hf⟩, Memory.read_write_other _ c hi]
  · rw [if_neg hf]
    exact ⟨Memory.read_write_same _ a c, fun h => absurd h hf, fun i hi _ => Memory.read_write_other _ c hi⟩

end Sys2Proof.Machine
end

section
/-! PROOF. O39: the window of a running session (spec/40_window.md R140, spec/10_state.md R66). WIN_FILL writes every
cell, and no operation takes one away. -/

namespace Sys2Proof.Machine

/-- Every cell of the window and its tail holds a value. -/
def WindowWritten (s : State) : Prop :=
  ∀ i < s.par.winSize, (Memory.read s.win i).isSome = true

theorem WindowWritten.congr {s t : State} (hs : WindowWritten s) (hpar : t.par = s.par) (hwin : t.win = s.win) :
    WindowWritten t := by
  rw [WindowWritten, hpar, hwin]
  exact hs

theorem winWrite_windowWritten {s : State} {i : Nat} {v : Byte} (hs : WindowWritten s) :
    Answers WindowWritten (winWrite s i v) := by
  intro t h a ha
  obtain ⟨-, rfl⟩ := winWrite_ok.1 h
  rw [State.withWin_win, Memory.read_write]
  split
  · rfl
  · exact hs a ha

theorem windowWritten_engineStable : EngineStable WindowWritten where
  registers hs h := by rw [h]; exact hs
  winWrite := winWrite_windowWritten
  linkWrite hs _ h := hs.congr (SameButTrees.ofLinkWrite h).par (SameButTrees.ofLinkWrite h).win
  mfInit hs := hs
  inReadEof hs h := by obtain ⟨_, _, rfl⟩ := inRead_eof_frame h; exact hs
  inReadByte hs h := by obtain ⟨_, _, rfl⟩ := inRead_byte_frame h; exact hs
  outWrite hs h := by obtain ⟨_, -, rfl⟩ := outWrite_some.1 h; exact hs

theorem startSession_windowWritten (mode : Mode) (s : State) : WindowWritten (startSession mode s) :=
  fun _ ha => Option.isSome_of_eq_some (read_startSession mode s ha)

/-- No engine step starts a session. -/
theorem SessionMove.idle {s t : State} (h : SessionMove s t) (hs : s.seq = .idle) : t.seq = .idle := by
  cases h with
  | runs h => exact Seq.mode_eq_none.1 (h.mode.trans (Seq.mode_eq_none.2 hs))
  | ends _ _ hseq _ _ _ => exact absurd hs hseq

theorem engineStep_windowInv {s t : State} (hs : s.WindowInv) (h : engineStep s = .next t) : t.WindowInv := by
  obtain hidle | hwritten := hs
  · exact .inl ((engineStep_move h).idle hidle)
  · exact .inr (engineStep_keeps windowWritten_engineStable hwritten h)

/-- Settles O39: a start fills the window, and the engine only adds to it. -/
theorem windowStaysWritten : Obligations.WindowStaysWritten :=
  fun _ _ => step_keeps (fun _ _ _ hs => hs)
    (commandWrite_keeps (fun _ _ hs => hs) fun mode s _ => .inr (startSession_windowWritten mode s)) (.inl rfl)
    fun _ _ => engineStep_windowInv

end Sys2Proof.Machine
end

section
/-! PROOF. O38: no window access stops the engine (spec/40_window.md R145, spec/60_exceptions.md R287). The links and
the group buffer have faults of their own. A comparison of the match finder reads two keys, that of the inserted position
and that of a node, which is a position because the child links are positions or NIL; the other accesses are at a cursor
or reduced by the mask. -/

namespace Sys2Proof.Machine

/-- The faults of a window access. -/
def Fault.ofWindow : Fault → Bool
  | .windowIndex | .windowUnwritten => true
  | .treeIndex | .treeUnwritten | .insertPresent | .tailBroken | .keyStability | .treeCycle | .groupIndex
  | .segmentMalformed => false

/-- An operation that does not stop at a window access. -/
def NoWindowStop {α : Type} (x : Except Fault α) : Prop :=
  ∀ e, x = .error e → e.ofWindow = false

section

variable {α β : Type}

@[simp] theorem noWindowStop_ok (a : α) : NoWindowStop (.ok a) :=
  fun _ h => by cases h

@[simp] theorem noWindowStop_error (e : Fault) : NoWindowStop (α := α) (.error e) ↔ e.ofWindow = false :=
  ⟨fun h => h e rfl, fun h _ he => by cases he; exact h⟩

@[simp] theorem noWindowStop_bind (x : Except Fault α) (f : α → Except Fault β) :
    NoWindowStop (x >>= f) ↔ NoWindowStop x ∧ ∀ a, x = .ok a → NoWindowStop (f a) := by
  cases x <;> simp [bind, Except.bind]

@[simp] theorem noWindowStop_ite (p : Prop) {_ : Decidable p} (x y : Except Fault α) :
    NoWindowStop (if p then x else y) ↔ (p → NoWindowStop x) ∧ (¬ p → NoWindowStop y) := by
  split <;> simp_all

end

section

variable (s : State)

/-! What does not reach the window. -/

@[simp] theorem linkRead_noWindowStop (k : Link) (i : Nat) : NoWindowStop (linkRead k s i) := by
  unfold linkRead
  cases Memory.read (s.links k) i <;> simp [Fault.ofWindow]

@[simp] theorem linkWrite_noWindowStop (k : Link) (i v : Nat) : NoWindowStop (linkWrite k s i v) := by
  simp [linkWrite, Fault.ofWindow]

@[simp] theorem mfReplace_noWindowStop (r : Nat) : NoWindowStop (mfReplace r s) := by
  simp [mfReplace]

@[simp] theorem mfInsertCheck_noWindowStop (r : Nat) : NoWindowStop (mfInsertCheck r s) := by
  simp [mfInsertCheck, Fault.ofWindow]

@[simp] theorem mfRightmost_noWindowStop (fuel : Nat) : NoWindowStop (mfRightmost fuel s) := by
  induction fuel generalizing s with
  | zero => simp [mfRightmost, Fault.ofWindow]
  | succ n ih => simp [mfRightmost, ih]

@[simp] theorem mfTwoChildren_noWindowStop (p : Nat) : NoWindowStop (mfTwoChildren p s) := by
  simp [mfTwoChildren, mfUnlink, mfPredecessor]

@[simp] theorem mfRemove_noWindowStop (p : Nat) : NoWindowStop (mfRemove p s) := by
  simp [mfRemove, mfSuccessor, mfSplice, Fault.ofWindow]

@[simp] theorem groupRead_noWindowStop (i : Nat) : NoWindowStop (groupRead s i) := by
  unfold groupRead
  split <;> simp [Fault.ofWindow]

@[simp] theorem groupWrite_noWindowStop (i : Nat) (v : Byte) : NoWindowStop (groupWrite s i v) := by
  unfold groupWrite
  split <;> simp [Fault.ofWindow]

@[simp] theorem outputGroupByte_noWindowStop : NoWindowStop (outputGroupByte s) := by
  simp only [outputGroupByte, noWindowStop_bind, groupRead_noWindowStop, true_and]
  intro b _
  cases outWrite b s <;> exact noWindowStop_ok _

end

section

variable {s t : State} {r i : Nat}

/-! The accesses. -/

theorem winRead_noWindowStop (hs : WindowWritten s) (hi : i < s.par.winSize) : NoWindowStop (winRead s i) := by
  obtain ⟨v, hv⟩ := Option.isSome_iff_exists.1 (hs i hi)
  rw [winRead_ok.2 ⟨hi, hv⟩]
  exact noWindowStop_ok v

theorem winSetMirror_noWindowStop {a : Nat} (ha : a < s.par.n.toNat) (c : Byte) :
    NoWindowStop (winSetMirror s a c) := by
  by_cases hkey : keyFree s a = true
  · rw [winSetMirror_completes ha hkey]
    exact noWindowStop_ok _
  · simp [winSetMirror, hkey, not_le.2 ha, Fault.ofWindow]

/-- A byte of output is written at a masked position. -/
theorem emitByte_noWindowStop (hv : s.SessionInv) (c : Byte) (after : State → State) :
    NoWindowStop (emitByte c after s) := by
  have hi : s.par.wrap s.dec.wr.toNat < s.par.winSize := Session.lt_winSize (Session.wrap_lt hv _)
  cases hcredit : s.host.credit with
  | zero =>
    unfold emitByte
    rw [outWrite_none.2 hcredit]
    exact noWindowStop_ok s
  | succ n =>
    rw [emitByte_completes hcredit hi]
    exact noWindowStop_ok _

theorem dCopy_noWindowStop (hv : s.SessionInv) (hw : WindowWritten s) : NoWindowStop (dCopy s) := by
  have hread (x : Nat) : NoWindowStop (winGetCirc s x) :=
    winRead_noWindowStop hw (Session.lt_winSize (Session.wrap_lt hv x))
  simp [dCopy, hread, emitByte_noWindowStop hv]

/-! MF_INSERT. -/

/-- Two keys are compared within the window and its tail. -/
theorem mfCompare_noWindowStop {fuel : Nat} (hw : WindowWritten s) (hr : r < s.par.n.toNat)
    (hp : s.walk.p.toNat < s.par.n.toNat) : NoWindowStop (mfCompare fuel r s) := by
  induction fuel generalizing s with
  | zero => exact noWindowStop_ok s
  | succ n ih =>
    have hread {q : Nat} (hq : q < s.par.n.toNat) (hj : s.walk.j.toNat < s.par.f.toNat) :
        NoWindowStop (winGetLin s (q + s.walk.j.toNat)) :=
      winRead_noWindowStop hw (Session.key_lt_winSize hq hj)
    simp only [mfCompare, noWindowStop_ite, noWindowStop_bind, noWindowStop_ok, implies_true, and_true, true_and]
    exact fun hj => ⟨hread hr hj, fun a _ => ⟨hread hp hj, fun b _ _ => ih hw hr hp⟩⟩

theorem mfMeasure_noWindowStop (hw : WindowWritten s) (hr : r < s.par.n.toNat) (hp : s.walk.p.toNat < s.par.n.toNat) :
    NoWindowStop (mfMeasure r s) := by
  have hcompare := mfCompare_noWindowStop (s := setJ s 1) (fuel := s.par.f.toNat) hw hr hp
  simp [mfMeasure, hcompare]

/-- What a walk down a tree needs: the window is written and every child link is a position or NIL. -/
structure SearchReady (s : State) : Prop where
  written : WindowWritten s
  children : ChildrenBounded s.par.nil s

theorem mfMeasure_searchReady (hs : SearchReady s) (h : mfMeasure r s = .ok t) : SearchReady t := by
  refine ⟨mfMeasure_keeps windowWritten_engineStable hs.written r t h, ?_⟩
  rw [(mfMeasure_frame h).par]
  exact mfMeasure_bounded hs.children h

/-- A child link that is not NIL leads to a position, whose key may be compared. -/
theorem mfWalk_noWindowStop {fuel : Nat} (hs : SearchReady s) (hr : r < s.par.n.toNat) :
    NoWindowStop (mfWalk fuel r s) := by
  induction fuel generalizing s with
  | zero => simp [mfWalk, Fault.ofWindow]
  | succ n ih =>
    simp only [mfWalk, noWindowStop_bind, noWindowStop_ite, linkRead_noWindowStop, linkWrite_noWindowStop,
      mfReplace_noWindowStop, implies_true, and_true, true_and]
    intro next hnext hnil
    have hbound : next ≤ s.par.nil := linkRead_bounded hs.children (by split <;> decide) hnext
    have hp : (setP s next).walk.p.toNat < s.par.n.toNat :=
      (BitVec.toNat_ofNat next 13 ▸ Nat.mod_le next _ :).trans_lt (hbound.lt_of_ne hnil)
    have hready : SearchReady (setP s next) := ⟨hs.written, hs.children⟩
    refine ⟨mfMeasure_noWindowStop hready.written hr hp, fun u hu _ => ih (mfMeasure_searchReady hready hu) ?_⟩
    rw [(mfMeasure_frame hu).par]
    exact hr

theorem searchReady_linkWrite {k : Link} {v : Nat} (hs : SearchReady s) (hv : v ≤ s.par.nil)
    (h : linkWrite k s i v = .ok t) : SearchReady t := by
  refine ⟨windowWritten_engineStable.linkWrite hs.written t h, ?_⟩
  rw [(SameButTrees.ofLinkWrite h).par]
  exact childrenBounded_linkWrite hs.children (fun _ => hv) h

/-- MF_INSERT refuses what is not a position before it reads the window. -/
theorem mfInsert_noWindowStop (hs : SearchReady s) (r : Nat) : NoWindowStop (mfInsert r s) := by
  simp only [mfInsert, noWindowStop_bind, mfInsertCheck_noWindowStop, linkWrite_noWindowStop, true_and]
  intro _ hcheck
  obtain ⟨hr, -, -⟩ := mfInsertCheck_ok.1 hcheck
  refine ⟨winRead_noWindowStop hs.written (Session.lt_winSize hr), fun c _ u hu v hv => ?_⟩
  have hstart : SearchReady (setP (setCmp s 1) (s.par.root c)) := ⟨hs.written, hs.children⟩
  have hready : SearchReady v := searchReady_linkWrite (searchReady_linkWrite hstart le_rfl hu) le_rfl hv
  have hpar : v.par = s.par := (SameButTrees.ofLinkWrite hv).par.trans (SameButTrees.ofLinkWrite hu).par
  have hfound : SearchReady (v.withFound { v.found with mlen := 0 }) := ⟨hready.written, hready.children⟩
  refine mfWalk_noWindowStop hfound ?_
  rw [State.withFound_par, hpar]
  exact hr

theorem mfInsert_searchReady (hs : SearchReady s) (h : mfInsert r s = .ok t) : SearchReady t :=
  ⟨mfInsert_keeps windowWritten_engineStable hs.written r t h, mfInsert_childrenBounded hs.children h⟩

theorem insertEach_searchReady {rs : List Nat} (hs : SearchReady s) (h : insertEach rs s = .ok t) : SearchReady t := by
  refine ⟨insertEach_keeps windowWritten_engineStable hs.written rs t h, ?_⟩
  rw [(insertEach_frame h).par]
  exact insertEach_bounded hs.children h

theorem insertEach_noWindowStop {rs : List Nat} (hs : SearchReady s) : NoWindowStop (insertEach rs s) := by
  induction rs generalizing s with
  | nil => exact noWindowStop_ok s
  | cons r rs ih =>
    rw [insertEach, noWindowStop_bind]
    exact ⟨mfInsert_noWindowStop hs r, fun u hu => ih (mfInsert_searchReady hs hu)⟩

theorem mfRemove_searchReady {p : Nat} (hs : SearchReady s) (h : mfRemove p s = .ok t) : SearchReady t :=
  ⟨mfRemove_keeps windowWritten_engineStable hs.written p t h, mfRemove_childrenBounded hs.children h⟩

theorem winSetMirror_searchReady {a : Nat} {c : Byte} (hs : SearchReady s) (h : winSetMirror s a c = .ok t) :
    SearchReady t := by
  refine ⟨winSetMirror_keeps windowWritten_engineStable hs.written a c t h, ?_⟩
  obtain ⟨-, -, rfl⟩ := winSetMirror_ok h
  exact hs.children

/-! The labels. -/

theorem eLoad_noWindowStop (hv : s.SessionInv) : NoWindowStop (eLoad s) := by
  unfold eLoad
  rw [noWindowStop_ite]
  refine ⟨fun _ => ?_, fun _ => noWindowStop_ok _⟩
  cases hi : inRead s with
  | wait => exact noWindowStop_ok _
  | eof u => exact noWindowStop_ok _
  | byte c u =>
    obtain ⟨host, inCount, rfl⟩ := inRead_byte_frame hi
    simp only [noWindowStop_bind, noWindowStop_ok, implies_true, and_true]
    exact winSetMirror_noWindowStop (s := (s.withHost host).withInCount inCount) (Session.wrap_lt hv _) c

theorem ePrime_noWindowStop (hs : SearchReady s) : NoWindowStop (ePrime s) := by
  simp only [ePrime, noWindowStop_bind, noWindowStop_ok, implies_true, and_true]
  exact ⟨insertEach_noWindowStop hs, fun u hu => mfInsert_noWindowStop (insertEach_searchReady hs hu) _⟩

/-- A literal is read at the cursor `R`. -/
theorem packLiteral_noWindowStop (hw : WindowWritten s) (hr : s.enc.r.toNat < s.par.n.toNat) :
    NoWindowStop (packLiteral s) := by
  simp only [packLiteral, noWindowStop_bind, groupRead_noWindowStop, groupWrite_noWindowStop, noWindowStop_ok,
    implies_true, and_true, true_and]
  intro control _ u hu
  obtain ⟨_, rfl⟩ := groupWrite_ok.1 hu
  exact winRead_noWindowStop (s := (s.withFound _).withEnc _) hw (Session.lt_winSize hr)

theorem eToken_noWindowStop (hw : WindowWritten s) (hr : s.enc.r.toNat < s.par.n.toNat) : NoWindowStop (eToken s) := by
  obtain ⟨found, hclamp⟩ := clampMatch_frame s
  have hliteral : NoWindowStop (packLiteral (s.withFound found)) := packLiteral_noWindowStop hw hr
  simp [eToken, hclamp, packToken, hliteral, packReference]

/-- A pass of E_ADV writes at the cursor `S`, which the removal before it leaves alone. -/
theorem eAdv_noWindowStop (hs : SearchReady s) (hcursor : s.enc.s.toNat < s.par.n.toNat) : NoWindowStop (eAdv s) := by
  unfold eAdv
  rw [noWindowStop_ite]
  refine ⟨fun _ => ?_, fun _ => noWindowStop_ok _⟩
  cases hi : inRead s with
  | wait => exact noWindowStop_ok _
  | eof u => exact noWindowStop_ok _
  | byte c u =>
    obtain ⟨host, inCount, rfl⟩ := inRead_byte_frame hi
    simp only [noWindowStop_bind, mfRemove_noWindowStop, noWindowStop_ok, implies_true, and_true, true_and]
    intro v hv
    have hready : SearchReady v := by
      refine mfRemove_searchReady ?_ hv
      exact ⟨hs.written, hs.children⟩
    have hframe := (mfRemove_frame hv).1
    refine ⟨winSetMirror_noWindowStop (by rw [hframe.enc, hframe.par]; exact hcursor) c, fun w hw => ?_⟩
    have hwritten := winSetMirror_searchReady hready hw
    exact mfInsert_noWindowStop (s := advanceCursors w) ⟨hwritten.written, hwritten.children⟩ _

theorem eDrain_noWindowStop (hs : SearchReady s) : NoWindowStop (eDrain s) := by
  simp only [eDrain, noWindowStop_ite, noWindowStop_bind, mfRemove_noWindowStop, noWindowStop_ok, implies_true,
    and_true, true_and]
  intro _ v hv _
  have hready : SearchReady v := by
    refine mfRemove_searchReady ?_ hv
    exact ⟨hs.written, hs.children⟩
  exact mfInsert_noWindowStop (s := drained v) ⟨hready.written, hready.children⟩ _

theorem State.WindowInv.written (hs : s.WindowInv) (hrun : s.seq ≠ .idle) : WindowWritten s :=
  hs.resolve_left hrun

theorem microStep_noWindowStop (hv : s.SessionInv) (hw : s.WindowInv) (hcursor : s.CursorInv) (hchild : s.ChildInv) :
    NoWindowStop (microStep s) := by
  have hwritten := hw.written
  have hready (hruns : s.seq.encoderRuns = true) (hrun : s.seq ≠ .idle) : SearchReady s :=
    ⟨hwritten hrun, hchild hruns⟩
  obtain ⟨hcursors, -⟩ := hcursor
  cases hq : s.seq <;> simp only [microStep, hq] <;> rw [hq] at hwritten hready hcursors
  case eLoad => exact eLoad_noWindowStop hv
  case ePrime => exact ePrime_noWindowStop (hready rfl (by decide))
  case eToken =>
    obtain ⟨hr, -⟩ := hcursors rfl
    exact eToken_noWindowStop (hwritten (by decide)) hr
  case eFlush => simp [eFlush]
  case eAdv =>
    obtain ⟨-, hs⟩ := hcursors rfl
    exact eAdv_noWindowStop (hready rfl (by decide)) (hs ▸ Session.wrap_lt hv _)
  case eDrain => exact eDrain_noWindowStop (hready rfl (by decide))
  case eFinal => simp [eFinal]
  case dCopy => exact dCopy_noWindowStop hv (hwritten (by decide))
  all_goals exact noWindowStop_ok _

end

/-- The only instruction of a segment that reaches the window is a literal. -/
theorem engineStep_fault_not_ofWindow {s : State} (hv : s.SessionInv) (hw : s.WindowInv) (hcursor : s.CursorInv)
    (hchild : s.ChildInv) {e : Fault} (h : engineStep s = .fault e) : e.ofWindow = false := by
  unfold engineStep at h
  split at h
  · next x hx =>
    obtain ⟨f, -, -, rfl⟩ := fetched_some hx
    split at h
    · next i hi =>
      obtain ⟨c, rfl⟩ | ⟨b, rfl⟩ | ⟨pos, ln, rfl⟩ := decode_segment_ok hi
      · cases h
      · exact emitByte_noWindowStop hv b _ e (outcomeOf_eq_fault.1 h)
      · cases h
    · cases h; rfl
  · exact microStep_noWindowStop hv hw hcursor hchild e (outcomeOf_eq_fault.1 h)

/-- Settles O38: both window faults are `ofWindow`, and no label or token stops with such a one. -/
theorem noWindowFault : Obligations.NoWindowFault := by
  intro s hv hw hcursor hchild
  have hfault {e : Fault} := engineStep_fault_not_ofWindow hv hw hcursor hchild (e := e)
  exact ⟨fun h => absurd (hfault h) (by decide), fun h => absurd (hfault h) (by decide)⟩

end Sys2Proof.Machine
end

section
/-! SUPPORT. The rules of a link write (spec/41_match_finder.md R163 to R171 write nothing else): the state it leaves, what a
link reads after it, and what it keeps. -/

namespace Sys2Proof.Machine

/-- The state after a link write that answers. -/
def State.setLink (s : State) (k : Link) (i v : Nat) : State :=
  s.withLinks k (Memory.write (s.links k) i (BitVec.ofNat 13 v))

section

variable (s : State) (k : Link) (i v : Nat)

@[simp] theorem State.setLink_par : (s.setLink k i v).par = s.par := by cases k <;> rfl
@[simp] theorem State.setLink_win : (s.setLink k i v).win = s.win := by cases k <;> rfl
@[simp] theorem State.setLink_found : (s.setLink k i v).found = s.found := by cases k <;> rfl
@[simp] theorem State.setLink_walk : (s.setLink k i v).walk = s.walk := by cases k <;> rfl
@[simp] theorem State.links_withWalk (w : Walk) : (s.withWalk w).links k = s.links k := by cases k <;> rfl
@[simp] theorem State.links_withFound (m : MatchState) : (s.withFound m).links k = s.links k := by cases k <;> rfl

@[simp] theorem linkRead_withWalk (w : Walk) : linkRead k (s.withWalk w) i = linkRead k s i := by simp [linkRead]

@[simp] theorem linkRead_withFound (m : MatchState) : linkRead k (s.withFound m) i = linkRead k s i := by
  simp [linkRead]

theorem State.links_setLink (k' : Link) :
    (s.setLink k i v).links k' = if k' = k then Memory.write (s.links k) i (BitVec.ofNat 13 v) else s.links k' := by
  cases k <;> cases k' <;> rfl

/-- Every cell of every array after a link write. -/
theorem State.read_setLink (k' : Link) (a : Nat) :
    Memory.read ((s.setLink k i v).links k') a =
      if k' = k ∧ a = i then some (BitVec.ofNat 13 v) else Memory.read (s.links k') a := by
  rw [State.links_setLink]
  by_cases hk : k' = k
  · subst hk; simp [Memory.read_write]
  · simp [hk]

end

section

variable {s t : State} {k k' : Link} {a i v : Nat}

theorem linkWrite_of_lt (hi : i < s.par.treeSize) : linkWrite k s i v = .ok (s.setLink k i v) :=
  linkWrite_ok.2 ⟨hi, rfl⟩

theorem linkRead_setLink_same (hi : i < s.par.treeSize) (hv : v < 8192) : linkRead k (s.setLink k i v) i = .ok v :=
  linkRead_ok.2 ⟨by simpa using hi, BitVec.ofNat 13 v, by simp [State.read_setLink], Nat.mod_eq_of_lt hv⟩

theorem linkRead_setLink_other (h : ¬ (k' = k ∧ a = i)) : linkRead k' (s.setLink k i v) a = linkRead k' s a := by
  simp [linkRead, State.read_setLink, h]

/-- A link read is of a cell of its array, and its value has 13 bits. -/
theorem linkRead_lt (h : linkRead k s i = .ok v) : i < s.par.treeSize ∧ v < 8192 := by
  obtain ⟨hi, x, -, rfl⟩ := linkRead_ok.1 h
  exact ⟨hi, x.isLt⟩

end

/-! The parameters. -/

section

variable {p : Session}

theorem Session.nil_lt (p : Session) : p.nil < 8192 := p.n.isLt

theorem Session.nil_lt_treeSize (p : Session) : p.nil < p.treeSize := by
  simp only [Session.nil, Session.treeSize]
  omega

theorem Session.lt_treeSize {i : Nat} (h : i < p.n.toNat) : i < p.treeSize :=
  h.trans p.nil_lt_treeSize

theorem Session.root_lt_treeSize (p : Session) (c : Byte) : p.root c < p.treeSize := by
  simp only [Session.root, Session.treeSize, Config.rootCount]
  omega

theorem Session.root_lt (hp : p.valid = true) (c : Byte) : p.root c < 8192 := by
  obtain ⟨⟨-, hn⟩, -⟩ := Session.valid_iff.1 hp
  simp only [Session.root]
  omega

end

end Sys2Proof.Machine
end

section
/-! PROOF. O40: MF_INIT (spec/41_match_finder.md R163), cell by cell of the three arrays. -/

namespace Sys2Proof.Machine

section

variable (s : State) (a : Nat)

theorem read_mfInit_right : Memory.read (mfInit s).right a =
    if s.par.n.toNat + 1 ≤ a ∧ a < s.par.n.toNat + 1 + 256 then some (BitVec.ofNat 13 s.par.nil) else none :=
  Memory.read_fill _ _ _ a

theorem read_mfInit_parent :
    Memory.read (mfInit s).parent a = if a < s.par.n.toNat then some (BitVec.ofNat 13 s.par.nil) else none :=
  (Memory.read_fill _ _ _ a).trans (by simp)

end

/-- A cell that MF_INIT fills reads as NIL. -/
theorem linkRead_eq_nil {k : Link} {s : State} {i : Nat} (hi : i < s.par.treeSize)
    (h : Memory.read (s.links k) i = some (BitVec.ofNat 13 s.par.nil)) : linkRead k s i = .ok s.par.nil :=
  linkRead_ok.2 ⟨hi, _, h, by simpa using s.par.nil_lt⟩

/-- The cells that hold a root's RIGHT are those of the 256 bytes. -/
theorem Session.exists_root {p : Session} {a : Nat} (h : p.n.toNat + 1 ≤ a ∧ a < p.n.toNat + 1 + 256) :
    ∃ c : Byte, a = p.root c := by
  refine ⟨BitVec.ofNat 8 (a - (p.n.toNat + 1)), ?_⟩
  rw [Session.root, BitVec.toNat_ofNat, Nat.mod_eq_of_lt (by omega)]
  omega

/-- Settles O40: the filled cells are the roots' RIGHT and the positions' PARENT, each filled with NIL. -/
theorem initEmptiesEveryTree : Obligations.InitEmptiesEveryTree := by
  intro s _
  refine ⟨fun c => ?_, fun p hp => ?_, rfl, fun a => rfl, fun a ha => ?_, fun a ha => ?_⟩
  · have hc : c.toNat < 256 := c.isLt
    refine linkRead_eq_nil (s := mfInit s) (s.par.root_lt_treeSize c) ((read_mfInit_right s _).trans (if_pos ?_))
    simp only [Session.root]
    omega
  · exact linkRead_eq_nil (s := mfInit s) (Session.lt_treeSize hp) ((read_mfInit_parent s p).trans (if_pos hp))
  · refine (read_mfInit_right s a).trans (if_neg fun hroot => ?_)
    obtain ⟨c, hc⟩ := Session.exists_root hroot
    exact ha c hc
  · exact (read_mfInit_parent s a).trans (if_neg (not_lt.2 ha))

end Sys2Proof.Machine
end

section
/-! PROOF. O43 and O44: MF_REMOVE (spec/41_match_finder.md R169 to R171). Its last write makes PARENT[p] NIL. The successor of
a leaf is NIL, which the splice puts in the leaf's place. -/

namespace Sys2Proof.Machine

section

variable {s t : State} {p up : Nat}

/-- A frame as an equation of states. -/
theorem SameButLinks.eq (h : SameButLinks s t) :
    t = { s with left := t.left, right := t.right, parent := t.parent, walk := t.walk } := by
  obtain ⟨h, _⟩ := h
  cases h
  cases s
  cases t
  simp_all

/-! The position removed. -/

theorem mfSplice_parent (h : mfSplice p s = .ok t) : linkRead .parent t p = .ok t.par.nil := by
  unfold mfSplice at h
  obtain ⟨_, -, h⟩ := bind_ok.1 h
  obtain ⟨s1, -, h⟩ := bind_ok.1 h
  obtain ⟨up, -, h⟩ := bind_ok.1 h
  obtain ⟨child, -, h⟩ := bind_ok.1 h
  obtain ⟨s2, -, h⟩ := bind_ok.1 h
  obtain ⟨hp, rfl⟩ := linkWrite_ok.1 h
  rw [(SameButTrees.ofLinkWrite h).par]
  exact linkRead_setLink_same hp s2.par.nil_lt

/-- What MF_REMOVE does when it answers: nothing, to a position in no tree, or it ends in the splice. -/
theorem mfRemove_cases (h : mfRemove p s = .ok t) :
    (linkRead .parent s p = .ok s.par.nil ∧ t = s) ∨ ∃ u, mfSuccessor p s = .ok u ∧ mfSplice p u = .ok t := by
  unfold mfRemove at h
  split at h
  · cases h
  · split at h
    · obtain ⟨up, hup, h⟩ := bind_ok.1 h
      split at h
      · next hnil => cases h; exact .inl ⟨hnil ▸ hup, rfl⟩
      · exact .inr (bind_ok.1 h)
    · cases h

theorem mfRemove_parent (h : mfRemove p s = .ok t) : linkRead .parent t p = .ok t.par.nil := by
  obtain ⟨hup, rfl⟩ | ⟨u, -, h⟩ := mfRemove_cases h
  · exact hup
  · exact mfSplice_parent h

/-- MF_REMOVE under its preconditions (R173): a position in no tree stays so. -/
theorem mfRemove_absent (hp : p < s.par.n.toNat) (htail : tailMirrored s = true)
    (hup : linkRead .parent s p = .ok s.par.nil) : mfRemove p s = .ok s := by
  rw [mfRemove, if_neg (not_le.2 hp), if_pos htail]
  exact bind_ok.2 ⟨_, hup, if_pos rfl⟩

theorem mfRemove_present (hp : p < s.par.n.toNat) (htail : tailMirrored s = true)
    (hup : linkRead .parent s p = .ok up) (hin : up ≠ s.par.nil) :
    mfRemove p s = mfSuccessor p s >>= mfSplice p := by
  rw [mfRemove, if_neg (not_le.2 hp), if_pos htail, hup]
  exact if_neg hin

/-! A leaf. -/

theorem mfSuccessor_leaf (hleft : linkRead .left s p = .ok s.par.nil) (hright : linkRead .right s p = .ok s.par.nil) :
    mfSuccessor p s = .ok (setQ s s.par.nil) := by
  refine bind_ok.2 ⟨_, hright, ?_⟩
  rw [if_pos rfl]
  exact bind_ok.2 ⟨_, hleft, rfl⟩

/-- The splice, for a successor other than `p`: it takes `p`'s place under `p`'s parent. -/
theorem mfSplice_completes {child : Nat} (hq : s.walk.q.toNat < s.par.treeSize) (hqp : s.walk.q.toNat ≠ p)
    (hup : linkRead .parent s p = .ok up) (hchild : linkRead .right s up = .ok child) :
    mfSplice p s = .ok (((s.setLink .parent s.walk.q.toNat up).setLink (if child = p then .right else .left) up
      s.walk.q.toNat).setLink .parent p s.par.nil) := by
  obtain ⟨hp, -⟩ := linkRead_lt hup
  obtain ⟨hupLt, -⟩ := linkRead_lt hchild
  refine bind_ok.2 ⟨up, hup, bind_ok.2 ⟨_, linkWrite_of_lt hq, bind_ok.2 ⟨up, ?_, bind_ok.2 ⟨child, ?_, ?_⟩⟩⟩⟩
  · rw [linkRead_setLink_other (by simp [hqp.symm]), hup]
  · rw [linkRead_setLink_other (by simp), hchild]
  · refine bind_ok.2 ⟨_, linkWrite_of_lt (by simpa using hupLt), ?_⟩
    rw [linkWrite_of_lt (by simpa using hp)]
    simp

/-- The state after the leaf `p` under `up` is removed: its parent's link on that side is NIL, `p` is in no tree, and
PARENT[NIL] is written. -/
def leafRemoved (side : Link) (p up : Nat) (s : State) : State :=
  (((setQ s s.par.nil).setLink .parent s.par.nil up).setLink side up s.par.nil).setLink .parent p s.par.nil

theorem mfRemove_leaf {child : Nat} (htail : tailMirrored s = true) (hp : p < s.par.n.toNat)
    (hup : linkRead .parent s p = .ok up) (hin : up ≠ s.par.nil) (hleft : linkRead .left s p = .ok s.par.nil)
    (hright : linkRead .right s p = .ok s.par.nil) (hchild : linkRead .right s up = .ok child) :
    mfRemove p s = .ok (leafRemoved (if child = p then .right else .left) p up s) := by
  have hq : (setQ s s.par.nil).walk.q.toNat = s.par.nil := by simpa [setQ] using s.par.nil_lt
  rw [mfRemove_present hp htail hup hin, mfSuccessor_leaf hleft hright]
  have hsplice := mfSplice_completes (s := setQ s s.par.nil) (p := p) (up := up) (child := child)
    (hq.trans_lt s.par.nil_lt_treeSize) (hq.trans_ne hp.ne') (by simpa [setQ] using hup) (by simpa [setQ] using hchild)
  rw [hq] at hsplice
  exact hsplice

theorem linkRead_leafRemoved_side {side : Link} (hside : side ≠ .parent) (hup : up < s.par.treeSize) :
    linkRead side (leafRemoved side p up s) up = .ok s.par.nil := by
  rw [leafRemoved, linkRead_setLink_other (by simp [hside])]
  exact linkRead_setLink_same (by simpa [setQ] using hup) s.par.nil_lt

theorem linkRead_leafRemoved_parent (side : Link) (hp : p < s.par.treeSize) :
    linkRead .parent (leafRemoved side p up s) p = .ok s.par.nil :=
  linkRead_setLink_same (by simpa [setQ] using hp) s.par.nil_lt

theorem read_leafRemoved_other {side k : Link} {a : Nat} (hside : ¬ (k = side ∧ a = up))
    (hparent : k = .parent → a ≠ p ∧ a ≠ s.par.nil) :
    Memory.read ((leafRemoved side p up s).links k) a = Memory.read (s.links k) a := by
  have hp : ¬ (k = .parent ∧ a = p) := fun h => (hparent h.1).1 h.2
  have hnil : ¬ (k = .parent ∧ a = s.par.nil) := fun h => (hparent h.1).2 h.2
  simp [leafRemoved, State.read_setLink, setQ, hside, hp, hnil]

end

/-- Settles O43: PARENT[p] is NIL after the last write, which the splice makes. -/
theorem removedPositionIsInNoTree : Obligations.RemovedPositionIsInNoTree :=
  ⟨fun _ _ _ h => ⟨mfRemove_parent h, (mfRemove_frame h).eq⟩, fun _ _ => mfRemove_absent⟩

/-- Settles O44: under each side of its parent the leaf's place gets NIL, the leaf's own left child. -/
theorem removeUnlinksALeaf : Obligations.RemoveUnlinksALeaf := by
  constructor
  · intro s p up _ htail hp hup hin _ hleft hright hchild
    refine ⟨leafRemoved .right p up s, ?_, linkRead_leafRemoved_side (by decide) (linkRead_lt hchild).1,
      linkRead_leafRemoved_parent _ (Session.lt_treeSize hp), fun a => ?_, fun a ha => ?_, fun a hap han => ?_⟩
    · simpa using mfRemove_leaf htail hp hup hin hleft hright hchild
    · exact read_leafRemoved_other (k := .left) (by simp) (by simp)
    · exact read_leafRemoved_other (k := .right) (by simp [ha]) (by simp)
    · exact read_leafRemoved_other (k := .parent) (by simp) fun _ => ⟨hap, han⟩
  · intro s p up other _ htail hp hup hin _ hleft hright hother hne _
    refine ⟨leafRemoved .left p up s, ?_, linkRead_leafRemoved_side (by decide) (linkRead_lt hother).1,
      linkRead_leafRemoved_parent _ (Session.lt_treeSize hp), fun a ha => ?_, fun a => ?_, fun a hap han => ?_⟩
    · simpa [hne] using mfRemove_leaf htail hp hup hin hleft hright hother
    · exact read_leafRemoved_other (k := .left) (by simp [ha]) (by simp)
    · exact read_leafRemoved_other (k := .right) (by simp) (by simp)
    · exact read_leafRemoved_other (k := .parent) (by simp) fun _ => ⟨hap, han⟩

end Sys2Proof.Machine
end

section
/-! PROOF. O41: MF_INSERT (spec/41_match_finder.md R164 to R168) is its preconditions and a walk from the root of the tree
for the position's byte. The walk of an empty tree ends where it begins. -/

namespace Sys2Proof.Machine

/-- The state in which MF_INSERT(r) begins its walk: at the root for the byte `c`, going right, `r` without children, no
match. -/
def searchStart (r : Nat) (c : Byte) (s : State) : State :=
  (((setP (setCmp s 1) (s.par.root c)).setLink .right r s.par.nil).setLink .left r s.par.nil).withFound
    { s.found with mlen := 0 }

section

variable (s : State) (r : Nat) (c : Byte)

@[simp] theorem searchStart_par : (searchStart r c s).par = s.par := by simp [searchStart, setP, setCmp]
@[simp] theorem searchStart_win : (searchStart r c s).win = s.win := by simp [searchStart, setP, setCmp]
@[simp] theorem searchStart_found : (searchStart r c s).found = { s.found with mlen := 0 } := rfl
@[simp] theorem searchStart_cmp : (searchStart r c s).walk.cmp = 1 := by simp [searchStart, setP, setCmp]

end

section

variable {s t : State} {r : Nat} {c : Byte}

/-- MF_INSERT is its preconditions and a walk. -/
theorem mfInsert_ok : mfInsert r s = .ok t ↔
    r < s.par.n.toNat ∧ linkRead .parent s r = .ok s.par.nil ∧ tailMirrored s = true ∧
      ∃ c, Memory.read s.win r = some c ∧ mfWalk s.par.treeSize r (searchStart r c s) = .ok t := by
  constructor
  · intro h
    obtain ⟨_, hcheck, h⟩ := bind_ok.1 h
    obtain ⟨hr, hup, htail⟩ := mfInsertCheck_ok.1 hcheck
    obtain ⟨c, hc, h⟩ := bind_ok.1 h
    obtain ⟨-, hc⟩ := winRead_ok.1 hc
    obtain ⟨s1, h1, h⟩ := bind_ok.1 h
    obtain ⟨-, rfl⟩ := linkWrite_ok.1 h1
    obtain ⟨s2, h2, h⟩ := bind_ok.1 h
    obtain ⟨-, rfl⟩ := linkWrite_ok.1 h2
    replace h : mfWalk (searchStart r c s).par.treeSize r (searchStart r c s) = .ok t := h
    rw [searchStart_par] at h
    exact ⟨hr, hup, htail, c, hc, h⟩
  · rintro ⟨hr, hup, htail, c, hc, h⟩
    rw [← searchStart_par s r c] at h
    have hwin : winGetLin s r = .ok c := winRead_ok.2 ⟨Session.lt_winSize hr, hc⟩
    have hcell : r < (setP (setCmp s 1) (s.par.root c)).par.treeSize := Session.lt_treeSize hr
    exact bind_ok.2 ⟨(), mfInsertCheck_ok.2 ⟨hr, hup, htail⟩, bind_ok.2 ⟨c, hwin,
      bind_ok.2 ⟨_, linkWrite_of_lt hcell, bind_ok.2 ⟨_, linkWrite_of_lt (by simpa using hcell), h⟩⟩⟩⟩

theorem searchStart_p (hs : s.SessionInv) : (searchStart r c s).walk.p.toNat = s.par.root c := by
  have hroot : (BitVec.ofNat 13 (s.par.root c)).toNat = s.par.root c := Nat.mod_eq_of_lt (Session.root_lt hs c)
  simpa [searchStart, setP] using hroot

/-- The walk begins with the links as they were but for the child links of `r`, which are NIL. -/
theorem linkRead_searchStart {k : Link} {i : Nat} (hi : i ≠ r) :
    linkRead k (searchStart r c s) i = linkRead k s i := by
  simp [searchStart, linkRead_setLink_other, hi, setP, setCmp]

theorem linkRead_searchStart_self {k : Link} (hr : r < s.par.treeSize) (hk : k ≠ .parent) :
    linkRead k (searchStart r c s) r = .ok s.par.nil := by
  have hsame : r < (setP (setCmp s 1) (s.par.root c)).par.treeSize := hr
  cases k with
  | left => simp [searchStart, linkRead_setLink_same, hsame, s.par.nil_lt]
  | right => simp [searchStart, linkRead_setLink_other, linkRead_setLink_same, hsame, s.par.nil_lt]
  | parent => exact absurd rfl hk

/-! An empty tree. -/

/-- The walk ends at a node without the child it looks for, where it links `r`. -/
theorem mfWalk_link {fuel : Nat} {side : Link} (hside : side = if 0 ≤ s.walk.cmp then .right else .left)
    (hnil : linkRead side s s.walk.p.toNat = .ok s.par.nil) (hr : r < s.par.treeSize) :
    mfWalk (fuel + 1) r s =
      .ok ((s.setLink side s.walk.p.toNat r).setLink .parent r s.walk.p.toNat) := by
  obtain ⟨hp, -⟩ := linkRead_lt hnil
  subst hside
  refine bind_ok.2 ⟨_, hnil, ?_⟩
  rw [if_pos rfl]
  refine bind_ok.2 ⟨_, linkWrite_of_lt hp, ?_⟩
  rw [linkWrite_of_lt (by simpa using hr)]
  simp

/-- The state after `r` is linked under the root of the empty tree for the byte `c`. -/
def topLinked (r : Nat) (c : Byte) (s : State) : State :=
  ((searchStart r c s).setLink .right (s.par.root c) r).setLink .parent r (s.par.root c)

theorem Session.root_ne (hr : r < s.par.n.toNat) (c : Byte) : s.par.root c ≠ r := by
  simp only [Session.root]
  omega

theorem mfInsert_empty (hs : s.SessionInv) (htail : tailMirrored s = true) (hr : r < s.par.n.toNat)
    (hc : Memory.read s.win r = some c) (hup : linkRead .parent s r = .ok s.par.nil)
    (hempty : linkRead .right s (s.par.root c) = .ok s.par.nil) : mfInsert r s = .ok (topLinked r c s) := by
  have hp := searchStart_p (r := r) (c := c) hs
  have htop : linkRead .right (searchStart r c s) (searchStart r c s).walk.p.toNat = .ok (searchStart r c s).par.nil := by
    rw [hp, linkRead_searchStart (Session.root_ne hr c), hempty, searchStart_par]
  have hlt : r < (searchStart r c s).par.treeSize := by simpa using Session.lt_treeSize hr
  have hwalk := mfWalk_link (fuel := s.par.n.toNat + 256) (by simp) htop hlt
  rw [hp] at hwalk
  exact mfInsert_ok.2 ⟨hr, hup, htail, c, hc, hwalk⟩

theorem read_topLinked_other {k : Link} {a : Nat} (ha : a ≠ r) (htop : ¬ (k = .right ∧ a = s.par.root c)) :
    Memory.read ((topLinked r c s).links k) a = Memory.read (s.links k) a := by
  simp [topLinked, searchStart, State.read_setLink, setP, setCmp, ha, htop]

/-- The new top node has no children. -/
theorem linkRead_topLinked_child {k : Link} (hr : r < s.par.n.toNat) (hk : k ≠ .parent) :
    linkRead k (topLinked r c s) r = .ok s.par.nil := by
  rw [topLinked, linkRead_setLink_other (by simp [hk]), linkRead_setLink_other (by simp [(Session.root_ne hr c).symm])]
  exact linkRead_searchStart_self (Session.lt_treeSize hr) hk

/-- It is linked under its root, and its PARENT is the root. -/
theorem linkRead_topLinked_root (hr : r < s.par.n.toNat) :
    linkRead .right (topLinked r c s) (s.par.root c) = .ok r := by
  rw [topLinked, linkRead_setLink_other (by simp)]
  exact linkRead_setLink_same (by simpa using s.par.root_lt_treeSize c) (hr.trans s.par.nil_lt)

theorem linkRead_topLinked_parent (hs : s.SessionInv) (hr : r < s.par.n.toNat) :
    linkRead .parent (topLinked r c s) r = .ok (s.par.root c) :=
  linkRead_setLink_same (by simpa using Session.lt_treeSize hr) (Session.root_lt hs c)

theorem topLinked_found : (topLinked r c s).found = { s.found with mlen := 0 } := by
  simp [topLinked, searchStart]

end

/-- Settles O41: the root has no right child, so the walk links the position there at once. -/
theorem insertIntoAnEmptyTree : Obligations.InsertIntoAnEmptyTree := by
  intro s r c hs htail hr hc hup hempty
  refine ⟨topLinked r c s, mfInsert_empty hs htail hr hc hup hempty, linkRead_topLinked_root hr,
    linkRead_topLinked_parent hs hr, linkRead_topLinked_child hr (by decide), linkRead_topLinked_child hr (by decide),
    fun a ha => ?_, fun a ha htop => ?_, fun a ha => ?_, ?_, ?_⟩
  · exact read_topLinked_other (k := .left) ha (by simp)
  · exact read_topLinked_other (k := .right) ha (by simp [htop])
  · exact read_topLinked_other (k := .parent) ha (by simp)
  · rw [topLinked_found]
  · rw [topLinked_found]

end Sys2Proof.Machine
end

section
/-! PROOF. O42: the match of MF_INSERT (spec/41_match_finder.md R165, R167, R175). A search keeps an invariant: it stands
at the root or at a node of the tree, and the match state is that of a node whose key was compared. The state before
MF_INSERT is the one the tree and the window are read in: the walk changes them only as it ends. -/

namespace Sys2Proof.Machine

/-- The keys of `r` and `q` agree from byte 1 up to `n`. -/
def KeysAgree (s : State) (r q n : Nat) : Prop :=
  ∀ j, 1 ≤ j → j < n → ∃ b, Memory.read s.win (r + j) = some b ∧ Memory.read s.win (q + j) = some b

/-- A match state that is no match, or that of a node of the tree for the byte `c` (R165, R167). -/
structure MatchReal (s : State) (r : Nat) (c : Byte) (m : MatchState) : Prop where
  bound : m.mlen.toNat ≤ s.par.f.toNat
  agrees : m.mlen ≠ 0 → KeysAgree s r m.mpos.toNat m.mlen.toNat
  node : m.mlen ≠ 0 → InTree s c m.mpos.toNat
  position : m.mlen ≠ 0 → m.mpos.toNat < s.par.n.toNat

/-- A state `u` in which the walk that began in the tree for the byte `c` of `s` goes on: at the root, going right, or at
a node of that tree; every child link that is not NIL is one of `s`; and the match so far is real. -/
structure Searching (s : State) (r : Nat) (c : Byte) (u : State) : Prop where
  par : u.par = s.par
  win : u.win = s.win
  place : u.walk.p.toNat = s.par.root c ∧ 0 ≤ u.walk.cmp ∨ InTree s c u.walk.p.toNat
  children : ∀ k ≠ Link.parent, ∀ i v, linkRead k u i = .ok v → v ≠ s.par.nil → linkRead k s i = .ok v
  found : MatchReal s r c u.found

section

variable {s t u : State} {r : Nat} {c : Byte}

theorem KeysAgree.congr {q n : Nat} (h : KeysAgree s r q n) (hwin : t.win = s.win) : KeysAgree t r q n := by
  rw [KeysAgree, hwin]
  exact h

theorem byteDifference_eq_zero {a b : Byte} : byteDifference a b = 0 ↔ a = b := by
  rw [byteDifference, sub_eq_zero, Nat.cast_inj, BitVec.toNat_inj]

/-- The bytes that the inner loop passes are equal, and it passes at most those of a key. -/
theorem mfCompare_agrees {fuel : Nat} (hj : s.walk.j.toNat ≤ s.par.f.toNat)
    (hs : KeysAgree s r s.walk.p.toNat s.walk.j.toNat) (h : mfCompare fuel r s = .ok t) :
    t.walk.j.toNat ≤ s.par.f.toNat ∧ KeysAgree s r s.walk.p.toNat t.walk.j.toNat := by
  induction fuel generalizing s with
  | zero => cases h; exact ⟨hj, hs⟩
  | succ n ih =>
    unfold mfCompare at h
    split at h
    · next hlt =>
      obtain ⟨a, ha, h⟩ := bind_ok.1 h
      obtain ⟨b, hb, h⟩ := bind_ok.1 h
      obtain ⟨-, ha⟩ := winRead_ok.1 ha
      obtain ⟨-, hb⟩ := winRead_ok.1 hb
      simp only at h
      split at h
      · cases h; exact ⟨hj, hs⟩
      · next hcmp =>
        obtain rfl := byteDifference_eq_zero.1 (not_not.1 hcmp)
        have hnext : (s.walk.j.toNat + 1) % 4096 = s.walk.j.toNat + 1 :=
          Nat.mod_eq_of_lt (Nat.lt_of_le_of_lt hlt s.par.f.isLt)
        refine ih (s := setJ (setCmp s (byteDifference a a)) (s.walk.j.toNat + 1)) (hnext.trans_le hlt) ?_ h
        intro j hj1 hj2
        obtain hlt | rfl := Nat.lt_succ_iff_lt_or_eq.1 (hj2.trans_eq hnext)
        · exact hs j hj1 hlt
        · exact ⟨_, ha, hb⟩
    · cases h; exact ⟨hj, hs⟩

/-- A measurement at the node P: the match state stays, or becomes that of P. -/
theorem mfMeasure_cases (hf : 1 ≤ s.par.f.toNat) (h : mfMeasure r s = .ok t) :
    t.walk.p = s.walk.p ∧ (∀ k, t.links k = s.links k) ∧
      (t.found = s.found ∨ t.found.mpos = s.walk.p.setWidth 12 ∧ t.found.mlen.toNat ≤ s.par.f.toNat ∧
        KeysAgree s r s.walk.p.toNat t.found.mlen.toNat) := by
  obtain ⟨v, hv, h⟩ := bind_ok.1 h
  have hstart : (setJ s 1).walk.j.toNat = 1 := rfl
  obtain ⟨hbound, hagrees⟩ := mfCompare_agrees (s := setJ s 1) hf (fun j h1 h2 => absurd h2 (by omega)) hv
  obtain ⟨cmp, j, rfl⟩ := mfCompare_frame hv
  split at h
  · cases h
    exact ⟨rfl, fun k => by simp [setJ], .inr ⟨rfl, hbound, hagrees⟩⟩
  · cases h
    exact ⟨rfl, fun k => by simp [setJ], .inl rfl⟩

/-- The child that the walk goes to is a node of the tree. -/
theorem Searching.next {v : Nat} (hu : Searching s r c u)
    (hv : linkRead (if 0 ≤ u.walk.cmp then .right else .left) u u.walk.p.toNat = .ok v) (hnil : v ≠ s.par.nil) :
    InTree s c v := by
  have hchild := hu.children _ (by split <;> decide) _ _ hv hnil
  obtain ⟨hroot, hright⟩ | hnode := hu.place
  · rw [if_pos hright, hroot] at hchild
    exact .top hchild hnil
  · split at hchild
    · exact .right hnode hchild hnil
    · exact .left hnode hchild hnil

/-- A measurement at a node of the tree that is a position keeps the invariant. -/
theorem Searching.measured {v : Nat} (hs : s.SessionInv) (hu : Searching s r c u) (hnode : InTree s c v)
    (hpos : v < s.par.n.toNat) (h : mfMeasure r (setP u v) = .ok t) : Searching s r c t := by
  obtain ⟨⟨-, hn⟩, -, -, hT, hTF, -⟩ := Session.valid_iff.1 hs
  have hf : 1 ≤ u.par.f.toNat := by rw [hu.par]; omega
  have hv : (setP u v).walk.p.toNat = v := Nat.mod_eq_of_lt (hpos.trans s.par.nil_lt)
  have hframe := mfMeasure_frame h
  obtain ⟨hp, hlinks, hfound⟩ := mfMeasure_cases (s := setP u v) hf h
  have hpar : t.par = s.par := hframe.par.trans hu.par
  refine ⟨hpar, hframe.win.trans hu.win, .inr (by rw [hp, hv]; exact hnode), fun k hk i w hw => ?_, ?_⟩
  · refine hu.children k hk i w ?_
    rw [← hw, linkRead, linkRead, hlinks, hframe.par]
    simp [setP]
  · obtain hsame | ⟨hmpos, hbound, hagrees⟩ := hfound
    · rw [hsame]
      exact hu.found
    · have hq : t.found.mpos.toNat = v := by
        rw [hmpos, BitVec.toNat_setWidth, hv]
        exact Nat.mod_eq_of_lt (hpos.trans_le hn)
      refine ⟨hbound.trans_eq (by rw [← hu.par]; rfl), fun _ => ?_, fun _ => hq ▸ hnode, fun _ => hq ▸ hpos⟩
      rw [hv, ← hq] at hagrees
      exact hagrees.congr hu.win.symm

/-- A walk that answers leaves a real match: its end, a link or a replacement, does not write the match state. -/
theorem mfWalk_matchReal {fuel : Nat} (hs : s.SessionInv) (hb : ChildrenBounded s.par.nil s)
    (hu : Searching s r c u) (h : mfWalk fuel r u = .ok t) : MatchReal s r c t.found := by
  induction fuel generalizing u with
  | zero => cases h
  | succ n ih =>
    obtain ⟨next, hnext, h⟩ := bind_ok.1 h
    split at h
    · obtain ⟨v, hv, h⟩ := bind_ok.1 h
      rw [linkWrite_found h, linkWrite_found hv]
      exact hu.found
    · next hnil =>
      rw [hu.par] at hnil
      have hbound : next ≤ s.par.nil :=
        linkRead_bounded hb (by split <;> decide) (hu.children _ (by split <;> decide) _ _ hnext hnil)
      obtain ⟨v, hv, h⟩ := bind_ok.1 h
      have hmeasured := hu.measured hs (hu.next hnext hnil) (hbound.lt_of_ne hnil) hv
      split at h
      · rw [(mfReplace_frame h).2]
        exact hmeasured.found
      · exact ih hmeasured h

theorem searchStart_searching (hs : s.SessionInv) (hr : r < s.par.n.toNat) : Searching s r c (searchStart r c s) := by
  refine ⟨?_, ?_, .inl ⟨searchStart_p hs, ?_⟩, fun k hk i v hv hnil => ?_, ?_⟩
  · exact searchStart_par s r c
  · exact searchStart_win s r c
  · simp
  · have hi : i ≠ r := by
      rintro rfl
      rw [linkRead_searchStart_self (Session.lt_treeSize hr) hk] at hv
      cases hv
      exact hnil rfl
    rwa [linkRead_searchStart hi] at hv
  · exact ⟨Nat.zero_le _, fun h => absurd rfl h, fun h => absurd rfl h, fun h => absurd rfl h⟩

end

theorem mfInsert_matchReal {s t : State} {r : Nat} (hs : s.SessionInv) (hb : ChildrenBounded s.par.nil s)
    (h : mfInsert r s = .ok t) : ∃ c, Memory.read s.win r = some c ∧ MatchReal s r c t.found := by
  obtain ⟨hr, -, -, c, hc, h⟩ := mfInsert_ok.1 h
  exact ⟨c, hc, mfWalk_matchReal hs hb (searchStart_searching hs hr) h⟩

/-- Settles O42: the match is that of a node of the tree, whose byte is the inserted position's (R160). -/
theorem matchFoundIsReal : Obligations.MatchFoundIsReal := by
  intro s t r hs hleft hright h
  obtain ⟨c, hc, hreal⟩ := mfInsert_matchReal hs ⟨hleft, hright⟩ h
  refine ⟨hreal.bound, fun hm => ⟨hreal.position hm, hreal.agrees hm⟩, fun d hd hnodes hm => ?_⟩
  obtain rfl : c = d := Option.some.inj (hc.symm.trans hd)
  exact hnodes _ (hreal.node hm)

end Sys2Proof.Machine
end

section
/-! PROOF. O53: the cursors (spec/10_state.md R49, R56). E_START puts `S` at `F` positions after `R`, and `advanceCursors`, the
only operation that moves the two, moves them together (spec/42_encoder.md R191, R199, R200); the decoder's `WR` is set by
D_START and moved by `advanceWrite` alone (spec/43_decoder.md R231, R234, R236). -/

namespace Sys2Proof.Machine

/-- `R` is in the window and `S = (R + F) & MASK`. -/
def CursorsLocked (s : State) : Prop :=
  s.enc.r.toNat < s.par.n.toNat ∧ s.enc.s.toNat = s.par.wrap (s.enc.r.toNat + s.par.f.toNat)

/-- `WR` is in the window. -/
def WriteInWindow (s : State) : Prop :=
  s.dec.wr.toNat < s.par.n.toNat

/-- The parameters and the encoder's two cursors are those of `s`. -/
structure SameCursors (s t : State) : Prop where
  par : t.par = s.par
  encode : t.enc.r = s.enc.r
  trailing : t.enc.s = s.enc.s

/-- The encoder's registers after E_START (R191). -/
def startedEncoder (s : State) : Encoder :=
  { s.enc with
    cb := s.enc.cb.set 0 0x00, cbptr := 1, cmask := 0x01, r := s.par.r0,
    s := wrapPos s (s.par.r0.toNat + s.par.f.toNat), len := 0 }

theorem eStart_eq (s : State) : eStart s = ((mfInit s).withEnc (startedEncoder s)).goto .eLoad := rfl

theorem Seq.decoderRuns_mode {q : Seq} (h : q.decoderRuns = true) : q.mode = some .decompress := by
  cases q <;> simp_all [Seq.decoderRuns, Seq.mode]

theorem startSession_not_decoderRuns (mode : Mode) (s : State) : (startSession mode s).seq.decoderRuns = false := by
  cases mode <;> rfl

section

variable {s t u : State}

theorem SameCursors.trans (h : SameCursors s t) (k : SameCursors t u) : SameCursors s u :=
  ⟨k.par.trans h.par, k.encode.trans h.encode, k.trailing.trans h.trailing⟩

theorem SameButTrees.sameCursors (h : SameButTrees s t) : SameCursors s t :=
  ⟨h.par, by rw [h.enc], by rw [h.enc]⟩

theorem CursorsLocked.congr (hs : CursorsLocked s) (h : SameCursors s t) : CursorsLocked t := by
  rw [CursorsLocked, h.par, h.encode, h.trailing]
  exact hs

/-- A cursor holds `x & MASK` without loss. -/
theorem wrapPos_toNat (hv : s.SessionInv) (x : Nat) : (wrapPos s x).toNat = s.par.wrap x := by
  obtain ⟨⟨-, hn⟩, -⟩ := Session.valid_iff.1 hv
  have hx := Session.wrap_lt hv x
  exact (BitVec.toNat_ofNat _ _).trans (Nat.mod_eq_of_lt (by omega))

/-! The encoder. -/

theorem eStart_locked (hv : s.SessionInv) : CursorsLocked (eStart s) := by
  obtain ⟨-, -, hr, -⟩ := Session.valid_iff.1 hv
  rw [eStart_eq]
  exact ⟨hr, wrapPos_toNat hv _⟩

/-- Both cursors take one position more modulo `N`, so their distance stays `F` (R199). -/
theorem advanceCursors_locked (hv : s.SessionInv) (hs : CursorsLocked s) : CursorsLocked (advanceCursors s) := by
  obtain ⟨-, hlock⟩ := hs
  have hr : (advanceCursors s).enc.r.toNat = s.par.wrap (s.enc.r.toNat + 1) := wrapPos_toNat hv _
  have htrailing : (advanceCursors s).enc.s.toNat = s.par.wrap (s.enc.s.toNat + 1) := wrapPos_toNat hv _
  have hpar : (advanceCursors s).par = s.par := rfl
  rw [CursorsLocked, hr, htrailing, hpar]
  refine ⟨Session.wrap_lt hv _, ?_⟩
  rw [hlock]
  simp only [Session.wrap_eq_mod hv, Nat.mod_add_mod]
  congr 1
  omega

theorem eLoadEnd_cursors (s : State) : SameCursors s (eLoadEnd s) := by
  obtain h | h := eLoadEnd_cases s <;> rw [h] <;> exact ⟨rfl, rfl, rfl⟩

theorem eLoad_cursors (h : eLoad s = .ok t) : SameCursors s t := by
  obtain ⟨-, rfl⟩ | ⟨-, ⟨-, rfl⟩ | ⟨u, hi, rfl⟩ | ⟨c, u, v, hi, hw, rfl⟩⟩ := eLoad_cases h
  · exact eLoadEnd_cursors s
  · exact ⟨rfl, rfl, rfl⟩
  · obtain ⟨host, inEof, rfl⟩ := inRead_eof_frame hi
    exact SameCursors.trans (t := (s.withHost host).withInEof inEof) ⟨rfl, rfl, rfl⟩ (eLoadEnd_cursors _)
  · obtain ⟨_, _, rfl⟩ := inRead_byte_frame hi
    obtain ⟨-, -, rfl⟩ := winSetMirror_ok hw
    exact ⟨rfl, rfl, rfl⟩

theorem packToken_cursors (h : packToken s = .ok t) : SameCursors s t := by
  unfold packToken at h
  split at h
  · obtain ⟨b, hp, -, rfl⟩ := packLiteral_cases h
    exact ⟨rfl, rfl, rfl⟩
  · obtain ⟨hp, rfl⟩ := packReference_cases h
    exact ⟨rfl, rfl, rfl⟩

theorem eToken_cursors (h : eToken s = .ok t) : SameCursors s t := by
  obtain ⟨u, hu, rfl⟩ := eToken_cases h
  obtain ⟨found, hclamp⟩ := clampMatch_frame s
  have hpacked : SameCursors u (tokenPacked u) := by
    obtain ⟨-, h⟩ | ⟨-, h⟩ := tokenPacked_cases u <;> rw [h] <;> exact ⟨rfl, rfl, rfl⟩
  rw [hclamp] at hu
  have htoken := packToken_cursors hu
  exact SameCursors.trans ⟨htoken.par, htoken.encode, htoken.trailing⟩ hpacked

theorem outputGroupByte_cursors (h : outputGroupByte s = .ok t) : SameCursors s t := by
  obtain ⟨_, _, _, rfl⟩ := outputGroupByte_frame h
  exact ⟨rfl, rfl, rfl⟩

/-- Between the removal and the insertion of a pass of E_ADV the cursors advance (R199, R318). -/
theorem eAdv_locked (hv : s.SessionInv) (hs : CursorsLocked s) (h : eAdv s = .ok t) : CursorsLocked t := by
  obtain ⟨-, rfl⟩ | ⟨-, ⟨-, rfl⟩ | ⟨u, hi, rfl⟩ | ⟨c, u, v, w, x, hi, hremove, hw, hinsert, rfl⟩⟩ := eAdv_cases h
  · exact hs
  · exact hs
  · obtain ⟨_, _, rfl⟩ := inRead_eof_frame hi
    exact hs
  · have hread : SameCursors s u := by
      obtain ⟨_, _, rfl⟩ := inRead_byte_frame hi
      exact ⟨rfl, rfl, rfl⟩
    have hwrite : SameCursors v w := by
      obtain ⟨-, -, rfl⟩ := winSetMirror_ok hw
      exact ⟨rfl, rfl, rfl⟩
    have hbefore : SameCursors s w := hread.trans <| (mfRemove_frame hremove).1.sameCursors.trans hwrite
    have hvalid : w.SessionInv := by rw [State.SessionInv, hbefore.par]; exact hv
    have hadvanced := advanceCursors_locked hvalid (hs.congr hbefore)
    exact hadvanced.congr ((mfInsert_frame hinsert).sameCursors.trans ⟨rfl, rfl, rfl⟩)

/-- After the removal of a pass of E_DRAIN the cursors advance (R200). -/
theorem eDrain_locked (hv : s.SessionInv) (hs : CursorsLocked s) (h : eDrain s = .ok t) : CursorsLocked t := by
  obtain ⟨-, rfl⟩ | ⟨-, v, hremove, hend⟩ := eDrain_cases h
  · exact hs
  · have hremoved := (mfRemove_frame hremove).1.sameCursors
    have hbefore : SameCursors s v := ⟨hremoved.par, hremoved.encode, hremoved.trailing⟩
    have hvalid : v.SessionInv := by rw [State.SessionInv, hbefore.par]; exact hv
    have hadvanced : CursorsLocked (drained v) := advanceCursors_locked hvalid (hs.congr hbefore)
    obtain ⟨-, rfl⟩ | ⟨-, hinsert⟩ := hend
    · exact hadvanced
    · exact hadvanced.congr (mfInsert_frame hinsert).sameCursors

/-- E_START locks the cursors, and every label after it keeps them locked. -/
theorem microStep_locked (hq : s.seq.mode = some .compress) (hv : s.SessionInv)
    (hs : s.seq.encoderRuns = true → CursorsLocked s) (h : microStep s = .ok t) : CursorsLocked t := by
  cases hl : s.seq <;> simp only [microStep, hl] at h <;> rw [hl] at hq hs
  case eStart => cases h; exact eStart_locked hv
  case eLoad => exact (hs rfl).congr (eLoad_cursors h)
  case ePrime =>
    obtain ⟨u, v, hu, hv, rfl⟩ := ePrime_cases h
    exact CursorsLocked.congr (t := v) (hs rfl) ((insertEach_frame hu).trans (mfInsert_frame hv)).sameCursors
  case eToken => exact (hs rfl).congr (eToken_cursors h)
  case eFlush =>
    obtain ⟨-, h⟩ | ⟨-, rfl⟩ := eFlush_cases h
    · exact (hs rfl).congr (outputGroupByte_cursors h)
    · exact hs rfl
  case eAdv => exact eAdv_locked hv (hs rfl) h
  case eDrain => exact eDrain_locked hv (hs rfl) h
  case eLoop =>
    cases h
    obtain h | h := eLoop_cases s <;> rw [h] <;> exact hs rfl
  case eFinal =>
    obtain ⟨-, h⟩ | ⟨-, rfl⟩ := eFinal_cases h
    · exact (hs rfl).congr (outputGroupByte_cursors h)
    · exact hs rfl
  all_goals simp [Seq.mode] at hq

/-! The decoder. -/

theorem WriteInWindow.congr (hs : WriteInWindow s) (hpar : t.par = s.par) (hwr : t.dec.wr = s.dec.wr) :
    WriteInWindow t := by
  rw [WriteInWindow, hpar, hwr]
  exact hs

theorem dStart_writeInWindow (hv : s.SessionInv) : WriteInWindow (dStart s) := by
  obtain ⟨-, -, hr, -⟩ := Session.valid_iff.1 hv
  exact hr

/-- `WR` moves on modulo `N` (R234, R236). -/
theorem advanceWrite_writeInWindow (hv : s.SessionInv) : WriteInWindow (advanceWrite s) :=
  lt_of_eq_of_lt (wrapPos_toNat hv _) (Session.wrap_lt hv _)

theorem execLit_writeInWindow {b : Byte} (hv : s.SessionInv) (hs : WriteInWindow s) (h : execLit b s = .next t) :
    WriteInWindow t := by
  obtain ⟨-, rfl⟩ | ⟨n, -, -, rfl⟩ := execLit_cases h
  · exact hs
  · exact advanceWrite_writeInWindow (s := ((s.withHost _).withOutCount _).withWin _) hv

theorem dCopy_writeInWindow (hv : s.SessionInv) (hs : WriteInWindow s) (h : dCopy s = .ok t) : WriteInWindow t := by
  obtain ⟨-, rfl⟩ | ⟨-, c, -, ⟨-, rfl⟩ | ⟨n, -, -, rfl⟩⟩ := dCopy_cases h
  · exact hs
  · exact hs
  · exact advanceWrite_writeInWindow (s := ((s.withHost _).withOutCount _).withWin _) hv

theorem latchByte_wr (f : Format) (b : Byte) (s : State) : (latchByte f b s).dec.wr = s.dec.wr := by
  unfold latchByte
  split <;> rfl

theorem fetchByte_writeInWindow (f : Format) (hs : WriteInWindow s) : WriteInWindow (fetchByte f s) := by
  obtain ⟨-, h⟩ | ⟨u, hi, h⟩ | ⟨b, u, hi, h⟩ := fetchByte_cases f s <;> rw [h]
  · exact hs
  · obtain ⟨_, _, rfl⟩ := inRead_eof_frame hi
    exact hs
  · obtain ⟨_, _, rfl⟩ := inRead_byte_frame hi
    exact hs.congr rfl (latchByte_wr f b _)

/-- D_START puts `WR` in the window, and every label after it keeps it there. -/
theorem microStep_writeInWindow (hq : s.seq.mode = some .decompress) (hv : s.SessionInv)
    (hs : s.seq.decoderRuns = true → WriteInWindow s) (h : microStep s = .ok t) : WriteInWindow t := by
  cases hl : s.seq <;> simp only [microStep, hl] at h <;> rw [hl] at hq hs
  case dStart => cases h; exact dStart_writeInWindow hv
  case dNext => cases h; exact hs rfl
  case dCtrl => cases h; exact fetchByte_writeInWindow .wCtrl (hs rfl)
  case dLit => cases h; exact fetchByte_writeInWindow .wLit (hs rfl)
  case dRef => cases h; exact fetchByte_writeInWindow .wRef (hs rfl)
  case dCopy => exact dCopy_writeInWindow hv (hs rfl) h
  all_goals simp [Seq.mode] at hq

theorem engineStep_writeInWindow (hq : s.seq.mode = some .decompress) (hv : s.SessionInv)
    (hs : s.seq.decoderRuns = true → WriteInWindow s) (h : engineStep s = .next t) : WriteInWindow t := by
  obtain ⟨c, hl, -, h⟩ | ⟨b, hl, -, h⟩ | ⟨b1, b2, hl, -, h⟩ | ⟨-, h⟩ := engineStep_cases h
  · cases h
    exact hs (by rw [hl]; rfl)
  · exact execLit_writeInWindow hv (hs (by rw [hl]; rfl)) h
  · cases h
    exact hs (by rw [hl]; rfl)
  · exact microStep_writeInWindow hq hv hs h

end

/-- A label past the start of a session is reached from a label of the same mode. -/
theorem engineStep_cursorInv {s t : State} (hv : s.SessionInv) (hs : s.CursorInv) (h : engineStep s = .next t) :
    t.CursorInv := by
  obtain ⟨hlocked, hwrite⟩ := hs
  refine ⟨fun ht => ?_, fun ht => ?_⟩
  · have hq := (engineStep_move h).mode (Seq.encoderRuns_mode ht)
    rw [engineStep_compress hq] at h
    exact microStep_locked hq hv hlocked (outcomeOf_next.1 h)
  · exact engineStep_writeInWindow ((engineStep_move h).mode (Seq.decoderRuns_mode ht)) hv hwrite h

/-- Settles O53: the start labels set the cursors, the other labels keep them, and a session starts before either. -/
theorem cursorsStayLocked : Obligations.CursorsStayLocked := by
  intro s t hv hs h
  suffices hkept : t.SessionInv ∧ t.CursorInv from hkept.right
  refine step_keeps (P := fun s => s.SessionInv ∧ s.CursorInv) (fun _ _ _ hs => hs) ?_ (by decide) ?_ ⟨hv, hs⟩ h
  · refine commandWrite_keeps (fun _ _ hs => hs) fun mode s hvalid => ⟨hvalid, fun hruns => ?_, fun hruns => ?_⟩
    · exact absurd hruns (by simp [startSession_not_encoderRuns])
    · exact absurd hruns (by simp [startSession_not_decoderRuns])
  · rintro s t ⟨hv, hs⟩ h
    exact ⟨engineStep_sessionInv hv h, engineStep_cursorInv hv hs h⟩

end Sys2Proof.Machine
end

section
/-! SUPPORT. A compression session that the host leaves alone: each step is the label's micro-operation (spec/10_state.md R63),
and a run is one micro-operation after the other. -/

namespace Sys2Proof.Machine

section

variable {s t : State}

theorem step_eq_microStep (hscript : s.host.script = []) (hq : s.seq.mode = some .compress) :
    step s = outcomeOf (microStep s) := by
  rw [← engineStep_compress hq]
  simp only [step, hscript]

theorem step_of_microStep (hscript : s.host.script = []) (hq : s.seq.mode = some .compress) (h : microStep s = .ok t) :
    step s = .next t := by
  rw [step_eq_microStep hscript hq, h, outcomeOf]

theorem run_succ (h : step s = .next t) (k : Nat) : Sys2Proof.core.run (k + 1) s = Sys2Proof.core.run k t := by
  have hstep : Sys2Proof.core.step s = .next t := h
  simp only [Host.Core.run, hstep]

/-- A run whose first `n` steps are known goes on after them. -/
theorem run_add {f : Nat → State} {n : Nat} (h : ∀ i < n, step (f i) = .next (f (i + 1))) (k : Nat) :
    Sys2Proof.core.run (n + k) (f 0) = Sys2Proof.core.run k (f n) := by
  induction n generalizing k with
  | zero => rw [Nat.zero_add]
  | succ n ih =>
    calc Sys2Proof.core.run (n + 1 + k) (f 0)
      _ = Sys2Proof.core.run (n + (k + 1)) (f 0) := by rw [Nat.add_right_comm, Nat.add_assoc]
      _ = Sys2Proof.core.run (k + 1) (f n) := ih (fun i hi => h i (by omega)) (k + 1)
      _ = Sys2Proof.core.run k (f (n + 1)) := run_succ (h n (by omega)) k

end

end Sys2Proof.Machine
end

section
/-! PROOF. O46 and O47: the start of a compression session, and its end when the input is empty (spec/42_encoder.md R191 to
R193, R202). -/

namespace Sys2Proof.Machine

section

variable {s : State} {rest : List Item}

theorem step_eStart (hq : s.seq = .eStart) (hscript : s.host.script = []) : step s = .next (eStart s) :=
  step_of_microStep hscript (by rw [hq]; rfl) (by simp only [microStep, hq])

/-- E_FINAL ends the session when the group is empty or all its bytes are out (R202). -/
theorem step_eFinal_end (hq : s.seq = .eFinal) (hscript : s.host.script = [])
    (hout : ¬ (1 < s.enc.cbptr.toNat ∧ s.outIdx.toNat < s.enc.cbptr.toNat)) : step s = .next (finish .encComplete s) :=
  step_of_microStep hscript (by rw [hq]; rfl) (by simp only [microStep, hq, eFinal, if_neg hout])

/-- The end marker before the first byte sends E_LOAD to E_FINAL (R193). -/
theorem step_eLoad_empty (hv : s.SessionInv) (hq : s.seq = .eLoad) (hscript : s.host.script = [])
    (hlen : s.enc.len = 0) (heof : s.inEof = false) (hinput : s.host.input = .eof :: rest) :
    step s = .next (gotoOutput .eFinal ((s.withHost { s.host with input := rest }).withInEof true)) := by
  obtain ⟨-, -, -, ⟨-, htf⟩, -⟩ := Session.valid_iff.1 hv
  have hread := inRead_eof.2 (.inr ⟨heof, rest, hinput, rfl⟩)
  have hroom : s.enc.len.toNat < s.par.f.toNat := by rw [hlen]; exact Nat.zero_lt_of_lt htf
  refine step_of_microStep hscript (by rw [hq]; rfl) ?_
  simp only [microStep, hq, eLoad, if_pos hroom, hread]
  exact congrArg Except.ok (if_pos hlen)

/-- From E_LOAD an empty input goes through E_FINAL with an empty group to the end of the session. -/
theorem run_eLoad_empty (hv : s.SessionInv) (hq : s.seq = .eLoad) (hscript : s.host.script = []) (hlen : s.enc.len = 0)
    (hptr : s.enc.cbptr = 1) (heof : s.inEof = false) (hinput : s.host.input = .eof :: rest) :
    Sys2Proof.core.run 2 s = .next
      (finish .encComplete (gotoOutput .eFinal ((s.withHost { s.host with input := rest }).withInEof true))) := by
  have hload := step_eLoad_empty hv hq hscript hlen heof hinput
  have hempty : ¬ 1 < s.enc.cbptr.toNat := by rw [hptr]; decide
  have hfinal := step_eFinal_end (s := gotoOutput .eFinal ((s.withHost { s.host with input := rest }).withInEof true))
    rfl hscript fun ⟨hmore, _⟩ => hempty hmore
  rw [run_succ hload, run_succ hfinal]
  rfl

end

/-- Settles O46: E_START is MF_INIT, which empties the trees, and the registers' first values. -/
theorem encoderStartInitialises : Obligations.EncoderStartInitialises := by
  intro s hv hq hscript
  obtain ⟨hroots, hpositions, -⟩ := initEmptiesEveryTree s hv
  refine ⟨_, step_eStart hq hscript, ?_⟩
  rw [eStart_eq]
  exact ⟨hroots, hpositions, rfl, rfl, rfl, rfl, wrapPos_toNat hv _, rfl, rfl, rfl, rfl, rfl⟩

/-- Settles O47: E_START, E_LOAD meeting the end marker with LEN 0, and E_FINAL with an empty group. -/
theorem emptyInputEndsTheSession : Obligations.EmptyInputEndsTheSession := by
  intro s rest hv hq hscript heof hinput
  obtain ⟨hinit, -⟩ := mfInit_frame s
  have hstart := step_eStart hq hscript
  rw [eStart_eq] at hstart
  generalize mfInit s = u at hinit hstart ⊢
  have hvalid : u.SessionInv := by rw [State.SessionInv, hinit.par]; exact hv
  have hload := run_eLoad_empty (s := (u.withEnc (startedEncoder s)).goto .eLoad) (rest := rest) hvalid rfl
    (hinit.host ▸ hscript) rfl rfl (hinit.inEof ▸ heof) (hinit.host ▸ hinput)
  refine ⟨_, (run_succ hstart 2).trans hload, rfl, ?_⟩
  simp [finish, gotoOutput, Status.finished, EndReason.truncates, hinit.status, hinit.host, hinit.inCount,
    hinit.outCount, hinit.win, State.goto]

end Sys2Proof.Machine
end

section
/-! PROOF. O52: one pass of E_ADV (spec/42_encoder.md R199). The removal and the insertion change the trees alone, so the
window is that of WIN_SET_MIRROR and the registers are those of `advanceCursors`. -/

namespace Sys2Proof.Machine

section

variable {s t u : State} {c : Byte}

/-- A pass of E_ADV that has read a byte: remove, write, advance, insert. -/
theorem eAdv_pass (hi : s.enc.i.toNat < s.enc.lastlen.toNat) (hread : inRead s = .byte c u) (h : eAdv s = .ok t) :
    ∃ v w x, mfRemove u.enc.s.toNat u = .ok v ∧ winSetMirror v v.enc.s.toNat c = .ok w ∧
      mfInsert (advanceCursors w).enc.r.toNat (advanceCursors w) = .ok x ∧
      t = x.withEnc { x.enc with i := x.enc.i + 1 } := by
  obtain ⟨hend, -⟩ | ⟨-, ⟨hwait, -⟩ | ⟨_, heof, -⟩ | ⟨_, _, v, w, x, hbyte, hv, hw, hx, ht⟩⟩ := eAdv_cases h
  · omega
  · simp [hread] at hwait
  · simp [hread] at heof
  · obtain ⟨rfl, rfl⟩ := Taken.byte.inj (hread.symm.trans hbyte)
    exact ⟨v, w, x, hv, hw, hx, ht⟩

/-- What an answered WIN_SET_MIRROR writes in a legal session. -/
theorem winSetMirror_writes {a : Nat} (hv : s.SessionInv) (h : winSetMirror s a c = .ok t) :
    ∃ win, t = s.withWin win ∧ Memory.read win a = some c ∧
      (a < s.par.f.toNat - 1 → Memory.read win (a + s.par.n.toNat) = some c) ∧
      ∀ i, i ≠ a → ¬ (i = a + s.par.n.toNat ∧ a < s.par.f.toNat - 1) → Memory.read win i = Memory.read s.win i := by
  obtain ⟨ha, hkey, -⟩ := winSetMirror_ok h
  obtain ⟨u, hu, hframe, hwritten⟩ := mirroredWriteKeepsTheCopy s a c hv ha hkey
  obtain rfl := Except.ok.inj (h.symm.trans hu)
  exact ⟨t.win, hframe, hwritten⟩

end

/-- Settles O52: the byte read is written at the old `S`, between the removal and the insertion (R318). -/
theorem advanceTakesOneByte : Obligations.AdvanceTakesOneByte := by
  intro s t c rest hv hq hscript hi heof hinput h
  have hpass : eAdv s = .ok t := by
    rw [step_eq_microStep hscript (by rw [hq]; rfl), outcomeOf_next] at h
    simpa only [microStep, hq] using h
  have hread := inRead_byte.2 ⟨heof, rest, hinput, rfl⟩
  obtain ⟨v, w, x, hremove, hw, hinsert, rfl⟩ := eAdv_pass hi hread hpass
  have hr := (mfRemove_frame hremove).1
  have hx := mfInsert_frame hinsert
  have henc : v.enc = s.enc := hr.enc
  have hpar : v.par = s.par := hr.par
  have hwin : v.win = s.win := hr.win
  have hvalid : v.SessionInv := by rw [State.SessionInv, hpar]; exact hv
  obtain ⟨win, rfl, hcell, hcopy, hother⟩ := winSetMirror_writes hvalid hw
  rw [henc] at hcell hcopy hother
  rw [hpar] at hcopy hother
  rw [hwin] at hother
  have hregisters : x.enc =
      { s.enc with s := wrapPos s (s.enc.s.toNat + 1), r := wrapPos s (s.enc.r.toNat + 1) } := by
    simp [hx.enc, advanceCursors, wrapPos, henc, hpar]
  have hwritten : x.win = win := hx.win
  have hhost : x.host = { s.host with input := rest } := hx.host.trans hr.host
  have hcount : x.inCount = s.inCount + 1 := hx.inCount.trans hr.inCount
  have hlabel : x.seq = .eAdv := hx.seq.trans (hr.seq.trans hq)
  have hpassed : (s.enc.i + 1).toNat = s.enc.i.toNat + 1 := by bv_omega
  simp only [State.withEnc_win, State.withEnc_enc, State.withEnc_host, State.withEnc_inCount, State.withEnc_seq,
    hwritten, hregisters, true_and]
  refine ⟨hcell, hcopy, hother, ?_, ?_, hpassed, hhost, hcount, hlabel⟩
  · rw [wrapPos_toNat hv, Session.wrap_eq_mod hv]
  · rw [wrapPos_toNat hv, Session.wrap_eq_mod hv]

end Sys2Proof.Machine
end

section
/-! PROOF. O48 and O49: E_TOKEN (spec/42_encoder.md R195 to R198). The match is clamped, one of the two packings writes the
token behind the group's bytes, and `tokenPacked` shifts the mask's bit, which is shifted out with the 8th token. -/

namespace Sys2Proof.Machine

section

variable {s u : State}

/-- The clamp makes the match's length the smaller of MLEN and LEN (R195). -/
theorem clampMatch_eq (s : State) : ∃ m : Pos, m.toNat = min s.found.mlen.toNat s.enc.len.toNat ∧
    clampMatch s = s.withFound { s.found with mlen := m } := by
  by_cases h : s.enc.len.toNat < s.found.mlen.toNat
  · exact ⟨s.enc.len, by omega, if_pos h⟩
  · exact ⟨s.found.mlen, by omega, if_neg h⟩

/-- The choice of R195. -/
theorem packToken_literal (h : s.found.mlen.toNat ≤ s.par.t.toNat) : packToken s = packLiteral s := if_pos h

theorem packToken_reference (h : s.par.t.toNat < s.found.mlen.toNat) : packToken s = packReference s :=
  if_neg (not_le.2 h)

theorem packLiteral_completes {b : Byte} (hp : s.enc.cbptr.toNat < 17) (hb : winGetLin s s.enc.r.toNat = .ok b) :
    packLiteral s = .ok ((s.withFound { s.found with mlen := 1 }).withEnc { s.enc with
      cb := (s.enc.cb.set 0 (setLiteralFlag s.enc.cb[0] s.enc.cmask)).set s.enc.cbptr.toNat b hp,
      cbptr := s.enc.cbptr + 1 }) :=
  bind_ok.2 ⟨_, groupRead_ok.2 ⟨by decide, rfl⟩, bind_ok.2 ⟨_, groupWrite_ok.2 ⟨by decide, rfl⟩,
    bind_ok.2 ⟨b, hb, bind_ok.2 ⟨_, groupWrite_ok.2 ⟨hp, rfl⟩, rfl⟩⟩⟩⟩

theorem packReference_completes (hp : s.enc.cbptr.toNat + 1 < 17) :
    packReference s = .ok (s.withEnc { s.enc with
      cb := (s.enc.cb.set s.enc.cbptr.toNat (packByte1 s.found.mpos)).set (s.enc.cbptr.toNat + 1)
        (packByte2 s.found.mpos s.found.mlen s.par.t),
      cbptr := s.enc.cbptr + 2 }) :=
  bind_ok.2 ⟨_, groupWrite_ok.2 ⟨Nat.lt_of_succ_lt hp, rfl⟩, bind_ok.2 ⟨_, groupWrite_ok.2 ⟨hp, rfl⟩, rfl⟩⟩

/-- Part 1 of E_TOKEN for a match of at most `T` bytes (R195, R196). -/
theorem packToken_clampMatch_literal {b : Byte} (hmatch : min s.found.mlen.toNat s.enc.len.toNat ≤ s.par.t.toNat)
    (hp : s.enc.cbptr.toNat < 17) (hb : winGetLin s s.enc.r.toNat = .ok b) :
    ∃ u, packToken (clampMatch s) = .ok u ∧ u.found.mlen = 1 ∧ u.win = s.win ∧ u.host = s.host ∧
      u.enc = { s.enc with
        cb := (s.enc.cb.set 0 (setLiteralFlag s.enc.cb[0] s.enc.cmask)).set s.enc.cbptr.toNat b hp,
        cbptr := s.enc.cbptr + 1 } := by
  obtain ⟨m, hm, hclamp⟩ := clampMatch_eq s
  rw [hclamp, packToken_literal (hm ▸ hmatch)]
  exact ⟨_, packLiteral_completes hp hb, rfl, rfl, rfl, rfl⟩

/-- Part 1 of E_TOKEN for a longer match (R195, R197). -/
theorem packToken_clampMatch_reference {m : Pos} (hm : m.toNat = min s.found.mlen.toNat s.enc.len.toNat)
    (hmatch : s.par.t.toNat < m.toNat) (hp : s.enc.cbptr.toNat + 1 < 17) :
    ∃ u, packToken (clampMatch s) = .ok u ∧ u.found.mlen = m ∧ u.win = s.win ∧ u.host = s.host ∧
      u.enc = { s.enc with
        cb := (s.enc.cb.set s.enc.cbptr.toNat (packByte1 s.found.mpos)).set (s.enc.cbptr.toNat + 1)
          (packByte2 s.found.mpos m s.par.t),
        cbptr := s.enc.cbptr + 2 } := by
  obtain ⟨m', hm', hclamp⟩ := clampMatch_eq s
  obtain rfl : m' = m := BitVec.eq_of_toNat_eq (hm'.trans hm.symm)
  rw [hclamp, packToken_reference (s := s.withFound { s.found with mlen := m' }) hmatch]
  exact ⟨_, packReference_completes (s := s.withFound { s.found with mlen := m' }) hp, rfl, rfl, rfl, rfl⟩

/-- Part 2 of E_TOKEN after token `k` of a group (R198). -/
theorem tokenPacked_of_bit {k : Nat} (hk : k < 8) (hmask : s.enc.cmask = 1#8 <<< k) : ∃ i,
    (tokenPacked s).enc = { s.enc with cmask := 1#8 <<< (k + 1), lastlen := s.found.mlen, i := i } ∧
    (tokenPacked s).seq = (if k = 7 then .eFlush else .eAdv) ∧ (tokenPacked s).win = s.win ∧
    (tokenPacked s).host = s.host := by
  have hshift : shiftMask s.enc.cmask = 1#8 <<< (k + 1) := by rw [hmask, shiftMask_bit]
  obtain ⟨h0, h⟩ | ⟨h0, h⟩ := tokenPacked_cases s <;> simp only [hshift, ne_eq, bit_shifted_out k hk] at h0 h <;> rw [h]
  · exact ⟨s.enc.i, rfl, (if_pos h0).symm, rfl, rfl⟩
  · exact ⟨0, rfl, (if_neg h0).symm, rfl, rfl⟩

/-- E_TOKEN as token `k` of a group, its part 1 being known. -/
theorem step_eToken {k : Nat} (hq : s.seq = .eToken) (hscript : s.host.script = []) (hk : k < 8)
    (hpack : packToken (clampMatch s) = .ok u) (hmask : u.enc.cmask = 1#8 <<< k) : ∃ t i, step s = .next t ∧
      t.enc = { u.enc with cmask := 1#8 <<< (k + 1), lastlen := u.found.mlen, i := i } ∧
      t.seq = (if k = 7 then .eFlush else .eAdv) ∧ t.win = u.win ∧ t.host = u.host := by
  obtain ⟨i, htoken⟩ := tokenPacked_of_bit hk hmask
  refine ⟨tokenPacked u, i, step_of_microStep hscript (by rw [hq]; rfl) ?_, htoken⟩
  simp only [microStep, hq]
  exact bind_ok.2 ⟨u, hpack, rfl⟩

end

/-- Settles O48: the clamped match is not longer than `T`, so the literal's packing runs. -/
theorem literalIsPacked : Obligations.LiteralIsPacked := by
  intro s b k _ hq hscript hk hgroup hmatch hr hread
  obtain ⟨hmask, hge, hle⟩ := hgroup
  have hp : s.enc.cbptr.toNat < 17 := by omega
  have hp0 : s.enc.cbptr.toNat ≠ 0 := by omega
  have hptr : (s.enc.cbptr + 1).toNat = s.enc.cbptr.toNat + 1 := by bv_omega
  obtain ⟨u, hpack, hlen, hwin, hhost, henc⟩ :=
    packToken_clampMatch_literal hmatch hp (winRead_ok.2 ⟨Session.lt_winSize hr, hread⟩)
  obtain ⟨t, i, hstep, henc', hseq, hwin', hhost'⟩ := step_eToken hq hscript hk hpack (by rw [henc]; exact hmask)
  refine ⟨t, hstep, ?_⟩
  simp only [groupHolds, henc', hseq, hwin', hhost', henc, hlen, hwin, hhost, hptr, Vector.getElem?_toList, and_true,
    true_and]
  refine ⟨?_, ?_, fun j _ h0 hj => ?_, ?_⟩
  · simp [hp0, setLiteralFlag]
  · rw [Vector.getElem?_set_self]
  · rw [Vector.getElem?_set_ne _ hj.symm, Vector.getElem?_set_ne _ h0.symm]
  · omega

/-- Settles O49: the clamped match is longer than `T`, so the reference's packing runs. -/
theorem referenceIsPacked : Obligations.ReferenceIsPacked := by
  intro s m k _ hq hscript hk hgroup hm hmatch
  obtain ⟨hmask, hge, hle⟩ := hgroup
  have hp : s.enc.cbptr.toNat + 1 < 17 := by omega
  have hptr : (s.enc.cbptr + 2).toNat = s.enc.cbptr.toNat + 2 := by bv_omega
  obtain ⟨u, hpack, hlen, hwin, hhost, henc⟩ := packToken_clampMatch_reference hm hmatch hp
  obtain ⟨t, i, hstep, henc', hseq, hwin', hhost'⟩ := step_eToken hq hscript hk hpack (by rw [henc]; exact hmask)
  refine ⟨t, hstep, ?_⟩
  simp only [groupHolds, henc', hseq, hwin', hhost', henc, hlen, hwin, hhost, hptr, Vector.getElem?_toList, and_true,
    true_and]
  refine ⟨?_, ?_, fun j _ hj hj' => ?_, ?_⟩
  · rw [Vector.getElem?_set_ne _ (Nat.succ_ne_self _), Vector.getElem?_set_self]
  · rw [Vector.getElem?_set_self]
  · rw [Vector.getElem?_set_ne _ hj'.symm, Vector.getElem?_set_ne _ hj.symm]
  · omega

end Sys2Proof.Machine
end

section
/-! PROOF. O50 and O51: the output loops of E_FLUSH and E_FINAL (spec/42_encoder.md R198, R202), which share
`outputGroupByte`. After `n` passes the first `n` bytes of the group are out. -/

namespace Sys2Proof.Machine

/-- At a label with an output loop: E_FLUSH, or E_FINAL with a group that holds a token (R198, R202). -/
def AtOutput (s : State) : Prop :=
  s.seq = .eFlush ∨ s.seq = .eFinal ∧ 1 < s.enc.cbptr.toNat

/-- The state after `n` passes of an output loop that began in `s`. -/
def groupSent (s : State) (n : Nat) : State :=
  ((s.withHost { s.host with
    credit := s.host.credit - n, output := s.host.output ++ s.enc.cb.toList.take n }).withOutCount
      (s.outCount + BitVec.ofNat 32 n)).withOutIdx (BitVec.ofNat 12 n)

section

variable {s : State} {n : Nat}

theorem groupSent_zero (hidx : s.outIdx = 0) : groupSent s 0 = s := by
  simp only [groupSent, Nat.sub_zero, List.take_zero, List.append_nil, BitVec.add_zero]
  exact congrArg s.withOutIdx hidx.symm

theorem groupSent_outIdx (hn : n ≤ 17) : (groupSent s n).outIdx.toNat = n :=
  Nat.mod_eq_of_lt (by omega)

theorem groupSent_succ (hn : n < 17) : groupSent s (n + 1) =
    (((groupSent s n).withHost { (groupSent s n).host with
      credit := s.host.credit - (n + 1), output := (groupSent s n).host.output ++ [s.enc.cb[n]] }).withOutCount
        ((groupSent s n).outCount + 1)).withOutIdx ((groupSent s n).outIdx + 1) := by
  have hbytes : s.enc.cb.toList.take (n + 1) = s.enc.cb.toList.take n ++ [s.enc.cb[n]] := by
    simp [List.take_add_one, hn]
  rw [groupSent, hbytes, BitVec.ofNat_add, BitVec.ofNat_add, ← List.append_assoc, ← BitVec.add_assoc]
  rfl

/-- One pass of an output loop (R91, R198). -/
theorem outputGroupByte_groupSent (hn : n < 17) (hcredit : n < s.host.credit) :
    outputGroupByte (groupSent s n) = .ok (groupSent s (n + 1)) := by
  have hread : groupRead (groupSent s n) (groupSent s n).outIdx.toNat = .ok s.enc.cb[n] := by
    rw [groupSent_outIdx hn.le]
    exact groupRead_ok.2 ⟨hn, rfl⟩
  have hleft : (groupSent s n).host.credit = s.host.credit - (n + 1) + 1 := by
    have hcount : (groupSent s n).host.credit = s.host.credit - n := rfl
    omega
  have hwrite := (outWrite_some (b := s.enc.cb[n])).2 ⟨_, hleft, rfl⟩
  refine bind_ok.2 ⟨_, hread, ?_⟩
  simp only [hwrite, groupSent_succ hn]
  rfl

theorem step_groupSent (hout : AtOutput s) (hscript : s.host.script = [])
    (hptr : s.enc.cbptr.toNat ≤ 17) (hcredit : s.enc.cbptr.toNat ≤ s.host.credit) (hn : n < s.enc.cbptr.toNat) :
    step (groupSent s n) = .next (groupSent s (n + 1)) := by
  have hidx : (groupSent s n).outIdx.toNat < (groupSent s n).enc.cbptr.toNat := by
    rw [groupSent_outIdx (by omega)]
    exact hn
  have hpass := outputGroupByte_groupSent (s := s) (n := n) (by omega) (by omega)
  obtain hq | ⟨hq, hmore⟩ := hout
  · have hlabel : (groupSent s n).seq = .eFlush := hq
    refine step_of_microStep hscript (by rw [hlabel]; rfl) ?_
    simp only [microStep, hlabel, eFlush, if_pos hidx, hpass]
  · have hlabel : (groupSent s n).seq = .eFinal := hq
    have hboth : 1 < (groupSent s n).enc.cbptr.toNat ∧ (groupSent s n).outIdx.toNat < (groupSent s n).enc.cbptr.toNat :=
      ⟨hmore, hidx⟩
    refine step_of_microStep hscript (by rw [hlabel]; rfl) ?_
    simp only [microStep, hlabel, eFinal, if_pos hboth, hpass]

theorem run_groupSent (hout : AtOutput s) (hscript : s.host.script = [])
    (hidx : s.outIdx = 0) (hptr : s.enc.cbptr.toNat ≤ 17) (hcredit : s.enc.cbptr.toNat ≤ s.host.credit) (k : Nat) :
    Sys2Proof.core.run (s.enc.cbptr.toNat + k) s = Sys2Proof.core.run k (groupSent s s.enc.cbptr.toNat) := by
  have hrun := run_add (f := groupSent s) (fun i hi => step_groupSent hout hscript hptr hcredit hi) k
  rwa [groupSent_zero hidx] at hrun

/-- E_FLUSH with the whole group out (R198). -/
theorem step_eFlush_end (hq : s.seq = .eFlush) (hscript : s.host.script = [])
    (hidx : s.enc.cbptr.toNat ≤ s.outIdx.toNat) : step s = .next (gotoAdv (emptyGroup s)) :=
  step_of_microStep hscript (by rw [hq]; rfl) (by simp only [microStep, hq, eFlush, if_neg (not_lt.2 hidx)])

/-- E_FINAL writes the group's bytes when it holds a token, and ends the session (R202). -/
theorem run_eFinal (hq : s.seq = .eFinal) (hscript : s.host.script = []) (hidx : s.outIdx = 0)
    (hptr : s.enc.cbptr.toNat ≤ 17) (hn : n = if 1 < s.enc.cbptr.toNat then s.enc.cbptr.toNat else 0)
    (hcredit : n ≤ s.host.credit) :
    Sys2Proof.core.run (n + 1) s = .next (finish .encComplete (groupSent s n)) := by
  by_cases hmore : 1 < s.enc.cbptr.toNat
  · obtain rfl := hn.trans (if_pos hmore)
    have hsent : (groupSent s s.enc.cbptr.toNat).outIdx.toNat = s.enc.cbptr.toNat := groupSent_outIdx hptr
    have hend := step_eFinal_end (s := groupSent s s.enc.cbptr.toNat) hq hscript fun ⟨_, hless⟩ => hless.ne hsent
    exact (run_groupSent (.inr ⟨hq, hmore⟩) hscript hidx hptr hcredit 1).trans (run_succ hend 0)
  · obtain rfl := hn.trans (if_neg hmore)
    rw [groupSent_zero hidx]
    exact run_succ (step_eFinal_end hq hscript fun ⟨hfull, _⟩ => hmore hfull) 0

end

/-- Settles O50: one pass for each byte of the group, and the end of the loop. -/
theorem fullGroupIsFlushed : Obligations.FullGroupIsFlushed := by
  intro s spare hq hscript hidx hgroup hcredit
  obtain ⟨-, -, hptr⟩ := hgroup
  have hsent : (groupSent s s.enc.cbptr.toNat).outIdx.toNat = s.enc.cbptr.toNat := groupSent_outIdx hptr
  have hend := step_eFlush_end (s := groupSent s s.enc.cbptr.toNat) hq hscript hsent.ge
  have hrun := (run_groupSent (.inl hq) hscript hidx hptr (by omega) 1).trans (run_succ hend 0)
  have hspare : s.host.credit - s.enc.cbptr.toNat = spare := by omega
  refine ⟨_, hrun, rfl, rfl, ?_, rfl, rfl, rfl, rfl, rfl, rfl, rfl, rfl, rfl⟩
  rw [← hspare]
  rfl

/-- Settles O51: the bytes to write are the group's first `n`, with `n` 0 for an empty group. -/
theorem lastGroupIsWrittenAndTheSessionEnds : Obligations.LastGroupIsWrittenAndTheSessionEnds := by
  intro s k spare hq hscript hidx hk hgroup bytes hcredit
  obtain ⟨-, -, hptr⟩ := hgroup
  have hlength : bytes.length = if 1 < s.enc.cbptr.toNat then s.enc.cbptr.toNat else 0 := by
    simp only [bytes]
    split
    · rw [List.length_take, Vector.length_toList]
      omega
    · rfl
  have hbytes : bytes = s.enc.cb.toList.take bytes.length := by
    rw [hlength]
    simp only [bytes]
    split <;> rfl
  have hspare : s.host.credit - bytes.length = spare := by omega
  have hsent : (groupSent s bytes.length).host =
      { s.host with credit := spare, output := s.host.output ++ bytes } := by
    rw [groupSent, ← hbytes, hspare]
    rfl
  exact ⟨_, run_eFinal hq hscript hidx (by omega) hlength (by omega), rfl, hsent, rfl, rfl⟩

end Sys2Proof.Machine
end

section
/-! SUPPORT. A session that the host leaves alone, at the labels of the decoder (spec/10_state.md R63, R126): the next
byte of a segment, the token of a whole segment, or the label's micro-operation; and runs one after the other. -/

namespace Sys2Proof.Machine

section

variable {s t : State} {f : Format}

theorem step_eq_engineStep (hscript : s.host.script = []) : step s = engineStep s := by
  simp only [step, hscript]

/-- At a label that reads no segment. -/
theorem step_of_label (hscript : s.host.script = []) (hf : segmentFormat s.seq = none) (h : microStep s = .ok t) :
    step s = .next t := by
  have hfetched : fetched s = none := by simp only [fetched, hf]
  rw [step_eq_engineStep hscript]
  simp only [engineStep, hfetched, h, outcomeOf]

/-- At a label whose segment is not whole. -/
theorem step_fetch (hscript : s.host.script = []) (hf : segmentFormat s.seq = some f) (hlen : s.seg.length < f.length) :
    step s = .next (fetchByte f s) := by
  have hfetched : fetched s = none := by simp only [fetched, hf, if_neg (not_le.2 hlen)]
  rw [step_eq_engineStep hscript]
  simp only [engineStep, hfetched, microStep_of_format hf, outcomeOf]

/-- At a label whose segment is whole. -/
theorem step_token {i : Instr} (hscript : s.host.script = []) (hf : segmentFormat s.seq = some f)
    (hi : takeSegment f s.seg = .ok (i, [])) (hlen : f.length ≤ s.seg.length) : step s = exec i s := by
  have hfetched : fetched s = some (.segment f s.seg) := by simp only [fetched, hf, if_pos hlen]
  rw [step_eq_engineStep hscript, engineStep_of_decode hfetched (decode_segment_iff.2 hi)]

/-- The end of the stream ends the session, with the reason of the segment that it cuts off or keeps from starting
(R237). -/
theorem step_eof {u : State} (hscript : s.host.script = []) (hf : segmentFormat s.seq = some f)
    (hlen : s.seg.length < f.length) (hread : inRead s = .eof u) :
    step s = .next (finish (endReasonOf f s.seg) u) := by
  rw [step_fetch hscript hf hlen]
  simp only [fetchByte, hread]

theorem run_of_run {j : Nat} (h : Sys2Proof.core.run j s = .next t) (k : Nat) :
    Sys2Proof.core.run (j + k) s = Sys2Proof.core.run k t := by
  induction j generalizing s with
  | zero => cases h; rw [Nat.zero_add]
  | succ j ih =>
    cases hstep : step s with
    | next u =>
      rw [run_succ hstep] at h
      rw [Nat.add_right_comm, run_succ hstep]
      exact ih h
    | fault e =>
      have hfault : Sys2Proof.core.step s = .fault e := hstep
      simp [Host.Core.run, hfault] at h
    | refused r =>
      have hrefused : Sys2Proof.core.step s = .refused r := hstep
      simp [Host.Core.run, hrefused] at h

end

end Sys2Proof.Machine
end

section
/-! SUPPORT. A byte of the decoder's output (spec/43_decoder.md R234, R236): the state after `OutWrite(c)`,
`WIN_SET_CIRC(WR, c)` and the advance of `WR`, which a literal and a pass of the copy share. -/

namespace Sys2Proof.Machine

/-- The state after byte `c` is out, in the window, and the cursor past it. -/
def byteEmitted (c : Byte) (s : State) : State :=
  advanceWrite (((s.withHost { s.host with
    credit := s.host.credit - 1, output := s.host.output ++ [c] }).withOutCount (s.outCount + 1)).withWin
      (Memory.write s.win (s.par.wrap s.dec.wr.toNat) c))

section

variable {s : State} {c : Byte}

theorem cursor_lt_winSize (hv : s.SessionInv) : s.par.wrap s.dec.wr.toNat < s.par.winSize :=
  Session.lt_winSize (Session.wrap_lt hv _)

theorem emitByte_eq (hcursor : s.par.wrap s.dec.wr.toNat < s.par.winSize) (hcredit : 0 < s.host.credit)
    (after : State → State) : emitByte c after s = .ok (after (byteEmitted c s)) :=
  emitByte_completes (Nat.sub_add_cancel hcredit).symm hcursor

theorem read_byteEmitted (c : Byte) (s : State) (a : Nat) : Memory.read (byteEmitted c s).win a =
    if a = s.par.wrap s.dec.wr.toNat then some c else Memory.read s.win a :=
  Memory.read_write s.win _ a c

theorem byteEmitted_wr (hv : s.SessionInv) : (byteEmitted c s).dec.wr.toNat = s.par.wrap (s.dec.wr.toNat + 1) :=
  wrapPos_toNat hv _

theorem byteEmitted_host {n : Nat} (hn : s.host.credit = n + 1) :
    (byteEmitted c s).host = { s.host with credit := n, output := s.host.output ++ [c] } := by
  have hleft : s.host.credit - 1 = n := by omega
  rw [← hleft]
  rfl

/-- A literal's byte is emitted, and D_NEXT comes next (R234). -/
theorem execLit_eq (hv : s.SessionInv) (hcredit : 0 < s.host.credit) :
    exec (.lit c) s = .next (((byteEmitted c s).withSeg []).goto .dNext) :=
  congrArg outcomeOf (emitByte_eq (cursor_lt_winSize hv) hcredit _)

theorem winGetCirc_of_read {i : Nat} (hv : s.SessionInv) (hread : Memory.read s.win (s.par.wrap i) = some c) :
    winGetCirc s i = .ok c :=
  winRead_ok.2 ⟨Session.lt_winSize (Session.wrap_lt hv _), hread⟩

/-- One pass of the copy emits the byte that the window holds now (R236, R94). -/
theorem step_dCopy_pass (hv : s.SessionInv) (hq : s.seq = .dCopy) (hscript : s.host.script = [])
    (hk : s.dec.k.toNat ≤ s.dec.l.toNat) (hcredit : 0 < s.host.credit)
    (hread : Memory.read s.win (s.par.wrap (s.dec.dist.toNat + s.dec.k.toNat)) = some c) :
    step s = .next (advanceCopy (byteEmitted c s)) := by
  refine step_of_label hscript (by rw [hq]; rfl) ?_
  simp only [microStep, hq, dCopy, if_pos hk]
  exact bind_ok.2 ⟨c, winGetCirc_of_read hv hread, emitByte_eq (cursor_lt_winSize hv) hcredit _⟩

/-- The end of the copy's loop (R236). -/
theorem step_dCopy_end (hq : s.seq = .dCopy) (hscript : s.host.script = []) (hk : s.dec.l.toNat < s.dec.k.toNat) :
    step s = .next (s.goto .dNext) :=
  step_of_label hscript (by rw [hq]; rfl) (by simp only [microStep, hq, dCopy, if_neg (not_le.2 hk)])

theorem advanceCopy_k (hk : s.dec.k.toNat < 4095) : (advanceCopy s).dec.k.toNat = s.dec.k.toNat + 1 :=
  (BitVec.toNat_ofNat _ _).trans (Nat.mod_eq_of_lt (by omega))

end

end Sys2Proof.Machine
end

section
/-! SUPPORT. What the decoder does between two points of a session, in the terms of the listing (spec/43_decoder.md
R242): the bytes it has taken and given, and its registers and window. -/

namespace Sys2Proof.Machine

/-- From `s` to `t` the engine takes the bytes `taken`, gives the bytes `given`, and the session goes on. -/
structure Exchanged (s t : State) (taken given : List Byte) : Prop where
  par : t.par = s.par
  status : t.status = s.status
  inEof : t.inEof = s.inEof
  host : t.host = { s.host with
    input := t.host.input, credit := t.host.credit, output := s.host.output ++ given }
  input : s.host.input = taken.map Item.byte ++ t.host.input
  credit : s.host.credit = t.host.credit + given.length
  inCount : t.inCount = s.inCount + BitVec.ofNat 32 taken.length
  outCount : t.outCount = s.outCount + BitVec.ofNat 32 given.length

/-- A legal session that the host leaves alone, at label `q` with `seg` in the latch, whose FLAGS, write cursor and
window are those of the listing. -/
structure Stands (q : Seq) (seg : List Byte) (flags : BitVec 16) (wr : Nat) (win : Nat → Byte) (s : State) : Prop where
  legal : s.SessionInv
  script : s.host.script = []
  label : s.seq = q
  latch : s.seg = seg
  flags : s.dec.flags = flags
  cursor : s.dec.wr.toNat = wr
  bound : wr < s.par.n.toNat
  window : ∀ i < s.par.n.toNat, Memory.read s.win i = some (win i)

section

variable {s t u : State} {taken taken' given given' : List Byte} {c : Byte}

theorem Exchanged.trans (h : Exchanged s t taken given) (k : Exchanged t u taken' given') :
    Exchanged s u (taken ++ taken') (given ++ given') where
  par := k.par.trans h.par
  status := k.status.trans h.status
  inEof := k.inEof.trans h.inEof
  host := by rw [k.host, h.host, List.append_assoc]
  input := by rw [h.input, k.input, List.map_append, List.append_assoc]
  credit := by rw [h.credit, k.credit, List.length_append]; omega
  inCount := by rw [k.inCount, h.inCount, List.length_append, BitVec.ofNat_add, BitVec.add_assoc]
  outCount := by rw [k.outCount, h.outCount, List.length_append, BitVec.ofNat_add, BitVec.add_assoc]

/-- A change of the registers, the latch and the label alone. -/
theorem exchanged_registers (s : State) (dec : Decoder) (seg : List Byte) (q : Seq) :
    Exchanged s (((s.withDec dec).withSeg seg).goto q) [] [] where
  par := rfl
  status := rfl
  inEof := rfl
  host := by rw [List.append_nil]; rfl
  input := rfl
  credit := rfl
  inCount := (BitVec.add_zero _).symm
  outCount := (BitVec.add_zero _).symm

theorem exchanged_byteEmitted (hcredit : 0 < s.host.credit) : Exchanged s (byteEmitted c s) [] [c] where
  par := rfl
  status := rfl
  inEof := rfl
  host := rfl
  input := rfl
  credit := (Nat.sub_add_cancel hcredit).symm
  inCount := (BitVec.add_zero _).symm
  outCount := rfl

variable {q : Seq} {seg : List Byte} {flags : BitVec 16} {wr : Nat} {win : Nat → Byte}

theorem Stands.wrap_wr (hs : Stands q seg flags wr win s) : s.par.wrap s.dec.wr.toNat = wr := by
  rw [hs.cursor, Session.wrap_eq_mod hs.legal, Nat.mod_eq_of_lt hs.bound]

theorem Stands.read_wrap (hs : Stands q seg flags wr win s) (i : Nat) :
    Memory.read s.win (s.par.wrap i) = some (win (s.par.wrap i)) :=
  hs.window _ (Session.wrap_lt hs.legal i)

theorem Stands.emitted (hs : Stands q seg flags wr win s) (c : Byte) :
    Stands q seg flags (s.par.wrap (wr + 1)) (setCell win wr c) (byteEmitted c s) where
  legal := hs.legal
  script := hs.script
  label := hs.label
  latch := hs.latch
  flags := hs.flags
  cursor := by rw [byteEmitted_wr hs.legal, hs.cursor]
  bound := Session.wrap_lt hs.legal _
  window i hi := by
    rw [read_byteEmitted, hs.wrap_wr, hs.window i hi, setCell]
    split <;> rfl

/-- A change of the registers that keeps the cursor, of the latch and of the label. -/
theorem Stands.registers {dec : Decoder} {flags' : BitVec 16} (hs : Stands q seg flags wr win s)
    (hflags : dec.flags = flags') (hwr : dec.wr = s.dec.wr) (seg' : List Byte) (q' : Seq) :
    Stands q' seg' flags' wr win (((s.withDec dec).withSeg seg').goto q') where
  legal := hs.legal
  script := hs.script
  label := rfl
  latch := rfl
  flags := hflags
  cursor := (congrArg BitVec.toNat hwr).trans hs.cursor
  bound := hs.bound
  window := hs.window

end

end Sys2Proof.Machine
end

section
/-! PROOF. O31: the copy (spec/43_decoder.md R236, R94), pass by pass. -/

namespace Sys2Proof.Machine

theorem length_copyBytes (mask n src wr : Nat) (win : Nat → Byte) : (copyBytes mask n src wr win).1.length = n := by
  induction n generalizing src wr win with
  | zero => rfl
  | succ n ih => exact congrArg (· + 1) (ih _ _ _)

/-- With `n` bytes of the copy to come, and what the passes before have left in the window. -/
theorem run_copy {n wr : Nat} {seg : List Byte} {flags : BitVec 16} {win : Nat → Byte} {s : State}
    (hs : Stands .dCopy seg flags wr win s) (hl : s.dec.l.toNat < 4095) (hn : s.dec.k.toNat + n = s.dec.l.toNat + 1)
    (hcredit : n ≤ s.host.credit) :
    let copy := copyBytes s.par.mask n (s.dec.dist.toNat + s.dec.k.toNat) wr win
    ∃ t : State, Sys2Proof.core.run (n + 1) s = .next t ∧ Exchanged s t [] copy.1 ∧
      Stands .dNext seg flags copy.2.1 copy.2.2 t := by
  induction n generalizing s wr win with
  | zero =>
    obtain rfl := hs.latch
    exact ⟨_, run_succ (step_dCopy_end hs.label hs.script (by omega)) 0, exchanged_registers s s.dec s.seg .dNext,
      hs.registers (dec := s.dec) hs.flags rfl s.seg .dNext⟩
  | succ n ih =>
    obtain ⟨hpaid, hk⟩ : 0 < s.host.credit ∧ s.dec.k.toNat ≤ s.dec.l.toNat := by omega
    have hread := hs.read_wrap (s.dec.dist.toNat + s.dec.k.toNat)
    have hstep := step_dCopy_pass hs.legal hs.label hs.script hk hpaid hread
    generalize hc : win (s.par.wrap (s.dec.dist.toNat + s.dec.k.toNat)) = c at hstep
    let u := advanceCopy (byteEmitted c s)
    have hcount : u.dec.k.toNat = s.dec.k.toNat + 1 := advanceCopy_k (s := byteEmitted c s) (lt_of_le_of_lt hk hl)
    have hgiven : Exchanged s u [] [c] :=
      (exchanged_byteEmitted hpaid).trans (exchanged_registers (byteEmitted c s) u.dec s.seg s.seq)
    have hstands : Stands .dCopy seg flags (s.par.wrap (wr + 1)) (setCell win wr c) u := by
      rw [← hs.latch, ← hs.label]
      exact (hs.emitted c).registers (dec := u.dec) hs.flags rfl s.seg s.seq
    obtain ⟨t, hrun, hexchanged, hdone⟩ := ih hstands hl (by rw [hcount]; exact (Nat.add_right_comm _ 1 n).trans hn)
      (Nat.le_sub_one_of_lt hcredit)
    rw [hcount] at hexchanged hdone
    subst hc
    exact ⟨t, (run_succ hstep _).trans hrun, hgiven.trans hexchanged, hdone⟩

/-- Settles O31: `L + 1` passes are to come from `K = 0`. -/
theorem copyRunsToItsEnd : Obligations.CopyRunsToItsEnd := by
  intro s win spare hv hq hscript hk hl hbound hcredit hwindow copy
  have hzero : s.dec.k.toNat = 0 := by rw [hk]; rfl
  obtain ⟨t, hrun, hexchanged, hdone⟩ := run_copy (n := s.dec.l.toNat + 1)
    ⟨hv, hscript, hq, rfl, rfl, rfl, hbound, hwindow⟩ hl (by omega) (by omega)
  rw [hzero, Nat.add_zero] at hexchanged hdone
  have hlength : copy.1.length = s.dec.l.toNat + 1 := length_copyBytes _ _ _ _ _
  have hspare : t.host.credit = spare := by
    have hspent : s.host.credit = t.host.credit + copy.1.length := hexchanged.credit
    omega
  refine ⟨t, hrun, hdone.label, ?_, hlength, hdone.cursor, fun i hi => hdone.window i (hexchanged.par ▸ hi),
    hdone.flags⟩
  rw [hexchanged.host, hspare, show t.host.input = s.host.input from hexchanged.input.symm]
  rfl

end Sys2Proof.Machine
end

section
/-! SUPPORT. The operands of a reference as numbers (spec/30_encoding.md R114, spec/43_decoder.md R235). -/

namespace Sys2Proof

theorem posOf_toNat (b1 b2 : Byte) : (posOf b1 b2).toNat = b1.toNat ||| ((b2.toNat &&& 0xF0) <<< 4) := by
  have hb1 := b1.isLt
  have hb2 : b2.toNat &&& 0xF0 ≤ 0xF0 := Nat.and_le_right
  have hupper : ((b2.toNat &&& 0xF0) <<< 4) % 2 ^ 12 = (b2.toNat &&& 0xF0) <<< 4 :=
    Nat.mod_eq_of_lt (by rw [Nat.shiftLeft_eq]; omega)
  simp only [posOf, BitVec.toNat_or, BitVec.toNat_shiftLeft, BitVec.toNat_setWidth, BitVec.toNat_and]
  rw [Nat.mod_eq_of_lt (show b1.toNat < 2 ^ 12 by omega),
    Nat.mod_eq_of_lt (show b2.toNat &&& (0xF0#8).toNat < 2 ^ 12 from lt_of_le_of_lt hb2 (by decide))]
  exact congrArg (b1.toNat ||| ·) hupper

theorem lnOf_toNat (b2 : Byte) : (lnOf b2).toNat = b2.toNat &&& 0x0F := by
  rw [lnOf, BitVec.toNat_setWidth]
  exact (Nat.and_two_pow_sub_one_eq_mod b2.toNat 4).symm

end Sys2Proof

namespace Sys2Proof.Machine

/-- `LN + T` fits its register, for `T` is below half the window (R283). -/
theorem copyLast_toNat {p : Session} (hp : p.valid = true) (ln : BitVec 4) :
    (copyLast ln p.t).toNat = ln.toNat + p.t.toNat ∧ ln.toNat + p.t.toNat < 4095 := by
  obtain ⟨⟨-, hn⟩, -, -, ⟨-, htf⟩, -, hf⟩ := Session.valid_iff.1 hp
  have hln := ln.isLt
  have hsum : ln.toNat + p.t.toNat < 4095 := by omega
  exact ⟨(BitVec.toNat_ofNat _ _).trans (Nat.mod_eq_of_lt (by omega)), hsum⟩

end Sys2Proof.Machine
end

section
/-! PROOF. O32: a whole session against the listing of spec/43_decoder.md R242. One part of the listing after the other,
the engine passes from label to label with the listing's FLAGS, cursor and window, having taken and given what the
listing reads and writes; where the bytes end it stops at an `InRead` that ends the session with the listing's reason. -/

namespace Sys2Proof.Machine

/-! The listing, in the decoder's terms. -/

/-- The listing from the choice of the token on, FLAGS being shifted or loaded (R233). -/
def listingToken (p : Session) (fuel : Nat) (flags : BitVec 16) (wr : Nat) (win : Nat → Byte) (bytes : List Byte) :
    List Byte × EndReason :=
  if flags.getLsbD 0 = true then
    match bytes with
    | [] => ([], .eofAtLit)
    | b :: bytes =>
      let rest := listing p fuel flags (p.wrap (wr + 1)) (setCell win wr b) bytes
      ([b] ++ rest.1, rest.2)
  else
    match bytes with
    | [] => ([], .eofAtB1)
    | [_] => ([], .eofAtB2)
    | b1 :: b2 :: bytes =>
      let copy := copyBytes p.mask ((lnOf b2).toNat + p.t.toNat + 1) (posOf b1 b2).toNat wr win
      let rest := listing p fuel flags copy.2.1 copy.2.2 bytes
      (copy.1 ++ rest.1, rest.2)

section

variable {p : Session} {fuel wr : Nat} {flags : BitVec 16} {win : Nat → Byte}

theorem flagsUsedUp_iff : flagsUsedUp flags = true ↔ flags.getLsbD 8 = false := by
  simp [flagsUsedUp]

/-- The listing with the flags used up and no control byte left (R237). -/
theorem listing_control_nil (h : flagsUsedUp (shiftFlags flags) = true) :
    listing p (fuel + 1) flags wr win [] = ([], .eofAtCtrl) := by
  have hbit := flagsUsedUp_iff.1 h
  simp only [shiftFlags] at hbit
  simp only [listing, hbit, if_true]

theorem listing_token (h : ¬ flagsUsedUp (shiftFlags flags) = true) (bytes : List Byte) :
    listing p (fuel + 1) flags wr win bytes = listingToken p fuel (shiftFlags flags) wr win bytes := by
  have hbit := mt flagsUsedUp_iff.2 h
  simp only [shiftFlags] at hbit ⊢
  simp only [listing, listingToken, hbit, lnOf_toNat, posOf_toNat]
  rfl

theorem listing_control (h : flagsUsedUp (shiftFlags flags) = true) (c : Byte) (bytes : List Byte) :
    listing p (fuel + 1) flags wr win (c :: bytes) = listingToken p fuel (loadFlags c) wr win bytes := by
  have hbit := flagsUsedUp_iff.1 h
  simp only [shiftFlags] at hbit
  simp only [listing, listingToken, hbit, if_true, lnOf_toNat, posOf_toNat]
  rfl

end

/-! The engine, from label to label. -/

/-- The engine passes from `s` to `t`, taking and giving these bytes. -/
structure Passes (s t : State) (taken given : List Byte) : Prop where
  run : ∃ k, Sys2Proof.core.run k s = .next t
  exchanged : Exchanged s t taken given

/-- The bytes still to come, and what the host has offered after them. -/
def Offers (rest : List Item) (bytes : List Byte) (s : State) : Prop :=
  s.inEof = false ∧ s.host.input = bytes.map Item.byte ++ rest

/-- The engine takes these bytes and gives those of `result`, and then the end marker ends the session as `result`
says. -/
def Ends (s : State) (bytes : List Byte) (result : List Byte × EndReason) : Prop :=
  ∃ u, Passes s u bytes result.1 ∧ ∀ v, inRead u = .eof v → step u = .next (finish result.2 v)

/-- The state after `InRead` has taken a byte. -/
def byteTaken (s : State) : State :=
  (s.withHost { s.host with input := s.host.input.tail }).withInCount (s.inCount + 1)

section

variable {s t u : State} {taken taken' given given' bytes : List Byte} {rest : List Item} {b b1 b2 c : Byte}
  {f : Format} {q : Seq} {seg : List Byte} {flags : BitVec 16} {wr : Nat} {win : Nat → Byte}

theorem passes_of_step (h : step s = .next t) (hx : Exchanged s t taken given) : Passes s t taken given :=
  ⟨⟨1, run_succ h 0⟩, hx⟩

theorem Passes.trans (h : Passes s t taken given) (k : Passes t u taken' given') :
    Passes s u (taken ++ taken') (given ++ given') := by
  obtain ⟨⟨i, hi⟩, hx⟩ := h
  obtain ⟨⟨j, hj⟩, kx⟩ := k
  exact ⟨⟨i + j, (run_of_run hi j).trans hj⟩, hx.trans kx⟩

theorem Passes.ends {result : List Byte × EndReason} (h : Passes s t taken given) (k : Ends t bytes result) :
    Ends s (taken ++ bytes) (given ++ result.1, result.2) := by
  obtain ⟨u, hu, hend⟩ := k
  exact ⟨u, h.trans hu, hend⟩

theorem Exchanged.offers (h : Exchanged s t taken given) (ho : Offers rest (taken ++ bytes) s) :
    Offers rest bytes t := by
  obtain ⟨heof, hinput⟩ := ho
  refine ⟨h.inEof.trans heof, ?_⟩
  rw [h.input, List.map_append, List.append_assoc] at hinput
  exact List.append_cancel_left hinput

theorem Offers.inRead (ho : Offers rest (b :: bytes) s) : inRead s = .byte b (byteTaken s) := by
  obtain ⟨heof, hinput⟩ := ho
  refine inRead_byte.2 ⟨heof, _, hinput, ?_⟩
  rw [byteTaken, hinput]
  rfl

theorem Offers.exchanged (ho : Offers rest (b :: bytes) s) : Exchanged s (byteTaken s) [b] [] where
  par := rfl
  status := rfl
  inEof := rfl
  host := by rw [List.append_nil]; rfl
  input := by rw [byteTaken, ho.2]; rfl
  credit := rfl
  inCount := rfl
  outCount := (BitVec.add_zero _).symm

theorem latchByte_flags (f : Format) (b : Byte) (s : State) : (latchByte f b s).dec.flags = s.dec.flags := by
  unfold latchByte
  split <;> rfl

/-- The next byte of a segment goes into the latch (R233 to R235). -/
theorem Stands.fetch (hs : Stands q seg flags wr win s) (hf : segmentFormat q = some f) (hlen : seg.length < f.length)
    (ho : Offers rest (b :: bytes) s) : ∃ t, Passes s t [b] [] ∧ Stands q (seg ++ [b]) flags wr win t := by
  let t := latchByte f b (byteTaken s)
  have hstep : step s = .next t := by
    rw [step_fetch hs.script (hs.label ▸ hf) (hs.latch ▸ hlen)]
    simp only [fetchByte, ho.inRead, t]
  have htaken : Stands q seg flags wr win (byteTaken s) :=
    ⟨hs.legal, hs.script, hs.label, hs.latch, hs.flags, hs.cursor, hs.bound, hs.window⟩
  refine ⟨t, passes_of_step hstep (ho.exchanged.trans (exchanged_registers (byteTaken s) t.dec t.seg s.seq)), ?_⟩
  rw [← hs.label, ← hs.latch]
  exact htaken.registers (dec := t.dec) ((latchByte_flags f b _).trans hs.flags) (latchByte_wr f b _) t.seg s.seq

/-- Where the stream ends (R237). -/
theorem Stands.ends (hs : Stands q seg flags wr win s) (hf : segmentFormat q = some f) (hlen : seg.length < f.length) :
    Ends s [] ([], endReasonOf f seg) := by
  obtain rfl := hs.latch
  exact ⟨s, ⟨⟨0, rfl⟩, exchanged_registers s s.dec s.seg s.seq⟩, fun _ hread =>
    step_eof hs.script (hs.label ▸ hf) hlen hread⟩

/-- A whole segment runs its token. -/
theorem Stands.runs {i : Instr} (hs : Stands q seg flags wr win s) (hf : segmentFormat q = some f)
    (hi : takeSegment f seg = .ok (i, [])) (hlen : f.length ≤ seg.length) : step s = exec i s :=
  step_token hs.script (hs.label ▸ hf) (hs.latch ▸ hi) (hs.latch ▸ hlen)

theorem Stands.next (hs : Stands .dNext [] flags wr win s) :
    Passes s (dNext s) [] [] ∧ Stands (nextLabel (shiftFlags flags)) [] (shiftFlags flags) wr win (dNext s) := by
  have hflags : (dNext s).dec.flags = shiftFlags flags := congrArg shiftFlags hs.flags
  have hstep : step s = .next (dNext s) :=
    step_of_label hs.script (by rw [hs.label]; rfl) (by simp only [microStep, hs.label])
  refine ⟨passes_of_step hstep (exchanged_registers s (dNext s).dec s.seg (dNext s).seq), ?_⟩
  rw [← hs.latch, ← hflags]
  exact hs.registers (dec := (dNext s).dec) rfl rfl s.seg (dNext s).seq

theorem Stands.control (hs : Stands .dCtrl [] flags wr win s) (ho : Offers rest (c :: bytes) s) :
    ∃ t, Passes s t [c] [] ∧ Stands (tokenLabel (loadFlags c)) [] (loadFlags c) wr win t := by
  obtain ⟨u, hread, hu⟩ := hs.fetch (f := .wCtrl) rfl Nat.one_pos ho
  have hstep : step u = exec (.ctrl c) u := hu.runs rfl rfl le_rfl
  exact ⟨_, hread.trans (passes_of_step hstep (exchanged_registers u { u.dec with flags := loadFlags c } [] _)),
    hu.registers (dec := { u.dec with flags := loadFlags c }) rfl rfl [] _⟩

theorem Stands.literal (hs : Stands .dLit [] flags wr win s) (ho : Offers rest (b :: bytes) s)
    (hcredit : 0 < s.host.credit) :
    ∃ t, Passes s t [b] [b] ∧ Stands .dNext [] flags (s.par.wrap (wr + 1)) (setCell win wr b) t := by
  obtain ⟨u, hread, hu⟩ := hs.fetch (f := .wLit) rfl Nat.one_pos ho
  have hpaid : 0 < u.host.credit := hcredit.trans_eq hread.exchanged.credit
  have hstep : step u = exec (.lit b) u := hu.runs rfl rfl le_rfl
  have hgiven := (exchanged_byteEmitted (c := b) hpaid).trans
    (exchanged_registers (byteEmitted b u) (byteEmitted b u).dec [] .dNext)
  rw [← hread.exchanged.par]
  exact ⟨_, hread.trans (passes_of_step (hstep.trans (execLit_eq hu.legal hpaid)) hgiven),
    (hu.emitted b).registers (dec := (byteEmitted b u).dec) hu.flags rfl [] .dNext⟩

/-- The registers after REF (R235). -/
def assembled (b1 b2 : Byte) (s : State) : Decoder :=
  { s.dec with
    b1 := refByte1 (posOf b1 b2), b2 := refByte2 (posOf b1 b2) (lnOf b2), dist := posOf b1 b2,
    l := copyLast (lnOf b2) s.par.t, k := 0 }

/-- Both bytes of a reference, its operands, and the whole copy (R235, R236). -/
theorem Stands.reference (hs : Stands .dRef [] flags wr win s) (ho : Offers rest (b1 :: b2 :: bytes) s)
    (hcredit : (lnOf b2).toNat + s.par.t.toNat + 1 ≤ s.host.credit) :
    let copy := copyBytes s.par.mask ((lnOf b2).toNat + s.par.t.toNat + 1) (posOf b1 b2).toNat wr win
    ∃ t, Passes s t [b1, b2] copy.1 ∧ Stands .dNext [] flags copy.2.1 copy.2.2 t := by
  obtain ⟨u, hfirst, hu⟩ := hs.fetch (f := .wRef) rfl Nat.two_pos ho
  obtain ⟨v, hsecond, hv⟩ := hu.fetch (f := .wRef) rfl Nat.one_lt_two (hfirst.exchanged.offers (taken := [b1]) ho)
  have hstep : step v = exec (.ref (posOf b1 b2) (lnOf b2)) v := hv.runs rfl rfl le_rfl
  have hread := (hfirst.trans hsecond).trans
    (passes_of_step hstep (exchanged_registers v (assembled b1 b2 v) [] .dCopy))
  have hcopy := hv.registers (dec := assembled b1 b2 v) hv.flags rfl [] .dCopy
  obtain ⟨hlast, hbound⟩ := copyLast_toNat hv.legal (lnOf b2)
  rw [← show v.par = s.par from hread.exchanged.par] at hcredit ⊢
  obtain ⟨t, hrun, hgiven, hdone⟩ := run_copy (n := (lnOf b2).toNat + v.par.t.toNat + 1) hcopy (hlast.trans_lt hbound)
    ((Nat.zero_add _).trans (congrArg (· + 1) hlast.symm)) (hcredit.trans_eq hread.exchanged.credit)
  exact ⟨t, hread.trans ⟨⟨_, hrun⟩, hgiven⟩, hdone⟩

end

/-! The session. -/

/-- From D_NEXT with fewer bytes to come than `fuel` the engine does what the listing does. -/
def ListingEnds (rest : List Item) (fuel : Nat) : Prop :=
  ∀ (flags : BitVec 16) (wr : Nat) (win : Nat → Byte) (bytes : List Byte) (s : State),
    Stands .dNext [] flags wr win s → Offers rest bytes s → bytes.length < fuel →
    (listing s.par fuel flags wr win bytes).1.length ≤ s.host.credit →
    Ends s bytes (listing s.par fuel flags wr win bytes)

section

variable {s t : State} {taken given bytes : List Byte} {rest : List Item} {fuel wr : Nat} {flags : BitVec 16}
  {win : Nat → Byte}

/-- After a whole token the listing goes on from D_NEXT. -/
theorem ListingEnds.after (ih : ListingEnds rest fuel) (h : Passes s t taken given)
    (ht : Stands .dNext [] flags wr win t) (ho : Offers rest (taken ++ bytes) s) (hlen : bytes.length < fuel)
    (hcredit : (given ++ (listing s.par fuel flags wr win bytes).1).length ≤ s.host.credit) :
    Ends s (taken ++ bytes)
      (given ++ (listing s.par fuel flags wr win bytes).1, (listing s.par fuel flags wr win bytes).2) := by
  have hx := h.exchanged
  rw [List.length_append, hx.credit, Nat.add_comm, Nat.add_le_add_iff_right] at hcredit
  rw [← hx.par] at hcredit ⊢
  exact h.ends (ih flags wr win bytes t ht (hx.offers ho) hlen hcredit)

/-- From the label of a token on. -/
theorem ListingEnds.token (ih : ListingEnds rest fuel) (hs : Stands (tokenLabel flags) [] flags wr win s)
    (ho : Offers rest bytes s) (hlen : bytes.length ≤ fuel)
    (hcredit : (listingToken s.par fuel flags wr win bytes).1.length ≤ s.host.credit) :
    Ends s bytes (listingToken s.par fuel flags wr win bytes) := by
  unfold listingToken at hcredit ⊢
  unfold tokenLabel at hs
  split at hs
  · next hflag =>
    rw [if_pos hflag] at hcredit ⊢
    cases bytes with
    | nil => exact hs.ends (f := .wLit) rfl Nat.one_pos
    | cons b bytes =>
      obtain ⟨t, hpass, ht⟩ := hs.literal ho (Nat.zero_lt_of_lt hcredit)
      exact ih.after hpass ht ho hlen hcredit
  · next hflag =>
    rw [if_neg hflag] at hcredit ⊢
    match bytes with
    | [] => exact hs.ends (f := .wRef) rfl Nat.two_pos
    | [b] =>
      obtain ⟨u, hread, hu⟩ := hs.fetch (f := .wRef) rfl Nat.two_pos ho
      exact hread.ends (hu.ends (f := .wRef) rfl Nat.one_lt_two)
    | b1 :: b2 :: bytes =>
      have hpaid : (lnOf b2).toNat + s.par.t.toNat + 1 ≤ s.host.credit := by
        rw [List.length_append, length_copyBytes] at hcredit
        omega
      obtain ⟨t, hpass, ht⟩ := hs.reference ho hpaid
      exact ih.after hpass ht ho (Nat.lt_of_succ_lt hlen) hcredit

/-- One turn of the listing's loop, D_NEXT first. -/
theorem ListingEnds.succ (ih : ListingEnds rest fuel) : ListingEnds rest (fuel + 1) := by
  intro flags wr win bytes s hs ho hlen hcredit
  obtain ⟨hshift, hnext⟩ := hs.next
  have ho : Offers rest bytes (dNext s) := hshift.exchanged.offers (taken := []) ho
  suffices hafter : Ends (dNext s) bytes (listing s.par (fuel + 1) flags wr win bytes) from hshift.ends hafter
  unfold nextLabel at hnext
  split at hnext
  · next hused =>
    cases bytes with
    | nil =>
      rw [listing_control_nil hused]
      exact hnext.ends (f := .wCtrl) rfl Nat.one_pos
    | cons c bytes =>
      rw [listing_control hused] at hcredit ⊢
      obtain ⟨t, hread, ht⟩ := hnext.control ho
      have hx := (hshift.trans hread).exchanged
      rw [← show t.par = s.par from hx.par] at hcredit ⊢
      exact hread.ends (ih.token ht (hread.exchanged.offers ho) (Nat.le_of_succ_le_succ hlen.le)
        (hcredit.trans_eq hx.credit))
  · next hleft =>
    rw [listing_token hleft] at hcredit ⊢
    exact ih.token hnext ho (Nat.le_of_lt_succ hlen) hcredit

end

theorem listingEnds (rest : List Item) (fuel : Nat) : ListingEnds rest fuel := by
  induction fuel with
  | zero => exact fun _ _ _ _ _ _ _ hlen => absurd hlen (Nat.not_lt_zero _)
  | succ fuel ih => exact ih.succ

/-- D_START sets FLAGS and the write cursor as the listing begins, over the filled window (R231, R140). -/
theorem dStart_stands {s : State} (hv : s.SessionInv) (hscript : s.host.script = []) (hseg : s.seg = [])
    (hwin : s.win = Memory.fill 0 s.par.winSize s.par.fill) :
    Stands .dNext [] 0x0000#16 s.par.r0.toNat (fun _ => s.par.fill) (dStart s) where
  legal := hv
  script := hscript
  flags := rfl
  cursor := rfl
  bound := dStart_writeInWindow hv
  window i hi := by
    have hcell : 0 ≤ i ∧ i < 0 + s.par.winSize := ⟨i.zero_le, (Session.lt_winSize hi).trans_eq (Nat.zero_add _).symm⟩
    rw [show (dStart s).win = s.win from rfl, hwin, Memory.read_fill, if_pos hcell]
  label := rfl
  latch := hseg

/-- What the host and the registers show once the end marker has ended the session. -/
theorem Ends.finished {s : State} {bytes : List Byte} {rest : List Item} {result : List Byte × EndReason}
    (h : Ends s bytes result) (ho : Offers (.eof :: rest) bytes s) :
    ∃ k t, Sys2Proof.core.run k s = .next t ∧ t.seq = .idle ∧
      t.host = { s.host with
        input := rest, credit := s.host.credit - result.1.length, output := s.host.output ++ result.1 } ∧
      t.status = s.status.finished result.2 ∧
      t.inCount = s.inCount + BitVec.ofNat 32 bytes.length ∧
      t.outCount = s.outCount + BitVec.ofNat 32 result.1.length := by
  obtain ⟨u, ⟨⟨k, hrun⟩, hx⟩, hend⟩ := h
  obtain ⟨heof, hinput⟩ := hx.offers (taken := bytes) (bytes := []) (by rwa [List.append_nil])
  have hstep := hend _ (inRead_eof.2 (.inr ⟨heof, rest, hinput, rfl⟩))
  have hspent : u.host.credit = s.host.credit - result.1.length := by rw [hx.credit, Nat.add_sub_cancel]
  refine ⟨k + 1, _, (run_of_run hrun 1).trans (run_succ hstep 0), rfl, ?_,
    congrArg (Status.finished · result.2) hx.status, hx.inCount, hx.outCount⟩
  rw [← hspent]
  exact congrArg (fun host : HostSide => { host with input := rest }) hx.host

/-- Settles O32: D_START, and then the listing. -/
theorem decompressionRunsTheListing : Obligations.DecompressionRunsTheListing := by
  intro s bytes rest spare hv hq hseg heof hscript hwin hinput result hcredit
  have hstep : step s = .next (dStart s) :=
    step_of_label hscript (by rw [hq]; rfl) (by simp only [microStep, hq])
  have hpass := passes_of_step hstep (exchanged_registers s (dStart s).dec s.seg .dNext)
  have ho : Offers (.eof :: rest) bytes s := ⟨heof, hinput⟩
  have hends : Ends s bytes result := (listingEnds (.eof :: rest) (bytes.length + 1)).after hpass
    (dStart_stands hv hscript hseg hwin) ho (Nat.lt_succ_self _) (hcredit ▸ Nat.le_add_right _ _)
  have hspare : s.host.credit - result.1.length = spare := by rw [hcredit, Nat.add_sub_cancel_left]
  rw [← hspare]
  exact hends.finished ho

end Sys2Proof.Machine
end

section
/-! PROOF. O24 to O30: the tokens, D_NEXT, the end of the stream, and one pass of the copy (spec/43_decoder.md R232 to
R237). -/

namespace Sys2Proof.Machine

/-! FLAGS. -/

/-- Below the marker bits of a loaded FLAGS is the control byte (R233, R55). -/
theorem getLsbD_loadFlags (c : Byte) (i : Nat) :
    (loadFlags c).getLsbD i = if i < 8 then c.getLsbD i else decide (i < 16) := by
  have hmarker : ∀ j < 16, (0xFF00#16).getLsbD j = decide (8 ≤ j) := by decide
  rw [loadFlags, BitVec.getLsbD_or, BitVec.getLsbD_setWidth]
  split
  · next hlow =>
    rw [hmarker i (by omega), decide_eq_false (by omega), decide_eq_true (by omega), Bool.false_or, Bool.true_and]
  · next hhigh =>
    rw [BitVec.getLsbD_of_ge c i (by omega), Bool.and_false, Bool.or_false]
    by_cases hi : i < 16
    · rw [hmarker i hi, decide_eq_true hi, decide_eq_true (by omega)]
    · rw [BitVec.getLsbD_of_ge _ i (by omega), decide_eq_false hi]

theorem tokenLabel_loadFlags (c : Byte) :
    tokenLabel (loadFlags c) = if c.getLsbD 0 = true then .dLit else .dRef := by
  rw [tokenLabel, getLsbD_loadFlags]
  rfl

theorem nextLabel_shiftFlags (flags : BitVec 16) : nextLabel (shiftFlags flags) =
    if flags.getLsbD 9 = false then .dCtrl else if flags.getLsbD 1 = true then .dLit else .dRef := by
  have hbit (i : Nat) : (shiftFlags flags).getLsbD i = flags.getLsbD (1 + i) := BitVec.getLsbD_ushiftRight flags 1 i
  simp only [nextLabel, flagsUsedUp_iff, tokenLabel, hbit]

/-- Settles O24: the label of the first token depends on bit 0 of FLAGS, which is the control byte's. -/
theorem controlByteLoadsTheFlags : Obligations.ControlByteLoadsTheFlags := by
  intro c s
  rw [← tokenLabel_loadFlags]
  rfl

/-- Settles O28: the `i`-th bit after a shift by `k` is bit `k + i`, and a loaded FLAGS is known bit by bit. -/
theorem nextFlagChoosesTheToken : Obligations.NextFlagChoosesTheToken := by
  refine ⟨fun s hq hscript => ?_, fun c k hk => ?_⟩
  · rw [← nextLabel_shiftFlags]
    exact step_of_label hscript (by rw [hq]; rfl) (by simp only [microStep, hq]; rfl)
  · have hbit (i : Nat) : ((0xFF00#16 ||| c.setWidth 16) >>> k).getLsbD i =
        if k + i < 8 then c.getLsbD (k + i) else decide (k + i < 16) :=
      (BitVec.getLsbD_ushiftRight _ k i).trans (getLsbD_loadFlags c (k + i))
    refine ⟨?_, fun hmore => ?_⟩
    · rw [hbit, if_neg (by omega), decide_eq_decide]
      omega
    · rw [hbit, Nat.add_zero, if_pos (by omega)]

/-! The tokens. -/

/-- Settles O25: the byte is emitted at the cursor, or the host accepts none. -/
theorem literalIsWrittenOut : Obligations.LiteralIsWrittenOut := by
  refine ⟨fun b s n hv hcredit => ⟨_, execLit_eq hv (by omega), byteEmitted_host hcredit, rfl, ?_, fun a ha => ?_, rfl,
    ?_, rfl, rfl⟩, fun b s hcredit => ?_⟩
  · exact (read_byteEmitted b s _).trans (if_pos rfl)
  · exact (read_byteEmitted b s a).trans (if_neg ha)
  · exact (byteEmitted_wr hv).trans (Session.wrap_eq_mod hv _)
  · have hwait := outWrite_none (b := b).2 hcredit
    simp only [exec, execLit, emitByte, hwait, outcomeOf]

/-- Settles O26: the segment's two bytes assemble to its operands again. -/
theorem referenceIsAssembled : Obligations.ReferenceIsAssembled := by
  intro pos ln s hv
  obtain ⟨hlast, -⟩ := copyLast_toNat hv ln
  refine ⟨_, rfl, rfl, congrArg (· + 1) hlast, ?_, ?_, rfl, rfl⟩
  · have hpos := posOf_toNat (refByte1 pos) (refByte2 pos ln)
    rwa [posOf_refBytes] at hpos
  · have hln := lnOf_toNat (refByte2 pos ln)
    rw [lnOf_refByte2] at hln
    exact hln.symm

/-- Settles O27: CTRL and REF change the registers, the latch and the label; LIT waits or emits its byte. -/
theorem tokensFrame : Obligations.TokensFrame := by
  refine ⟨?_, fun s t c h => ?_, fun s t pos ln h => ?_, fun s t b h => ?_⟩
  · rintro s t i (⟨c, rfl⟩ | ⟨b, rfl⟩ | ⟨pos, ln, rfl⟩) h
    · cases h
      and_intros <;> rfl
    · obtain ⟨-, rfl⟩ | ⟨n, -, -, rfl⟩ := execLit_cases h <;> and_intros <;> rfl
    · cases h
      and_intros <;> rfl
  · cases h
    exact ⟨rfl, rfl, rfl, fun _ => rfl⟩
  · cases h
    exact ⟨rfl, rfl, rfl, rfl, fun _ => rfl⟩
  · obtain ⟨-, rfl⟩ | ⟨n, -, -, rfl⟩ := execLit_cases h
    · exact ⟨rfl, fun _ _ => rfl⟩
    · exact ⟨rfl, fun a ha => Memory.read_write_other _ b ha⟩

/-! The end of the stream, and the copy. -/

/-- What `step_eof` says at a label, in the fields of the state. -/
theorem step_eof_fields {s u : State} {f : Format} (hscript : s.host.script = []) (hf : segmentFormat s.seq = some f)
    (hlen : s.seg.length < f.length) (hread : inRead s = .eof u) :
    step s = .next { u with
      status := s.status.finished (endReasonOf f s.seg), seq := .idle, seg := [] } ∧
    u.host.output = s.host.output ∧ u.outCount = s.outCount ∧ u.win = s.win := by
  have hstep := step_eof hscript hf hlen hread
  obtain ⟨-, rfl⟩ | ⟨-, rest, -, rfl⟩ := inRead_eof.1 hread <;> exact ⟨hstep, rfl, rfl, rfl⟩

/-- Settles O29: the reason is that of the label's format and of the latch. -/
theorem streamEndIsReported : Obligations.StreamEndIsReported := by
  rintro s u hscript hread reason code trunc
    (⟨hq, hseg, rfl, rfl, rfl⟩ | ⟨hq, hseg, rfl, rfl, rfl⟩ | ⟨hq, hseg, rfl, rfl, rfl⟩ | ⟨hq, hseg, rfl, rfl, rfl⟩)
  · have hend := step_eof_fields (f := .wCtrl) hscript (by rw [hq]; rfl) (by rw [hseg]; decide) hread
    exact ⟨rfl, hend⟩
  · have hend := step_eof_fields (f := .wRef) hscript (by rw [hq]; rfl) (by rw [hseg]; decide) hread
    rw [hseg] at hend
    exact ⟨rfl, hend⟩
  · have hend := step_eof_fields (f := .wLit) hscript (by rw [hq]; rfl) (by rw [hseg]; decide) hread
    exact ⟨rfl, hend⟩
  · obtain ⟨b, hb⟩ := List.length_eq_one_iff.1 hseg
    have hend := step_eof_fields (f := .wRef) hscript (by rw [hq]; rfl) (by rw [hseg]; decide) hread
    rw [hb] at hend
    exact ⟨rfl, hend⟩

/-- Settles O30: the byte read is emitted, and `K` grows. -/
theorem copyMovesOneByte : Obligations.CopyMovesOneByte := by
  intro s c n hv hq hscript hk hl hcredit hread
  have hwr := Session.wrap_eq_mod hv s.dec.wr.toNat
  rw [← Session.wrap_eq_mod hv] at hread
  refine ⟨_, step_dCopy_pass hv hq hscript hk (by omega) hread, byteEmitted_host hcredit, rfl, ?_, fun a ha => ?_, rfl,
    ?_, advanceCopy_k (s := byteEmitted c s) (lt_of_le_of_lt hk hl), hq⟩
  · exact (read_byteEmitted c s _).trans (if_pos hwr.symm)
  · exact (read_byteEmitted c s a).trans (if_neg (hwr ▸ ha))
  · exact (byteEmitted_wr hv).trans (Session.wrap_eq_mod hv _)

end Sys2Proof.Machine
end

section
/-! PROOF. O33: F has no effect on decoding (spec/43_decoder.md R239). It enters the decoder only by the size of the
window RAM, and a masked position is inside that for every F. -/

namespace Sys2Proof.Machine

/-- The state with another match length. -/
def State.withF (s : State) (f : Pos) : State :=
  s.withPar { s.par with f := f }

section

variable {s : State} (f : Pos)

theorem winGetCirc_withF (hv : s.SessionInv) (i : Nat) : winGetCirc (s.withF f) i = winGetCirc s i := by
  have hi : s.par.wrap i < s.par.n.toNat := Session.wrap_lt hv i
  have hbound : (s.withF f).par.wrap i < (s.withF f).par.winSize :=
    Session.lt_winSize (p := (s.withF f).par) hi
  unfold winGetCirc winRead
  rw [if_pos hbound, if_pos (Session.lt_winSize hi)]
  rfl

theorem emitByte_withF (hv : s.SessionInv) (c : Byte) {after : State → State}
    (hafter : ∀ t : State, after (t.withF f) = (after t).withF f) :
    outcomeOf (emitByte c after (s.withF f)) = mapNext (fun t => t.withF f) (outcomeOf (emitByte c after s)) := by
  have hcursor : s.par.wrap s.dec.wr.toNat < s.par.n.toNat := Session.wrap_lt hv _
  obtain hcredit | hcredit := Nat.eq_zero_or_pos s.host.credit
  · have hwait : outWrite c s = none := outWrite_none.2 hcredit
    have hwait' : outWrite c (s.withF f) = none := outWrite_none.2 hcredit
    simp only [emitByte, hwait, hwait']
    rfl
  · rw [emitByte_eq (Session.lt_winSize hcursor) hcredit,
      emitByte_eq (s := s.withF f) (Session.lt_winSize (p := (s.withF f).par) hcursor) hcredit]
    exact congrArg Host.Outcome.next (hafter (byteEmitted c s))

theorem dCopy_withF (hv : s.SessionInv) :
    outcomeOf (dCopy (s.withF f)) = mapNext (fun t => t.withF f) (outcomeOf (dCopy s)) := by
  by_cases hk : s.dec.k.toNat ≤ s.dec.l.toNat
  · have hk' : (s.withF f).dec.k.toNat ≤ (s.withF f).dec.l.toNat := hk
    have hread : winGetCirc (s.withF f) ((s.withF f).dec.dist.toNat + (s.withF f).dec.k.toNat) =
        winGetCirc s (s.dec.dist.toNat + s.dec.k.toNat) := winGetCirc_withF f hv _
    rw [dCopy, dCopy, if_pos hk, if_pos hk', hread]
    cases winGetCirc s (s.dec.dist.toNat + s.dec.k.toNat) with
    | error e => rfl
    | ok c => exact emitByte_withF f hv c fun _ => rfl
  · have hk' : ¬ (s.withF f).dec.k.toNat ≤ (s.withF f).dec.l.toNat := hk
    rw [dCopy, dCopy, if_neg hk, if_neg hk']
    rfl

theorem fetchByte_withF (format : Format) : fetchByte format (s.withF f) = (fetchByte format s).withF f := by
  cases hread : inRead s with
  | wait =>
    have hwait := inRead_wait.1 hread
    have hread' : inRead (s.withF f) = .wait := inRead_wait.2 hwait
    simp only [fetchByte, hread, hread']
  | eof u =>
    have hread' : inRead (s.withF f) = .eof (u.withF f) := by
      obtain ⟨heof, rfl⟩ | ⟨heof, rest, hinput, rfl⟩ := inRead_eof.1 hread
      · exact inRead_of_inEof heof
      · exact inRead_eof.2 (.inr ⟨heof, rest, hinput, rfl⟩)
    simp only [fetchByte, hread, hread']
    rfl
  | byte b u =>
    have hread' : inRead (s.withF f) = .byte b (u.withF f) := by
      obtain ⟨heof, rest, hinput, rfl⟩ := inRead_byte.1 hread
      exact inRead_byte.2 ⟨heof, rest, hinput, rfl⟩
    simp only [fetchByte, hread, hread']
    rfl

theorem microStep_withF (hv : s.SessionInv) (hq : s.seq.mode = some .decompress) :
    outcomeOf (microStep (s.withF f)) = mapNext (fun t => t.withF f) (outcomeOf (microStep s)) := by
  have hseq : (s.withF f).seq = s.seq := rfl
  unfold microStep
  rw [hseq]
  cases hl : s.seq <;> rw [hl] at hq
  case dStart => rfl
  case dNext => rfl
  case dCtrl => exact congrArg Host.Outcome.next (fetchByte_withF f .wCtrl)
  case dLit => exact congrArg Host.Outcome.next (fetchByte_withF f .wLit)
  case dRef => exact congrArg Host.Outcome.next (fetchByte_withF f .wRef)
  case dCopy => exact dCopy_withF f hv
  all_goals simp [Seq.mode] at hq

theorem exec_withF {format : Format} {bytes : List Byte} {i : Instr} (hv : s.SessionInv)
    (hi : decode (.segment format bytes) = .ok i) :
    exec i (s.withF f) = mapNext (fun t => t.withF f) (exec i s) := by
  obtain ⟨c, rfl⟩ | ⟨b, rfl⟩ | ⟨pos, ln, rfl⟩ := decode_segment_ok hi
  · rfl
  · exact emitByte_withF f hv b fun _ => rfl
  · rfl

theorem engineStep_withF (hv : s.SessionInv) (hq : s.seq.mode = some .decompress) :
    engineStep (s.withF f) = mapNext (fun t => t.withF f) (engineStep s) := by
  have hfetched : fetched (s.withF f) = fetched s := rfl
  unfold engineStep
  rw [hfetched]
  cases hx : fetched s with
  | none => exact microStep_withF f hv hq
  | some x =>
    obtain ⟨format, -, -, rfl⟩ := fetched_some hx
    cases hi : decode (.segment format s.seg) with
    | ok i => simp only [hi, exec_withF f hv hi]
    | error e => simp only [hi]; rfl

end

/-- Settles O33: the decoder's step commutes with a change of the match length. -/
theorem decodingDoesNotDependOnF : Obligations.DecodingDoesNotDependOnF :=
  fun _ f hv _ hq => engineStep_withF f hv hq

end Sys2Proof.Machine
end

section
/-! PROOF. The command path of spec/44_host_commands.md R261, an equation for each of its checks, and what an accepted start
sets. -/

namespace Sys2Proof.Machine

/-- A word that is 1 or 2 is not 0 and no illegal word. -/
theorem startWord_ne {v : Word} (hv : v = 1 ∨ v = 2) : v ≠ 0 ∧ ¬ (v ≠ 1 ∧ v ≠ 2) := by
  obtain rfl | rfl := hv <;> decide

section

variable {s : State} {v : Word}

/-- A turn that writes CMD takes the command path, whatever the word. -/
theorem step_command {ts : List Turn} (hs : s.host.script = .write 0 v :: ts) :
    step s = .next (commandWrite v (nextTurn ts s)) := by
  simp only [step, hs, if_pos, commandTurn_eq]

theorem commandWrite_zero (s : State) : commandWrite 0 s = s := by
  simp [commandWrite]

theorem commandWrite_busy (hb : s.status.busy = true) (hv : v ≠ 0) :
    commandWrite v s = s.withStatus { s.status with ign := true } := by
  simp only [commandWrite, hb, if_true, if_pos hv]

/-- The clears and the error of a rejected command together (R289). -/
theorem raiseError_clearResult (code : ErrCode) (hb : s.status.busy = false) :
    raiseError code (clearResult s) = s.withStatus (s.status.rejected code) := by
  simp [raiseError, clearResult, Status.cleared, Status.rejected, hb]

/-- The checks of a nonzero word while idle, in their order (R261, R288). -/
theorem commandWrite_idle (hb : s.status.busy = false) (hv : v ≠ 0) : commandWrite v s =
    if v ≠ 1 ∧ v ≠ 2 then s.withStatus (s.status.rejected .illegalCmd)
    else if ¬ s.cfg.Legal then s.withStatus (s.status.rejected .configInvalid)
    else if s.cfg.mode ≠ commandMode v then s.withStatus (s.status.rejected .modeMismatch)
    else startSession (commandMode v) (clearResult s) := by
  have hcfg : (clearResult s).cfg = s.cfg := rfl
  have hvalid : s.cfg.valid = false ↔ ¬ s.cfg.Legal := by rw [← Cfg.valid_iff, Bool.not_eq_true]
  simp only [commandWrite, hb, Bool.false_eq_true, if_false, if_neg hv, raiseError_clearResult _ hb, hcfg, hvalid]

/-- A start command whose checks all pass starts the session. -/
theorem commandWrite_start (hb : s.status.busy = false) (hv : v = 1 ∨ v = 2) (hlegal : s.cfg.Legal)
    (hmode : s.cfg.mode = commandMode v) :
    commandWrite v s = startSession (commandMode v) (clearResult s) := by
  obtain ⟨hzero, hword⟩ := startWord_ne hv
  rw [commandWrite_idle hb hzero, if_neg hword, if_neg (not_not.2 hlegal), if_neg (not_not.2 hmode)]

end

/-- Every field an accepted start sets; the others stand (R261, R43, R140). -/
theorem startSession_clearResult (mode : Mode) (s : State) : startSession mode (clearResult s) =
    { s with
      status := Status.started mode, par := s.cfg.latch, inCount := 0, outCount := 0, inEof := false,
      win := Memory.fill 0 s.cfg.latch.winSize s.cfg.fill, seq := mode.start, seg := [] } := rfl

/-- WIN_FILL under a legal configuration fills exactly the `N + F - 1` cells of the window and its tail (R44, R140). -/
theorem read_fill_latch {c : Cfg} (hlegal : c.Legal) (a : Nat) :
    Memory.read (Memory.fill 0 c.latch.winSize c.fill) a =
      if a < c.frameSize.toNat + c.maxLen.toNat - 1 then some c.fill else none := by
  have hsize : 0 + c.latch.winSize = c.frameSize.toNat + c.maxLen.toNat - 1 := by
    obtain ⟨-, -, -, ⟨-, hlen⟩, -⟩ := hlegal
    simp only [Session.winSize, Cfg.latch]
    omega
  rw [Memory.read_fill, hsize]
  simp only [Nat.zero_le, true_and]

/-- `t` is `s` with a session of the mode just started: what R261 sets, and the configuration and the host's side kept. -/
def StartedFrom (mode : Mode) (s t : State) : Prop :=
  t.status = Status.started mode ∧ t.par = s.cfg.latch ∧ t.inCount = 0 ∧ t.outCount = 0 ∧ t.inEof = false ∧
  (∀ a, Memory.read t.win a =
    if a < s.cfg.frameSize.toNat + s.cfg.maxLen.toNat - 1 then some s.cfg.fill else none) ∧
  t.seq = mode.start ∧ t.cfg = s.cfg ∧ t.host = s.host

theorem startSession_startedFrom (mode : Mode) {s : State} (hlegal : s.cfg.Legal) :
    StartedFrom mode s (startSession mode (clearResult s)) :=
  ⟨rfl, rfl, rfl, rfl, rfl, read_fill_latch hlegal, rfl, rfl, rfl⟩

/-- The start label of a start command's mode. -/
theorem commandMode_start (v : Word) : (commandMode v).start = if v = 1 then .eStart else .dStart := by
  unfold commandMode
  split <;> rfl

/-! The three commands are the command path on their words (R262 to R264). -/

theorem exec_nop (s : State) : exec .nop s = .next (commandWrite 0 s) := rfl

theorem exec_compress (s : State) : exec .compress s = .next (commandWrite 1 s) := rfl

theorem exec_decompress (s : State) : exec .decompress s = .next (commandWrite 2 s) := rfl

end Sys2Proof.Machine
end

section
/-! PROOF. O9 to O12, O14 and O18: the commands and the writes to CMD (spec/44_host_commands.md R261 to R266). -/

namespace Sys2Proof.Machine

/-- Settles O9: the word 0 returns at the first or second test of the command path. -/
theorem nopChangesNothing : Obligations.NopChangesNothing := by
  refine ⟨fun s => ?_, fun s ts hs => ?_⟩
  · rw [exec_nop, commandWrite_zero]
  · rw [step_command hs, commandWrite_zero]

/-- Settles O10: all checks pass, and the start sets what R261 says. -/
theorem compressStartsASession : Obligations.CompressStartsASession := by
  intro s hb hlegal hmode
  have hstart := commandWrite_start hb (.inl rfl) hlegal hmode
  exact ⟨_, (exec_compress s).trans (congrArg _ hstart), startSession_startedFrom .compress hlegal⟩

/-- Settles O11: as COMPRESS, with the other mode. -/
theorem decompressStartsASession : Obligations.DecompressStartsASession := by
  intro s hb hlegal hmode
  have hstart := commandWrite_start hb (.inr rfl) hlegal hmode
  exact ⟨_, (exec_decompress s).trans (congrArg _ hstart), startSession_startedFrom .decompress hlegal⟩

/-- Settles O12: the equations of the command path, one for each clause. -/
theorem writeToCmdFollowsTheCommandPath : Obligations.WriteToCmdFollowsTheCommandPath := by
  intro s v ts hs u mode
  rw [step_command hs]
  refine ⟨fun hb hv => ?busy, fun hv => ?zero, fun hb hv => ⟨fun hword => ?illegal, fun hstart =>
    ⟨fun hlegal => ?invalid, fun hlegal hmode => ?mismatch, fun hlegal hmode => ?accepted⟩⟩⟩
  case busy => rw [commandWrite_busy hb hv]; rfl
  case zero => rw [hv, commandWrite_zero]
  case illegal => rw [commandWrite_idle hb hv, if_pos hword]; rfl
  case invalid => rw [commandWrite_idle hb hv, if_neg (startWord_ne hstart).2, if_pos hlegal]; rfl
  case mismatch =>
    rw [commandWrite_idle hb hv, if_neg (startWord_ne hstart).2, if_neg (not_not.2 hlegal),
      if_pos (show u.cfg.mode ≠ commandMode v from hmode)]
    rfl
  case accepted =>
    refine ⟨_, read_fill_latch hlegal, ?_⟩
    rw [commandWrite_start hb hstart hlegal hmode, startSession_clearResult, commandMode_start]
    rfl

/-- An engine step does not touch IGN: neither a running session nor its end does (R63). -/
theorem SessionMove.ign {s t : State} (h : SessionMove s t) : t.status.ign = s.status.ign := by
  cases h with
  | runs h => rw [h.status]
  | ends _ _ _ _ hstatus => rw [hstatus]; rfl

/-- A write to CMD keeps IGN at 1, unless it is a nonzero word while idle. -/
theorem commandWrite_keeps_ign {s : State} {v : Word} (hign : s.status.ign = true) :
    (commandWrite v s).status.ign = true ∨ (v ≠ 0 ∧ s.status.busy = false) := by
  by_cases hv : v = 0
  · exact .inl (by rw [hv, commandWrite_zero, hign])
  · cases hb : s.status.busy with
    | true => exact .inl (by rw [commandWrite_busy hb hv]; rfl)
    | false => exact .inr ⟨hv, rfl⟩

/-- A write to CMD while busy leaves BUSY and the label (R266). -/
theorem commandWrite_keeps_busy {s : State} (v : Word) (hb : s.status.busy = true) :
    (commandWrite v s).status.busy = true ∧ (commandWrite v s).seq = s.seq := by
  by_cases hv : v = 0
  · rw [hv, commandWrite_zero]
    exact ⟨hb, rfl⟩
  · rw [commandWrite_busy hb hv]
    exact ⟨hb, rfl⟩

/-- IGN is cleared by a reset or a nonzero word written while idle, and by nothing else. -/
theorem step_keeps_ign {s t : State} (h : step s = .next t) (hign : s.status.ign = true) :
    t.status.ign = true ∨ (∃ ts, s.host.script = .reset :: ts) ∨
    (∃ v ts, s.host.script = .write 0 v :: ts ∧ v ≠ 0 ∧ s.status.busy = false) := by
  obtain ⟨-, h⟩ | ⟨ts, -, h⟩ | ⟨v, ts, hs, rfl⟩ | ⟨turn, ts, hs, -, -, rfl⟩ := step_cases h
  · exact .inl ((engineStep_move h).ign.trans hign)
  · exact .inl ((engineStep_move h).ign.trans hign)
  · obtain h | ⟨hv, hb⟩ := commandWrite_keeps_ign (s := nextTurn ts s) (v := v) hign
    · exact .inl h
    · exact .inr (.inr ⟨v, ts, hs, hv, hb⟩)
  · obtain ⟨rfl, -⟩ | ⟨cfg, host, h⟩ := hostTurn_cases turn (nextTurn ts s)
    · exact .inr (.inl ⟨ts, hs⟩)
    · exact .inl (by rw [h]; exact hign)

/-- A turn of the host that is no reset leaves a running session at its label. -/
theorem step_turn_keeps_busy {s t : State} {turn : Turn} {ts : List Turn} (hs : s.host.script = turn :: ts)
    (hengine : turn ≠ .engine) (hreset : turn ≠ .reset) (hb : s.status.busy = true) (h : step s = .next t) :
    t.status.busy = true ∧ t.seq = s.seq := by
  obtain ⟨hs', -⟩ | ⟨ts', hs', -⟩ | ⟨v, ts', -, rfl⟩ | ⟨turn', ts', hs', -, -, rfl⟩ := step_cases h
  · exact absurd (hs.symm.trans hs') (by simp)
  · exact absurd (List.cons.inj (hs.symm.trans hs')).1 hengine
  · exact commandWrite_keeps_busy v (s := nextTurn ts' s) hb
  · obtain ⟨rfl, -⟩ | ⟨cfg, host, h⟩ := hostTurn_cases turn' (nextTurn ts' s)
    · exact absurd (List.cons.inj (hs.symm.trans hs')).1 hreset
    · rw [h]
      exact ⟨hb, rfl⟩

/-- Settles O14: the busy check of the command path, and what a step does to IGN and to a running session. -/
theorem commandWhileBusyOnlySetsIgn : Obligations.CommandWhileBusyOnlySetsIgn := by
  refine ⟨fun s v ts hs hb hv => ?_, fun s t => step_keeps_ign, fun s t turn ts => step_turn_keeps_busy⟩
  rw [step_command hs, commandWrite_busy (s := nextTurn ts s) hb hv]
  rfl

/-- Settles O18: a command is the command path on its word, which changes STATUS only or starts a session. -/
theorem commandsFrame : Obligations.CommandsFrame := by
  intro s t i hi h
  have hcommand : ∃ v, exec i s = .next (commandWrite v s) := by
    obtain rfl | rfl | rfl := hi
    · exact ⟨0, exec_nop s⟩
    · exact ⟨1, exec_compress s⟩
    · exact ⟨2, exec_decompress s⟩
  obtain ⟨v, hv⟩ := hcommand
  obtain rfl : commandWrite v s = t := Host.Outcome.next.inj (hv.symm.trans h)
  obtain ⟨status, h⟩ | ⟨hb, -, h⟩ := commandWrite_status_or_start v s <;> rw [h]
  · refine ⟨rfl, rfl, rfl, rfl, rfl, rfl, rfl, ?_, fun _ => ⟨rfl, rfl, rfl, rfl, rfl, rfl, fun _ => rfl⟩⟩
    rintro (_ | _ | _) a <;> rfl
  · rw [startSession_clearResult]
    refine ⟨rfl, rfl, rfl, rfl, rfl, rfl, rfl, ?_, fun hbusy => ?_⟩
    · rintro (_ | _ | _) a <;> rfl
    · exact Bool.noConfusion (hbusy.trans hb)

end Sys2Proof.Machine
end

section
/-! PROOF. O19: a register read (spec/44_host_commands.md R267). -/

namespace Sys2Proof.Machine

/-- A field above `b` in a word adds its value times the weight of its lowest bit. -/
theorem or_shiftLeft_eq_add {b i : Nat} (hb : b < 2 ^ i) (a : Nat) : b ||| a <<< i = b + 2 ^ i * a := by
  rw [Nat.or_comm, ← Nat.shiftLeft_add_eq_or_of_lt hb, Nat.shiftLeft_eq, Nat.mul_comm, Nat.add_comm]

theorem ErrCode.code_lt (e : ErrCode) : e.code < 4 := by
  cases e <;> decide

theorem Mode.code_lt (m : Mode) : m.code < 2 := by
  cases m <;> decide

theorem EndReason.code_lt (r : EndReason) : r.code < 6 := by
  cases r <;> decide

/-- STATUS reads as the sum of its fields, which overlap in no bit (R32, R267). -/
theorem Status.word_toNat (st : Status) : st.word.toNat =
    st.busy.toNat + 2 * st.done.toNat + 4 * st.err.code + 64 * st.ign.toNat + 128 * st.smode.code +
      256 * st.endReason.code + 2048 * st.trunc.toNat := by
  have hbusy := st.busy.toNat_lt
  have hdone := st.done.toNat_lt
  have herr := st.err.code_lt
  have hign := st.ign.toNat_lt
  have hsmode := st.smode.code_lt
  have hend := st.endReason.code_lt
  have htrunc := st.trunc.toNat_lt
  rw [Status.word, or_shiftLeft_eq_add (i := 1) (by omega), or_shiftLeft_eq_add (i := 2) (by omega),
    or_shiftLeft_eq_add (i := 6) (by omega), or_shiftLeft_eq_add (i := 7) (by omega),
    or_shiftLeft_eq_add (i := 8) (by omega), or_shiftLeft_eq_add (i := 11) (by omega), BitVec.toNat_ofNat,
    Nat.mod_eq_of_lt (by omega)]
  rfl

/-- CMD and the registers 10 to 15 read 0 (R30, R41). -/
theorem readRegister_unused {s : State} {n : BitVec 4} (hn : n = 0 ∨ 10 ≤ n.toNat) : readRegister s n = 0 := by
  unfold readRegister
  split
  case h_10 => rfl
  all_goals
    obtain rfl | hn := hn
    · contradiction
    · omega

/-- Settles O19: the host receives the register's value, whose number is the table's. -/
theorem hostReadReturnsTheRegister : Obligations.HostReadReturnsTheRegister := by
  intro s n ts hs err smode endReason
  have hstep : step s = .next (hostRead n (nextTurn ts s)) := by simp only [step, hs, hostTurn]
  refine ⟨readRegister s n, hstep, fun hn => readRegister_unused (.inl hn), ?_, ?_, ?_, ?_, ?_, ?_, ?_, ?_, ?_,
    fun hn => readRegister_unused (.inr hn)⟩ <;> rintro rfl
  · exact s.status.word_toNat
  · exact BitVec.toNat_setWidth_of_le (by decide)
  · exact BitVec.toNat_setWidth_of_le (by decide)
  · exact BitVec.toNat_setWidth_of_le (by decide)
  · exact BitVec.toNat_setWidth_of_le (by decide)
  · exact BitVec.toNat_setWidth_of_le (by decide)
  · exact Nat.mod_eq_of_lt (s.cfg.mode.code_lt.trans (by decide))
  · rfl
  · rfl

end Sys2Proof.Machine
end

section
/-! PROOF. O34: a decompression session never faults (spec/60_exceptions.md R287, R291). Every window access of the decoder
is at a masked position of a written window, and a latch with no more than a segment decodes when it is whole (R120). -/

namespace Sys2Proof.Machine

section

variable {s : State}

/-- A byte of output waits for the host or is written at a masked position (R234, R236). -/
theorem emitByte_answers (hv : s.SessionInv) (c : Byte) (after : State → State) :
    ∃ t, emitByte c after s = .ok t := by
  obtain hcredit | hcredit := Nat.eq_zero_or_pos s.host.credit
  · refine ⟨s, ?_⟩
    unfold emitByte
    rw [outWrite_none.2 hcredit]
  · exact ⟨_, emitByte_eq (cursor_lt_winSize hv) hcredit after⟩

/-- A pass of the copy reads a masked position, which the session has written (R236, R66). -/
theorem dCopy_answers (hv : s.SessionInv) (hw : WindowWritten s) : ∃ t, dCopy s = .ok t := by
  by_cases hk : s.dec.k.toNat ≤ s.dec.l.toNat
  · obtain ⟨c, hc⟩ := Option.isSome_iff_exists.1 <|
      hw _ (Session.lt_winSize (Session.wrap_lt hv (s.dec.dist.toNat + s.dec.k.toNat)))
    obtain ⟨t, ht⟩ := emitByte_answers hv c advanceCopy
    exact ⟨t, (if_pos hk).trans (bind_ok.2 ⟨c, winGetCirc_of_read hv hc, ht⟩)⟩
  · exact ⟨s.goto .dNext, if_neg hk⟩

/-- Of the decoder's labels only D_COPY reaches the window. -/
theorem microStep_decompress_answers (hv : s.SessionInv) (hw : WindowWritten s) (hq : s.seq.mode = some .decompress) :
    ∃ t, microStep s = .ok t := by
  cases hl : s.seq <;> rw [hl] at hq <;> simp only [microStep, hl]
  case dStart | dNext | dCtrl | dLit | dRef => exact ⟨_, rfl⟩
  case dCopy => exact dCopy_answers hv hw
  all_goals cases hq

/-- Of the wire tokens only LIT reaches the window. -/
theorem exec_segment_answers {f : Format} {bytes : List Byte} {i : Instr} (hv : s.SessionInv)
    (hi : decode (.segment f bytes) = .ok i) : ∃ t, exec i s = .next t := by
  obtain ⟨c, rfl⟩ | ⟨b, rfl⟩ | ⟨pos, ln, rfl⟩ := decode_segment_ok hi
  · exact ⟨_, rfl⟩
  · obtain ⟨t, ht⟩ := emitByte_answers hv b fun u => (u.withSeg []).goto .dNext
    exact ⟨t, outcomeOf_next.2 ht⟩
  · exact ⟨_, rfl⟩

/-- The engine of a decompression session never stops: a whole segment decodes and runs, and the labels answer. -/
theorem engineStep_decompress_answers (hv : s.SessionInv) (hw : WindowWritten s) (hseg : s.SegmentInv)
    (hq : s.seq.mode = some .decompress) : ∃ t, engineStep s = .next t := by
  cases hx : fetched s with
  | none =>
    obtain ⟨t, ht⟩ := microStep_decompress_answers hv hw hq
    exact ⟨t, by simp only [engineStep, hx, ht, outcomeOf]⟩
  | some x =>
    obtain ⟨f, hf, hlen, rfl⟩ := fetched_some hx
    obtain ⟨i, hi⟩ := decode_segment_of_length (((segmentInv_iff_of_some hf).1 hseg).antisymm hlen)
    rw [engineStep_of_decode hx hi]
    exact exec_segment_answers hv hi

end

/-- An engine step from a session of a mode goes on in that mode or ends the session. -/
theorem SessionMove.mode_or_idle {s t : State} (h : SessionMove s t) : t.seq.mode = s.seq.mode ∨ t.seq = .idle := by
  cases h with
  | runs h => exact .inl h.mode
  | ends _ _ _ _ _ hidle => exact .inr hidle

/-- Settles O34: the engine's step answers, and every engine step keeps the three invariants and the mode or ends. -/
theorem decompressionNeverFaults : Obligations.DecompressionNeverFaults := by
  intro s hv hw hseg hq
  have hrun : s.seq ≠ .idle := fun hidle => by simp [hidle, Seq.mode] at hq
  obtain ⟨t, ht⟩ := engineStep_decompress_answers hv (hw.written hrun) hseg hq
  refine ⟨t, ht, engineStep_sessionInv hv ht, engineStep_windowInv hw ht, engineStep_segmentInv hseg ht, ?_⟩
  rw [← hq]
  exact (engineStep_move ht).mode_or_idle

end Sys2Proof.Machine
end

section
/-! PROOF. O13, O15, O16 and O17: the errors (spec/60_exceptions.md R280 to R290). A nonzero word written while idle is
rejected with one code or starts a session, and nothing else touches ERR but a reset. -/

namespace Sys2Proof.Machine

section

variable {s : State} {v : Word}

/-- A nonzero word written while idle sets STATUS alone, to a rejection's, or starts a session. -/
theorem commandWrite_rejected_or_started (hb : s.status.busy = false) (hv : v ≠ 0) :
    (∃ code, commandWrite v s = s.withStatus (s.status.rejected code)) ∨
    commandWrite v s = startSession (commandMode v) (clearResult s) := by
  rw [commandWrite_idle hb hv]
  split
  · exact .inl ⟨_, rfl⟩
  · split
    · exact .inl ⟨_, rfl⟩
    · split
      · exact .inl ⟨_, rfl⟩
      · exact .inr rfl

/-- Only a rejection leaves an error, and it clears the rest of STATUS (R289). -/
theorem commandWrite_of_err (hb : s.status.busy = false) (hv : v ≠ 0) (herr : (commandWrite v s).status.err ≠ .none) :
    commandWrite v s = s.withStatus (s.status.rejected (commandWrite v s).status.err) := by
  obtain ⟨code, h⟩ | h := commandWrite_rejected_or_started hb hv
  · rw [h]
    rfl
  · rw [h, startSession_clearResult] at herr
    exact absurd rfl herr

/-- A session starts with no error, and a rejection leaves BUSY 0. -/
theorem commandWrite_err_of_busy (hb : s.status.busy = false) (hv : v ≠ 0)
    (hbusy : (commandWrite v s).status.busy = true) : (commandWrite v s).status.err = .none := by
  obtain ⟨code, h⟩ | h := commandWrite_rejected_or_started hb hv
  · rw [h] at hbusy
    exact Bool.noConfusion hbusy
  · rw [h, startSession_clearResult]
    rfl

/-- The checks do not read the old code, and both a rejection and a start clear it first (R290). -/
theorem commandWrite_forgets_err (hb : s.status.busy = false) (hv : v ≠ 0) (e : ErrCode) :
    commandWrite v (s.withStatus { s.status with err := e }) = commandWrite v s := by
  rw [commandWrite_idle hb hv, commandWrite_idle (s := s.withStatus { s.status with err := e }) hb hv]
  rfl

/-- The code that the checks of a nonzero word while idle report, in their order (R288). -/
theorem commandWrite_err (hb : s.status.busy = false) (hv : v ≠ 0) : (commandWrite v s).status.err =
    if v ≠ 1 ∧ v ≠ 2 then .illegalCmd
    else if ¬ s.cfg.Legal then .configInvalid
    else if s.cfg.mode ≠ commandMode v then .modeMismatch
    else .none := by
  rw [commandWrite_idle hb hv, startSession_clearResult]
  simp only [apply_ite State.status, apply_ite Status.err]
  rfl

end

/-- Settles O13: the write is a rejection, which is the change of STATUS. -/
theorem rejectedCommandChangesOnlyStatus : Obligations.RejectedCommandChangesOnlyStatus := by
  intro s t v ts hs hb hv h herr
  obtain rfl := Host.Outcome.next.inj ((step_command hs).symm.trans h)
  exact commandWrite_of_err (s := nextTurn ts s) hb hv herr

/-- Settles O15: the busy check comes first, and an idle engine runs the other three in their order. -/
theorem firstFailingCheckIsReported : Obligations.FirstFailingCheckIsReported := by
  intro s v ts hs hv
  refine ⟨_, step_command hs, fun hb => ?_, fun hb => commandWrite_err (s := nextTurn ts s) hb hv⟩
  rw [commandWrite_busy (s := nextTurn ts s) hb hv]
  rfl

/-- A power of two in `4..4096` is one of `2^2` to `2^12` (R283). -/
theorem powerOfTwo_in_range_iff {n : Nat} :
    (4 ≤ n ∧ n ≤ 4096) ∧ n &&& (n - 1) = 0 ↔ ∃ k, 2 ≤ k ∧ k ≤ 12 ∧ n = 2 ^ k := by
  have hpow_le (i j : Nat) : 2 ^ i ≤ 2 ^ j ↔ i ≤ j := Nat.pow_le_pow_iff_right (by decide)
  constructor
  · rintro ⟨⟨hlo, hhi⟩, hpow⟩
    obtain ⟨k, rfl⟩ := (Nat.and_sub_one_eq_zero_iff_isPowerOfTwo (by omega)).1 hpow
    exact ⟨k, (hpow_le 2 k).1 hlo, (hpow_le k 12).1 hhi, rfl⟩
  · rintro ⟨k, hlo, hhi, rfl⟩
    exact ⟨⟨(hpow_le 2 k).2 hlo, (hpow_le k 12).2 hhi⟩,
      (Nat.and_sub_one_eq_zero_iff_isPowerOfTwo (Nat.two_pow_pos k).ne').2 ⟨k, rfl⟩⟩

/-- Settles O16: the check is the predicate of R283, whose first two clauses are the powers of two. -/
theorem validConfigurationsAreTheLegalOnes : Obligations.ValidConfigurationsAreTheLegalOnes := by
  intro n r0 f t
  rw [validConfig_iff, LegalSettings, ← powerOfTwo_in_range_iff]
  simp only [and_assoc]

/-- An engine step does not touch ERR: neither a running session nor its end does (R63). -/
theorem SessionMove.err {s t : State} (h : SessionMove s t) : t.status.err = s.status.err := by
  cases h with
  | runs h => rw [h.status]
  | ends _ _ _ _ hstatus => rw [hstatus]; rfl

/-- A write to CMD that changes ERR is a nonzero word while idle. -/
theorem commandWrite_changes_err {s : State} {v : Word} (herr : (commandWrite v s).status.err ≠ s.status.err) :
    v ≠ 0 ∧ s.status.busy = false := by
  have hv : v ≠ 0 := fun hv => herr (by rw [hv, commandWrite_zero])
  refine ⟨hv, Bool.eq_false_iff.2 fun hb => herr ?_⟩
  rw [commandWrite_busy hb hv]
  rfl

/-- ERR is changed by a reset or a nonzero word written while idle, and by nothing else (R290). -/
theorem step_changes_err {s t : State} (h : step s = .next t) (herr : t.status.err ≠ s.status.err) :
    (∃ ts, s.host.script = .reset :: ts) ∨
    (∃ v ts, s.host.script = .write 0 v :: ts ∧ v ≠ 0 ∧ s.status.busy = false) := by
  obtain ⟨-, h⟩ | ⟨ts, -, h⟩ | ⟨v, ts, hs, rfl⟩ | ⟨turn, ts, hs, -, -, rfl⟩ := step_cases h
  · exact absurd (engineStep_move h).err herr
  · exact absurd (engineStep_move h).err herr
  · exact .inr ⟨v, ts, hs, commandWrite_changes_err (s := nextTurn ts s) herr⟩
  · obtain ⟨rfl, -⟩ | ⟨cfg, host, h⟩ := hostTurn_cases turn (nextTurn ts s)
    · exact .inl ⟨ts, hs⟩
    · rw [h] at herr
      exact absurd rfl herr

/-- Settles O17: what changes ERR, a command that forgets the old code, and the reset. -/
theorem errorStaysUntilTheNextCommand : Obligations.ErrorStaysUntilTheNextCommand := by
  refine ⟨fun s t => step_changes_err, fun s v ts hs hv hb => ?_, fun s ts hs => ?_⟩
  · refine ⟨_, step_command hs, commandWrite_err_of_busy (s := nextTurn ts s) hb hv, fun e => ?_⟩
    exact (step_command (s := s.withStatus { s.status with err := e }) hs).trans
      (congrArg Host.Outcome.next (commandWrite_forgets_err (s := nextTurn ts s) hb hv e))
  · exact ⟨hardwareReset (nextTurn ts s), by simp only [step, hs, hostTurn], rfl⟩

end Sys2Proof.Machine
end

section
/-! PROOF. O60: hardware reset (spec/70_reset_and_hazards.md R310, R312). The reset turn runs before the engine's label is
looked at, and of the state it is given it reads the host's side alone. -/

namespace Sys2Proof.Machine

/-- A reset turn is taken whatever the engine does (R310). -/
theorem step_reset {s : State} {ts : List Turn} (hs : s.host.script = .reset :: ts) :
    step s = .next (hardwareReset (nextTurn ts s)) := by
  simp only [step, hs, hostTurn]

/-- After its turn has left the script, a reset keeps the rest of the host's side and nothing else (R312). -/
theorem hardwareReset_nextTurn (ts : List Turn) (s : State) :
    hardwareReset (nextTurn ts s) = { State.reset with host := { s.host with script := ts } } := by
  simp only [hardwareReset, nextTurn, State.withHost_host]
  rfl

/-- Settles O60: the reset turn is taken at any label, and only the host's side outlives it. -/
theorem hardwareResetAbortsTheSession : Obligations.HardwareResetAbortsTheSession := by
  intro s ts hs
  rw [step_reset hs, hardwareReset_nextTurn]

end Sys2Proof.Machine
end
